-- ==== Sys2Proof/Word.lean ====
section
/-! DEFINITION. The value types of the DHT protocol decoder: payload bytes, line levels and the fixed-width codes the
spec treats as bits. Counts whose width is a build parameter (wcnt, pcnt, Raw Pulse Table entries) are natural numbers,
and Safety.lean says the width they fit. -/

namespace Sys2Proof

/-- One payload byte (10_state.md R27). -/
abbrev Byte := BitVec 8

/-- The operation selector `{rst, start_i, st[3:0]}` (30_encoding.md R71). -/
abbrev Sel := BitVec 6

/-- A sequencer state code, the value of `st` and of `state_o` (30_encoding.md R72). -/
abbrev StCode := BitVec 4

/-- A status code, the value of `status` and of `status_o` (30_encoding.md R74). -/
abbrev StatusCode := BitVec 3

/-- The 6-bit bit index `idx` (10_state.md R25). -/
abbrev BitIndex := BitVec 6

/-- A level of the data line (00_scope.md R11: LOW = 0, HIGH = 1). -/
abbrev Level := Bool

/-- The line reads 0 (00_scope.md R11). -/
abbrev LOW : Level := false

/-- The line reads 1 (00_scope.md R11). -/
abbrev HIGH : Level := true

end Sys2Proof
end

