-- ==== Sys2Proof/Config.lean ====
section
/-! DEFINITION. What an implementation fixes (the build parameters of 00_scope.md R6 and the host parameters of R8), what
the outside world can do to the machine in one cycle (10_state.md R38, 45_host.md R202), and the two free values. -/

namespace Sys2Proof

/-- The parameters of one build (00_scope.md R6) and of the host beside it (R8). They are data of a state, so every claim
about all states is a claim about all builds; no operation writes them. -/
structure Build where
  /-- `CLK_HZ`: frequency of `clk` in Hz. It only feeds the defaults. -/
  clkHz       : Nat
  /-- `W_CNT`: width of a pulse count and of a Raw Pulse Table entry. -/
  wCnt        : Nat
  /-- `BUDGET`: the per-pulse cycle budget. -/
  budget      : Nat
  /-- `T_IDLE`: cycles the line is released in RST_HIGH. -/
  tIdle       : Nat
  /-- `T_START`: cycles the line is driven LOW in START_LOW. -/
  tStart      : Nat
  /-- `T_PULL`: cycles of the release settle delay. -/
  tPull       : Nat
  /-- `W_WAIT`: width of the wait counter. -/
  wWait       : Nat
  /-- `W_TIME`: width of the host's microsecond timebase (R8). -/
  wTime       : Nat
  /-- `MIN_INTERVAL`: the host's minimum re-read interval in microseconds (R8). -/
  minInterval : Nat
  deriving DecidableEq, Repr

/-- A call of one of the host's two procedures (45_host.md R202, R208). -/
inductive HostCall where
  /-- `HostRead(force)` (R202). -/
  | read (force : Bool)
  /-- `HostValue()`, which is a non-forced read and then the extraction (R208). -/
  | value
  deriving DecidableEq, Repr

/-- What the outside world does in one cycle: the three input ports of the block (10_state.md R38), a call made to the
host's procedures, and the microseconds the host's timebase moves on by (45_host.md R200). -/
structure Inputs where
  /-- `rst`, synchronous, active high. -/
  rst    : Bool
  /-- `start_i`, the START command. -/
  startI : Bool
  /-- `dq_i`, the level of the data line as sampled in the cycle. -/
  dqI    : Level
  /-- A call of a host procedure made in this cycle. -/
  call   : Option HostCall
  /-- Microseconds that pass on the host's timebase in this cycle. -/
  dt     : Nat
  deriving DecidableEq, Repr, Inhabited

namespace Config

/-- FREE VALUE. What the outside world does in cycle `n` where no script says so: 10_state.md R20 takes the inputs of the
host and of the sensor as free per-cycle values (93_implementation_defined.md U16, U17). Assumption log 3. -/
opaque freeInputs : Nat → Inputs

/-- FREE VALUE. What an observer sees on `data_o` in cycle `n` where `valid_o = 0`: 20_memory.md R59 makes it any value
(93_implementation_defined.md U1, U2). Assumption log 5. -/
opaque freeData : Nat → BitVec 40

end Config

end Sys2Proof
end

