-- ==== Sys2Proof/Syntax.lean ====
section
/-! DEFINITION. The operations of the block: one constructor per row of spec/opcode_table.json (30_encoding.md R70). The
fields are the selector bits that the row's pattern leaves open (s = `start_i`, t = bits of `st`), so no bit of a selector
is lost; no operation has a register operand (10_state.md R32). -/

namespace Sys2Proof

/-- One operation of the block; the selector of a cycle picks exactly one (30_encoding.md R70, R71). -/
inductive Instr where
  /-- RESET, pattern 1stttt (70_reset_and_hazards.md R260). -/
  | reset (start : Bool) (st : StCode)
  /-- START, pattern 010000 (40_control.md R101). -/
  | start
  /-- IDLE_WAIT, pattern 000000 (40_control.md R106). -/
  | idleWait
  /-- RST_HIGH, pattern 0s0001 (42_frame_sync.md R141). -/
  | rstHigh (start : Bool)
  /-- START_LOW, pattern 0s0010 (42_frame_sync.md R142). -/
  | startLow (start : Bool)
  /-- RELEASE, pattern 0s0011 (42_frame_sync.md R143). -/
  | release (start : Bool)
  /-- ACK_LOW, pattern 0s0100 (42_frame_sync.md R144). -/
  | ackLow (start : Bool)
  /-- ACK_HIGH, pattern 0s0101 (42_frame_sync.md R145). -/
  | ackHigh (start : Bool)
  /-- BIT_LOW, pattern 0s0110 (43_bit_pair.md R163). -/
  | bitLow (start : Bool)
  /-- BIT_HIGH, pattern 0s0111 (43_bit_pair.md R164). -/
  | bitHigh (start : Bool)
  /-- DECODE, pattern 0s1000 (43_bit_pair.md R170). -/
  | decode (start : Bool)
  /-- VALIDATE, pattern 0s1001 (44_checksum.md R190). -/
  | validate (start : Bool)
  /-- UNUSED_101x, pattern 0s101t: `code` is the reserved state code, 10 or 11 (40_control.md R105). -/
  | unused101x (start : Bool) (code : StCode)
  /-- UNUSED_11xx, pattern 0s11tt: `code` is the reserved state code, 12 to 15 (40_control.md R105). -/
  | unused11xx (start : Bool) (code : StCode)
  deriving DecidableEq, Repr

end Sys2Proof
end

