-- ==== Sys2Proof/WellFormed.lean ====
section
/-! DEFINITION. Which operations are well formed. The types already bound every field but the reserved state code of the
two UNUSED rows, which must lie in its row's pattern (30_encoding.md R70, R73). -/

namespace Sys2Proof

/-- The code lies in row UNUSED_101x: 10 or 11 (30_encoding.md R70). -/
def codeIn101x (code : StCode) : Bool := decide (code.toNat / 2 = 5)

/-- The code lies in row UNUSED_11xx: 12 to 15 (30_encoding.md R70). -/
def codeIn11xx (code : StCode) : Bool := decide (code.toNat / 4 = 3)

/-- The operation is one a selector can name. -/
def Instr.wf : Instr → Bool
  | .reset _ _ => true
  | .start => true
  | .idleWait => true
  | .rstHigh _ => true
  | .startLow _ => true
  | .release _ => true
  | .ackLow _ => true
  | .ackHigh _ => true
  | .bitLow _ => true
  | .bitHigh _ => true
  | .decode _ => true
  | .validate _ => true
  | .unused101x _ code => codeIn101x code
  | .unused11xx _ code => codeIn11xx code

end Sys2Proof
end

