-- ==== Sys2Proof/Decode.lean ====
section
/-! DEFINITION. The codes of the sequencer states and of the status (30_encoding.md R72, R74), the decoder of the 6-bit
operation selector (R71), the encoder, and the match/mask rows of spec/opcode_table.json. -/

namespace Sys2Proof

/-! ### Sequencer state codes (30_encoding.md R72) -/

namespace St

abbrev IDLE : StCode := 0
abbrev RST_HIGH : StCode := 1
abbrev START_LOW : StCode := 2
abbrev RELEASE : StCode := 3
abbrev ACK_LOW : StCode := 4
abbrev ACK_HIGH : StCode := 5
abbrev BIT_LOW : StCode := 6
abbrev BIT_HIGH : StCode := 7
abbrev DECODE : StCode := 8
abbrev VALIDATE : StCode := 9

end St

/-! ### Status codes (30_encoding.md R74); 5, 6 and 7 are reserved (R75) -/

namespace Status

abbrev NONE : StatusCode := 0
abbrev OK : StatusCode := 1
abbrev TIMEOUT_ACK : StatusCode := 2
abbrev TIMEOUT_BIT : StatusCode := 3
abbrev CHECKSUM : StatusCode := 4

end Status

/-! ### Decoding -/

/-- The selector of a cycle from its three fields (30_encoding.md R71): bit 5 is `rst`, bit 4 `start_i`, bits 3:0 `st`. -/
def selectorOf (rst start : Bool) (st : StCode) : Sel :=
  BitVec.ofBool rst ++ BitVec.ofBool start ++ st

/-- The field `rst` of a selector. -/
def Sel.rst (w : Sel) : Bool := w.getLsbD 5

/-- The field `start_i` of a selector. -/
def Sel.start (w : Sel) : Bool := w.getLsbD 4

/-- The field `st` of a selector. -/
def Sel.st (w : Sel) : StCode := w.extractLsb' 0 4

/-- The operation that a state code selects when `rst = 0` (30_encoding.md R71, 40_control.md R100). -/
def decodeState (start : Bool) (st : StCode) : Instr :=
  match st.toNat with
  | 0 => if start then .start else .idleWait
  | 1 => .rstHigh start
  | 2 => .startLow start
  | 3 => .release start
  | 4 => .ackLow start
  | 5 => .ackHigh start
  | 6 => .bitLow start
  | 7 => .bitHigh start
  | 8 => .decode start
  | 9 => .validate start
  | 10 => .unused101x start st
  | 11 => .unused101x start st
  | _ => .unused11xx start st

/-- Decode is total on the 64 selectors: `sel[5] = 1` selects RESET whatever the other bits (30_encoding.md R71). -/
def decodeSel (w : Sel) : Instr :=
  if Sel.rst w then .reset (Sel.start w) (Sel.st w) else decodeState (Sel.start w) (Sel.st w)

/-- Why bytes are no selector. -/
inductive DecodeError where
  /-- There is no byte to read a selector from. -/
  | noBytes
  /-- The byte has a bit above the selector's 6 bits (30_encoding.md R83: the selector is always 6 bits). -/
  | aboveSixBits (byte : Byte)
  deriving DecidableEq, Repr

/-- The decoder on bytes: one selector a byte, in its low six bits (assumption log 8), and the bytes left over. -/
def decodeBytes : List Byte → Except DecodeError (Instr × List Byte)
  | [] => .error .noBytes
  | b :: rest =>
    if b.toNat < 64 then .ok (decodeSel (BitVec.ofNat 6 b.toNat), rest) else .error (.aboveSixBits b)

/-- The instruction the decoder reads from a word of spec/opcode_table.json. -/
def decodeTableWord (nbits w : Nat) : Option Instr :=
  if 6 ≤ nbits ∧ w < 2 ^ nbits ∧ w < 256 then
    match decodeBytes [BitVec.ofNat 8 w] with
    | .ok (i, _) => some i
    | .error _ => none
  else none

/-! ### Encoding, from the patterns of spec/opcode_table.json -/

/-- The selector of a well-formed operation (30_encoding.md R71, R72). -/
def encode : Instr → Sel
  | .reset start st => selectorOf true start st
  | .start => 0b010000
  | .idleWait => 0b000000
  | .rstHigh start => selectorOf false start 0b0001
  | .startLow start => selectorOf false start 0b0010
  | .release start => selectorOf false start 0b0011
  | .ackLow start => selectorOf false start 0b0100
  | .ackHigh start => selectorOf false start 0b0101
  | .bitLow start => selectorOf false start 0b0110
  | .bitHigh start => selectorOf false start 0b0111
  | .decode start => selectorOf false start 0b1000
  | .validate start => selectorOf false start 0b1001
  | .unused101x start code => selectorOf false start code
  | .unused11xx start code => selectorOf false start code

/-- The byte that carries a well-formed operation's selector. -/
def encodeBytes (i : Instr) : List Byte := [(encode i).setWidth 8]

/-! ### The match/mask rows of the opcode table -/

/-- One row of spec/opcode_table.json: a selector `w` is the row's when `w &&& mask = pattern`. -/
structure OpcodeRow where
  mnemonic : String
  pattern  : Sel
  mask     : Sel
  deriving DecidableEq, Repr

/-- The row's pattern matches the selector. -/
def OpcodeRow.selects (r : OpcodeRow) (w : Sel) : Bool := decide (w &&& r.mask = r.pattern)

/-- The row of spec/opcode_table.json that an operation stands for, with the table's match and mask. -/
def Instr.row : Instr → OpcodeRow
  | .reset _ _ => ⟨"RESET", 0b100000, 0b100000⟩
  | .start => ⟨"START", 0b010000, 0b111111⟩
  | .idleWait => ⟨"IDLE_WAIT", 0b000000, 0b111111⟩
  | .rstHigh _ => ⟨"RST_HIGH", 0b000001, 0b101111⟩
  | .startLow _ => ⟨"START_LOW", 0b000010, 0b101111⟩
  | .release _ => ⟨"RELEASE", 0b000011, 0b101111⟩
  | .ackLow _ => ⟨"ACK_LOW", 0b000100, 0b101111⟩
  | .ackHigh _ => ⟨"ACK_HIGH", 0b000101, 0b101111⟩
  | .bitLow _ => ⟨"BIT_LOW", 0b000110, 0b101111⟩
  | .bitHigh _ => ⟨"BIT_HIGH", 0b000111, 0b101111⟩
  | .decode _ => ⟨"DECODE", 0b001000, 0b101111⟩
  | .validate _ => ⟨"VALIDATE", 0b001001, 0b101111⟩
  | .unused101x _ _ => ⟨"UNUSED_101x", 0b001010, 0b101110⟩
  | .unused11xx _ _ => ⟨"UNUSED_11xx", 0b001100, 0b101100⟩

/-- The fourteen rows of spec/opcode_table.json, in its order. -/
def opcodeTable : List OpcodeRow :=
  [Instr.row (.reset false 0), Instr.row .start, Instr.row .idleWait, Instr.row (.rstHigh false),
    Instr.row (.startLow false), Instr.row (.release false), Instr.row (.ackLow false), Instr.row (.ackHigh false),
    Instr.row (.bitLow false), Instr.row (.bitHigh false), Instr.row (.decode false), Instr.row (.validate false),
    Instr.row (.unused101x false 10), Instr.row (.unused11xx false 12)]

end Sys2Proof
end

