-- ==== Sys2Proof/Machine/Params.lean ====
section
/-! DEFINITION. What the build parameters determine (00_scope.md R6, 30_encoding.md R85): the timeout sentinel, the
constraints, the defaults, and the build of the reset state; and the subtraction at the width of the host's timebase. -/

namespace Sys2Proof

/-- `TIMEOUT = 2^W_CNT − 1`, the timeout sentinel (00_scope.md R6, 41_pulse_timer.md R123). -/
def Build.timeout (b : Build) : Nat := 2 ^ b.wCnt - 1

/-- The constraints of 00_scope.md R6. A build that breaks one is not a DPD and a model refuses it. -/
def Build.ok (b : Build) : Bool :=
  decide (1000000 ≤ b.clkHz) && decide (2 ≤ b.wCnt) && decide (1 ≤ b.budget) && decide (b.budget ≤ 2 ^ b.wCnt - 2) &&
    decide (1 ≤ b.tIdle) && decide (1 ≤ b.tStart) && decide (1 ≤ b.tPull) &&
    decide (max b.tIdle (max b.tStart b.tPull) ≤ 2 ^ b.wWait)

/-- A duration of `us` microseconds in cycles of a clock of `hz` Hz (30_encoding.md R85). -/
def cyclesOfMicros (us hz : Nat) : Nat := us * hz / 1000000

/-- The least width whose `2^width` is at least `n` (the default of `W_WAIT`, 00_scope.md R6). -/
def leastWidth (n : Nat) : Nat := if n ≤ 1 then 0 else Nat.log2 (n - 1) + 1

/-- The defaults of 00_scope.md R6 for a clock of `hz` Hz. `CLK_HZ` and `MIN_INTERVAL` are OPEN in the spec (D11, D27), so
they are arguments. -/
def Build.defaults (hz minInterval : Nat) : Build :=
  let tIdle := hz / 1000
  let tStart := cyclesOfMicros 1100 hz
  let tPull := cyclesOfMicros 55 hz
  { clkHz := hz
    wCnt := 32
    budget := hz / 1000
    tIdle := tIdle
    tStart := tStart
    tPull := tPull
    wWait := leastWidth (max tIdle (max tStart tPull))
    wTime := 32
    minInterval := minInterval }

/-- `(a − b) mod 2^w`: the difference at a timebase of `w` bits (45_host.md R201, R203). -/
def subMod (w a b : Nat) : Nat := (((a : Int) - (b : Int)) % ((2 : Int) ^ w)).toNat

/-- `last_time` after the host's initialisation at time `now` (45_host.md R201). -/
def initialLastTime (b : Build) (now : Nat) : Nat := subMod b.wTime now b.minInterval

/-- The build of the reset state: the defaults of 00_scope.md R6 at the least clock its constraint admits, with the
interval of the vectors of 95_test_vectors.md 2.7. DESIGN CHOICE, assumption log 2: the spec leaves CLK_HZ and MIN_INTERVAL
open. -/
def resetBuild : Build := Build.defaults 1000000 2000

end Sys2Proof
end

