-- ==== Sys2Proof/Machine/State.lean ====
section
/-! DEFINITION. The state: the block's registers exactly as 10_state.md R22 to R30 list them, the host's state of
45_host.md R200, the build parameters, and the model's own fields for the outside world (the inputs of this cycle, the
scripted inputs of the cycles after it, the cycle counter). Plain data throughout. -/

namespace Sys2Proof.Machine

/-- The two internal memories of the block (20_memory.md R50). -/
inductive Space where
  /-- The Raw Pulse Table, 80 entries. -/
  | raw
  /-- The Payload Buffer, 5 bytes. -/
  | buf
  deriving DecidableEq, Repr

/-- Why the machine stops with a fault. The block itself has none (60_exceptions.md R230); both need a state that no run
from reset reaches. -/
inductive Fault where
  /-- Raised by DECODE reading a Raw Pulse Table entry that holds no value: 10_state.md R26 asks a model to fault there.
  Safe: the machine stops where the hardware would read an unspecified value (assumption log 6). -/
  | rawNoValue (k : Nat)
  /-- Raised by BIT_LOW, BIT_HIGH and DECODE when `idx` is above 39 and an index outside the range of 20_memory.md R50 is
  formed. Safe: such an entry does not exist, and R50 says no such index is ever formed (assumption log 11). -/
  | noSuchEntry (space : Space) (k : Nat)
  deriving DecidableEq, Repr

/-- Why the model gives a step no meaning. -/
inductive Refusal where
  /-- An operation without a meaning yet; no arm of exec raises it. Safe. -/
  | notModelled (mnemonic : String)
  /-- Raised by `step` when the build breaks a constraint: "a model refuses it" (00_scope.md R6,
  93_implementation_defined.md U18). Safe. -/
  | badBuild
  deriving DecidableEq, Repr

/-- The Raw Pulse Table as pairs of an entry's index and its count, in one canonical form (`Memory.wf`); an index that is
not listed holds no value (10_state.md R26). -/
abbrev Memory := List (Nat × Nat)

/-- Where the host stands in its procedures (45_host.md R202, R208). -/
inductive HostPhase where
  /-- No call is in progress. -/
  | ready
  /-- The call waits until `busy_o = 0`. -/
  | waitIdle (call : HostCall)
  /-- The one cycle in which the host drives `start_i = 1`. -/
  | drive (call : HostCall)
  /-- The call waits for the end of the attempt; `seenBusy` says `busy_o` has been 1 since the START. -/
  | waitDone (call : HostCall) (seenBusy : Bool)
  deriving DecidableEq, Repr

/-- What a call of the host returns (45_host.md R202, R208). -/
inductive HostReturn where
  /-- `HostRead` returns the validity. -/
  | validity (valid : Bool)
  /-- `HostValue` returns the value `raw16 / 10` and the validity. -/
  | valueOf (raw16 : BitVec 16) (valid : Bool)
  deriving DecidableEq, Repr

/-- The host's side (45_host.md). `lastTime` and `now` are W_TIME-bit values. -/
structure HostSide where
  /-- `last_time` (R200). -/
  lastTime : Nat
  /-- The timebase `now()` (R200). -/
  now      : Nat
  /-- Where the host stands in a call (R202). -/
  phase    : HostPhase
  /-- What the latest call to return has returned. -/
  result   : Option HostReturn
  deriving DecidableEq, Repr

/-- The state of the machine in one cycle. -/
structure State where
  /-- The build parameters (00_scope.md R6, R8); no operation writes them. -/
  cfg    : Build
  /-- `st`, the sequencer state (10_state.md R22). -/
  st     : StCode
  /-- `wcnt`, the wait counter, W_WAIT bits (R23). -/
  wcnt   : Nat
  /-- `pcnt`, the pulse counter, W_CNT bits (R24). -/
  pcnt   : Nat
  /-- `idx`, the bit index (R25). -/
  idx    : BitIndex
  /-- `raw[0..79]`, the Raw Pulse Table, entries of W_CNT bits (R26). -/
  raw    : Memory
  /-- `buf[0..4]`, the Payload Buffer (R27). -/
  buf    : Vector Byte 5
  /-- `valid`, the last-result validity flag (R28). -/
  valid  : Bool
  /-- `status`, the outcome code of the last attempt (R29). -/
  status : StatusCode
  /-- `done`, the end-of-attempt pulse (R30). -/
  done   : Bool
  /-- The host's side (45_host.md R200). -/
  host   : HostSide
  /-- The inputs of this cycle (R38); `inp.startI` includes the START that the host's side drives. -/
  inp    : Inputs
  /-- The scripted inputs of the cycles after this one, in order; after the last of them the inputs are free values. -/
  stim   : List Inputs
  /-- The number of this cycle: the index of the free values. -/
  cycle  : Nat
  deriving DecidableEq, Repr

/-- The machine right after reset (10_state.md R39, 70_reset_and_hazards.md R260): the Raw Pulse Table holds no value
(R26), and every block register is at its reset value. The inputs of the first cycle, the timebase and the cycle number
are design choices (assumption log 4). -/
def State.reset : State :=
  { cfg := resetBuild
    st := St.IDLE
    wcnt := 0
    pcnt := 0
    idx := 0
    raw := []
    buf := Vector.replicate 5 0
    valid := false
    status := Status.NONE
    done := false
    host := { lastTime := initialLastTime resetBuild 0, now := 0, phase := .ready, result := none }
    inp := { rst := false, startI := false, dqI := HIGH, call := none, dt := 0 }
    stim := []
    cycle := 0 }

end Sys2Proof.Machine
end

