-- ==== Sys2Proof/Machine/Operands.lean ====
section
/-! DEFINITION. The operands of the operations, formed as 30_encoding.md R81 says: the sample, the Raw Pulse Table indices,
the payload byte index, the decoded bit and its shift, the checksum sum. -/

namespace Sys2Proof.Machine

/-- `sample`: the value of `dq_i` in this cycle (00_scope.md R10). -/
def sample (s : State) : Level := s.inp.dqI

/-- The selector of this cycle, `{rst, start_i, st}` (30_encoding.md R71). -/
def selector (s : State) : Sel := selectorOf s.inp.rst s.inp.startI s.st

/-- The Raw Pulse Table index of the low-phase count of bit `i` (43_bit_pair.md R161). -/
def lowIndex (i : BitIndex) : Nat := 2 * i.toNat

/-- The Raw Pulse Table index of the high-phase count of bit `i` (43_bit_pair.md R161). -/
def highIndex (i : BitIndex) : Nat := 2 * i.toNat + 1

/-- The payload byte that bit `i` belongs to: `i / 8` (43_bit_pair.md R171). -/
def byteIndex (i : BitIndex) : Nat := i.toNat / 8

/-- The index of the last bit of a frame (00_scope.md R7: the frame has 40 bits). -/
def lastBit : BitIndex := 39

/-- The decoded bit of a pair: 1 iff the high-phase count exceeds the low-phase count; a tie gives 0
(43_bit_pair.md R171, R172). -/
def pairBit (lo hi : Nat) : Bool := decide (lo < hi)

/-- `((byte << 1) | zext_8(bit)) mod 256` (43_bit_pair.md R171). -/
def shiftIn (byte : Byte) (bit : Bool) : Byte := (byte <<< 1) ||| (BitVec.ofBool bit).setWidth 8

/-- The exact sum of the four data bytes, 0 to 1020 (44_checksum.md R192). -/
def dataSum (buf : Vector Byte 5) : Nat := buf[0].toNat + buf[1].toNat + buf[2].toNat + buf[3].toNat

/-- The checksum byte equals the low 8 bits of the sum of the data bytes (44_checksum.md R190, R192). -/
def checksumOk (buf : Vector Byte 5) : Bool := decide (buf[4].toNat = dataSum buf % 256)

end Sys2Proof.Machine
end

