-- ==== Sys2Proof/Machine/Flags.lean ====
section
/-! DEFINITION. The flags a host can read and their writes (10_state.md R28 to R30, R34), and the outputs of the block as
functions of the state registers of the cycle (R36). -/

namespace Sys2Proof.Machine

/-! ### Writes of valid, status and done -/

/-- `done <- 0`, which every step that is not RESET writes first (40_control.md R104). -/
def clearDone (s : State) : State := { s with done := false }

/-- The writes that end an attempt: the outcome, `done <- 1` and `next <- IDLE` (40_control.md R104). -/
def endAttempt (valid : Bool) (code : StatusCode) (s : State) : State :=
  { s with valid := valid, status := code, done := true, st := St.IDLE }

/-! ### Outputs (10_state.md R36) -/

/-- `busy_o`. -/
def busyO (s : State) : Bool := decide (s.st ≠ St.IDLE)

/-- `done_o`. -/
def doneO (s : State) : Bool := s.done

/-- `valid_o`. -/
def validO (s : State) : Bool := s.valid

/-- `status_o`. -/
def statusO (s : State) : StatusCode := s.status

/-- `data_o` as the block forms it: byte 0 in bits 39:32 down to byte 4 in bits 7:0 (30_encoding.md R76). -/
def dataO (s : State) : BitVec 40 := s.buf[0] ++ s.buf[1] ++ s.buf[2] ++ s.buf[3] ++ s.buf[4]

/-- `dq_drive_low_o`: 1 pulls the data line LOW, 0 releases it. -/
def dqDriveLowO (s : State) : Bool := decide (s.st = St.START_LOW)

/-- `crit_o`: bit acquisition is in progress (43_bit_pair.md R162). -/
def critO (s : State) : Bool := decide (s.st = St.BIT_LOW) || decide (s.st = St.BIT_HIGH)

/-- `state_o` (60_exceptions.md R247). -/
def stateO (s : State) : StCode := s.st

/-- `data_o` as an observer may take it: any value where `valid_o = 0` (20_memory.md R59, 92_eei_decisions.md D24). -/
def observedData (s : State) : BitVec 40 := if validO s then dataO s else Config.freeData s.cycle

/-- The level of the open-drain line: pulled up, and LOW when the block or the sensor pulls it LOW (10_state.md R36, R37).
The block's `dq_i` is a free input all the same (assumption log 3). -/
def lineLevel (s : State) (sensorPullsLow : Bool) : Level := !(dqDriveLowO s || sensorPullsLow)

end Sys2Proof.Machine
end

