-- ==== Sys2Proof/Machine/Ops.lean ====
section
/-! DEFINITION. The named operations over the block's memories and registers: the Raw Pulse Table and the Payload Buffer
(20_memory.md R50), the wait primitive (40_control.md R102), one poll of the pulse-duration timer (41_pulse_timer.md R121),
and `raise AttemptFail(code)` (60_exceptions.md R233), the block's whole counterpart of taking an exception. There is no
return from one (R237). -/

namespace Sys2Proof.Machine

/-! ### The Raw Pulse Table -/

/-- The number of Raw Pulse Table entries (20_memory.md R50). -/
def rawEntries : Nat := 80

/-- The value listed for index `k`, if any. -/
def Memory.get : Memory → Nat → Option Nat
  | [], _ => none
  | (j, v) :: m, k => if j = k then some v else Memory.get m k

/-- The table with `v` at index `k`, kept in rising order of index. -/
def Memory.set : Memory → Nat → Nat → Memory
  | [], k, v => [(k, v)]
  | (j, w) :: m, k, v =>
    if k < j then (k, v) :: (j, w) :: m else if k = j then (k, v) :: m else (j, w) :: Memory.set m k v

/-- Every index from here on is at least `lo`, they rise strictly, and they lie in the table. -/
def Memory.wfFrom : Nat → Memory → Bool
  | _, [] => true
  | lo, (j, _) :: m => decide (lo ≤ j) && decide (j < rawEntries) && Memory.wfFrom (j + 1) m

/-- The canonical form: indices strictly rising and below 80. An unlisted index holds no value, so no listed entry can equal
what an unlisted one reads as. -/
def Memory.wf (m : Memory) : Bool := Memory.wfFrom 0 m

/-- `RawRead(k)` (20_memory.md R50). An entry without a value faults (10_state.md R26). -/
def rawRead (k : Nat) (s : State) : Except Fault Nat :=
  if k < rawEntries then
    match s.raw.get k with
    | some v => .ok v
    | none => .error (.rawNoValue k)
  else .error (.noSuchEntry .raw k)

/-- `RawWrite(k, v)` (20_memory.md R50). -/
def rawWrite (k v : Nat) (s : State) : Except Fault State :=
  if k < rawEntries then .ok { s with raw := s.raw.set k v } else .error (.noSuchEntry .raw k)

/-! ### The Payload Buffer -/

/-- `BufRead(k)` (20_memory.md R50). -/
def bufRead (k : Nat) (s : State) : Except Fault Byte :=
  if h : k < 5 then .ok s.buf[k] else .error (.noSuchEntry .buf k)

/-- `BufWrite(k, v)` (20_memory.md R50). -/
def bufWrite (k : Nat) (v : Byte) (s : State) : Except Fault State :=
  if h : k < 5 then .ok { s with buf := s.buf.set k v } else .error (.noSuchEntry .buf k)

/-- `for k in 0 .. 4: BufWrite(k, 0)` (40_control.md R101, 70_reset_and_hazards.md R260). -/
def clearBuf (s : State) : State := { s with buf := Vector.replicate 5 0 }

/-! ### The sequencer -/

/-- `next <- code` (00_scope.md R10). -/
def goto (code : StCode) (s : State) : State := { s with st := code }

/-- `Wait(T, S_next)` (40_control.md R102). The counter is kept to its W_WAIT bits; R102 says the cut never bites
(assumption log 10). -/
def wait (T : Nat) (target : StCode) (s : State) : State :=
  if s.wcnt = T - 1 then { s with wcnt := 0, st := target }
  else { s with wcnt := (s.wcnt + 1) % 2 ^ s.cfg.wWait }

/-! ### The pulse-duration timer -/

/-- What one poll of a measurement returns (41_pulse_timer.md R121). -/
inductive Poll where
  /-- `END(v)`: the measurement ended; `v` is a count or TIMEOUT. -/
  | ended (v : Nat)
  /-- `CONTINUE`. -/
  | continues
  deriving DecidableEq, Repr

/-- The result of one poll of `Measure(L)`: the level is tested first, then the budget (41_pulse_timer.md R121). -/
def poll (L : Level) (s : State) : Poll :=
  if sample s ≠ L then .ended s.pcnt
  else if s.cfg.budget ≤ s.pcnt then .ended s.cfg.timeout
  else .continues

/-- The pulse counter after one poll of `Measure(L)` (41_pulse_timer.md R121). -/
def pollCount (L : Level) (s : State) : Nat :=
  match poll L s with
  | .ended _ => 0
  | .continues => s.pcnt + 1

/-- The state with the pulse counter as one poll of `Measure(L)` leaves it. -/
def counted (L : Level) (s : State) : State := { s with pcnt := pollCount L s }

/-! ### Failures -/

/-- `raise AttemptFail(code)` (60_exceptions.md R233): `valid <- 0`, `status <- code`, `done <- 1`, `next <- IDLE`. -/
def attemptFail (code : StatusCode) (s : State) : State := endAttempt false code s

/-- The outcome of an operation whose memory accesses may fault. -/
def outcomeOf : Except Fault State → Host.Outcome State Fault Refusal
  | .ok t => .next t
  | .error f => .fault f

end Sys2Proof.Machine
end

