-- ==== Sys2Proof/Machine/HostSide.lean ====
section
/-! DEFINITION. The host's side (45_host.md): the rate limiter `HostRead(force)`, the value extractor `HostValue()` and
their waits, as one agent that makes one move a cycle and sees the block through its outputs only. -/

namespace Sys2Proof.Machine

/-- The host's side after its initialisation at time `now` (45_host.md R201). -/
def HostSide.init (b : Build) (now : Nat) : HostSide :=
  { lastTime := initialLastTime b now, now := now, phase := .ready, result := none }

/-- `Elapsed(t, last) = (t − last) mod 2^W_TIME` (45_host.md R203). -/
def elapsed (b : Build) (t last : Nat) : Nat := subMod b.wTime t last

/-- The `force` flag of a call; `HostValue` reads with `force = 0` (45_host.md R208). -/
def isForced : HostCall → Bool
  | .read force => force
  | .value => false

/-- The call is answered without a START (45_host.md R202). -/
def rateLimited (s : State) (call : HostCall) : Bool :=
  !isForced call && decide (elapsed s.cfg s.host.now s.host.lastTime < s.cfg.minInterval)

/-- `{data_o[39:32], data_o[31:24]}` as the host observes it (45_host.md R208, R210). -/
def observedRaw16 (s : State) : BitVec 16 := (observedData s).extractLsb' 24 16

/-- What a call returns in this cycle (45_host.md R202, R208). -/
def hostReturn (s : State) : HostCall → HostReturn
  | .read _ => .validity (validO s)
  | .value => .valueOf (observedRaw16 s) (validO s)

/-- The exact value that `HostValue` returns: `raw16 / 10` (45_host.md R208, R209). -/
def extractedValue (raw16 : BitVec 16) : Rat := (raw16.toNat : Rat) / 10

/-- The timebase moves on, wrapping at its width (45_host.md R200). -/
def hostClock (s : State) : HostSide :=
  { s.host with now := (s.host.now + s.inp.dt) % 2 ^ s.cfg.wTime }

/-- The host's move in this cycle (45_host.md R202). It waits for `busy_o = 0`, drives START for one cycle and waits for
the end of the attempt (R206); a call made while another is in progress is not taken (assumption log 13). -/
def hostMove (s : State) : HostSide :=
  let h := hostClock s
  match s.host.phase with
  | .ready =>
    match s.inp.call with
    | none => h
    | some call =>
      if rateLimited s call then { h with result := some (hostReturn s call) }
      else { h with lastTime := s.host.now, phase := .waitIdle call }
  | .waitIdle call => if busyO s then h else { h with phase := .drive call }
  | .drive call => { h with phase := .waitDone call false }
  | .waitDone call seenBusy =>
    if doneO s || (seenBusy && !busyO s) then { h with phase := .ready, result := some (hostReturn s call) }
    else { h with phase := .waitDone call (seenBusy || busyO s) }

/-- The host drives `start_i = 1` in the one cycle of its `drive` phase (45_host.md R202). -/
def hostDrives (h : HostSide) : Bool :=
  match h.phase with
  | .ready => false
  | .waitIdle _ => false
  | .drive _ => true
  | .waitDone _ _ => false

end Sys2Proof.Machine
end

