-- ==== Sys2Proof/Machine/Cycle.lean ====
section
/-! DEFINITION. What the rising edge does around the operation of a cycle (10_state.md R21): the host makes its move and the
inputs of the next cycle arrive, scripted or free (10_state.md R20). -/

namespace Sys2Proof.Machine

/-- What the outside world does in the next cycle: the script's next entry, or a free value where the script has ended. -/
def arriving (s : State) : Inputs :=
  match s.stim with
  | i :: _ => i
  | [] => Config.freeInputs (s.cycle + 1)

/-- The edge that ends the cycle of state `s`, after its operation has left the block's registers as in `t`. -/
def edge (s t : State) : State :=
  let h := hostMove s
  let i := arriving s
  { t with
    host := h
    inp := { i with startI := i.startI || hostDrives h }
    stim := s.stim.tail
    cycle := s.cycle + 1 }

/-- The edge applied to the outcome of the cycle's operation. -/
def endCycle (s : State) : Host.Outcome State Fault Refusal → Host.Outcome State Fault Refusal
  | .next t => .next (edge s t)
  | .fault f => .fault f
  | .refused r => .refused r

/-- The selector of a table word placed where the next step takes it: `rst` and `start_i` on the pins, `st` in the
sequencer (30_encoding.md R71). -/
def placeWord (w : Nat) (s : State) : State :=
  { s with st := BitVec.ofNat 4 w, inp := { s.inp with rst := w.testBit 5, startI := w.testBit 4 } }

end Sys2Proof.Machine
end

