-- ==== Sys2Proof/Machine/BitPair.lean ====
section
/-! DEFINITION. The bit-pair processor and the 1-bit decoder (43_bit_pair.md). -/

namespace Sys2Proof.Machine

/-- BIT_LOW (43_bit_pair.md R163): a count or TIMEOUT is recorded in entry `2 × idx`; a timeout does not end the attempt
(R165). -/
def execBitLow (s : State) : Host.Outcome State Fault Refusal :=
  let t := counted LOW (clearDone s)
  match poll LOW s with
  | .ended v => outcomeOf ((rawWrite (lowIndex s.idx) v t).map (goto St.BIT_HIGH))
  | .continues => .next t

/-- The successor of BIT_HIGH once bit `idx` is measured: the next bit, or DECODE from bit 0 (43_bit_pair.md R164). -/
def afterPair (s : State) : State :=
  if s.idx = lastBit then { s with idx := 0, st := St.DECODE } else { s with idx := s.idx + 1, st := St.BIT_LOW }

/-- BIT_HIGH (43_bit_pair.md R164): a count or TIMEOUT is recorded in entry `2 × idx + 1`. -/
def execBitHigh (s : State) : Host.Outcome State Fault Refusal :=
  let t := counted HIGH (clearDone s)
  match poll HIGH s with
  | .ended v => outcomeOf ((rawWrite (highIndex s.idx) v t).map afterPair)
  | .continues => .next t

/-- The successor of DECODE once bit `idx` is decoded: the next bit, or VALIDATE (43_bit_pair.md R170). -/
def afterBit (s : State) : State :=
  if s.idx = lastBit then { s with st := St.VALIDATE } else { s with idx := s.idx + 1 }

/-- The pair of bit `idx` decoded into its payload byte, or the failure of the attempt (43_bit_pair.md R170, R171). -/
def decodePair (lo hi : Nat) (s : State) : Except Fault State :=
  if lo = s.cfg.timeout ∨ hi = s.cfg.timeout then .ok (attemptFail Status.TIMEOUT_BIT s)
  else
    match bufRead (byteIndex s.idx) s with
    | .error f => .error f
    | .ok byte => (bufWrite (byteIndex s.idx) (shiftIn byte (pairBit lo hi)) s).map afterBit

/-- DECODE (43_bit_pair.md R170). -/
def execDecode (s : State) : Host.Outcome State Fault Refusal :=
  match rawRead (lowIndex s.idx) s with
  | .error f => .fault f
  | .ok lo =>
    match rawRead (highIndex s.idx) s with
    | .error f => .fault f
    | .ok hi => outcomeOf (decodePair lo hi (clearDone s))

end Sys2Proof.Machine
end

