-- ==== Sys2Proof/Machine/Checksum.lean ====
section
/-! DEFINITION. The checksum validator (44_checksum.md). -/

namespace Sys2Proof.Machine

/-- VALIDATE (44_checksum.md R190): the validity result, `done <- 1`, `next <- IDLE`; the buffer is not changed (R191). -/
def execValidate (s : State) : Host.Outcome State Fault Refusal :=
  .next (if checksumOk s.buf then endAttempt true Status.OK s else endAttempt false Status.CHECKSUM s)

end Sys2Proof.Machine
end

