-- ==== Sys2Proof/Machine/Control.lean ====
section
/-! DEFINITION. The control operations: RESET, START, IDLE_WAIT and the two rows of UNUSED (40_control.md,
70_reset_and_hazards.md). -/

namespace Sys2Proof.Machine

/-- RESET (70_reset_and_hazards.md R260): every block register to its reset value (10_state.md R39) but the Raw Pulse Table,
which is unchanged. -/
def execReset (s : State) : Host.Outcome State Fault Refusal :=
  .next { clearBuf s with
    st := St.IDLE, wcnt := 0, pcnt := 0, idx := 0, valid := false, status := Status.NONE, done := false }

/-- START (40_control.md R101): the attempt is accepted. -/
def execStart (s : State) : Host.Outcome State Fault Refusal :=
  .next { clearBuf (clearDone s) with valid := false, status := Status.NONE, wcnt := 0, st := St.RST_HIGH }

/-- IDLE_WAIT (40_control.md R106): nothing but `done <- 0`. -/
def execIdleWait (s : State) : Host.Outcome State Fault Refusal :=
  .next (clearDone s)

/-- UNUSED, row UNUSED_101x (40_control.md R105). -/
def execUnused101x (s : State) : Host.Outcome State Fault Refusal :=
  .next (goto St.IDLE (clearDone s))

/-- UNUSED, row UNUSED_11xx (40_control.md R105). -/
def execUnused11xx (s : State) : Host.Outcome State Fault Refusal :=
  .next (goto St.IDLE (clearDone s))

end Sys2Proof.Machine
end

