-- ==== Sys2Proof/Machine/FrameSync.lean ====
section
/-! DEFINITION. The frame synchronisation operations (42_frame_sync.md): the three wait states and the two handshake
measurements. -/

namespace Sys2Proof.Machine

/-- RST_HIGH (42_frame_sync.md R141): `Wait(T_IDLE, START_LOW)`. -/
def execRstHigh (s : State) : Host.Outcome State Fault Refusal :=
  .next (wait s.cfg.tIdle St.START_LOW (clearDone s))

/-- START_LOW (42_frame_sync.md R142): `Wait(T_START, RELEASE)`. -/
def execStartLow (s : State) : Host.Outcome State Fault Refusal :=
  .next (wait s.cfg.tStart St.RELEASE (clearDone s))

/-- RELEASE (42_frame_sync.md R143): `Wait(T_PULL, ACK_LOW)` with `pcnt` cleared on exit. -/
def execRelease (s : State) : Host.Outcome State Fault Refusal :=
  let t := wait s.cfg.tPull St.ACK_LOW (clearDone s)
  .next (if s.wcnt = s.cfg.tPull - 1 then { t with pcnt := 0 } else t)

/-- One handshake poll (42_frame_sync.md R144, R145): a timeout fails the attempt, a count is discarded and `onEnd` applied,
and otherwise the state is kept. -/
def handshake (L : Level) (onEnd : State → State) (s : State) : State :=
  let t := counted L (clearDone s)
  match poll L s with
  | .ended r => if r = s.cfg.timeout then attemptFail Status.TIMEOUT_ACK t else onEnd t
  | .continues => t

/-- ACK_LOW (42_frame_sync.md R144). -/
def execAckLow (s : State) : Host.Outcome State Fault Refusal :=
  .next (handshake LOW (goto St.ACK_HIGH) s)

/-- ACK_HIGH (42_frame_sync.md R145). -/
def execAckHigh (s : State) : Host.Outcome State Fault Refusal :=
  .next (handshake HIGH (fun t => { t with idx := 0, st := St.BIT_LOW }) s)

end Sys2Proof.Machine
end

