-- ==== Sys2Proof/Machine/Dispatch.lean ====
section
/-! DEFINITION. The one match from an operation to its meaning (40_control.md R100). -/

namespace Sys2Proof.Machine

def exec (i : Instr) (s : State) : Host.Outcome State Fault Refusal :=
  match i with
  | .reset _ _ => Sys2Proof.Machine.execReset s
  | .start => Sys2Proof.Machine.execStart s
  | .idleWait => Sys2Proof.Machine.execIdleWait s
  | .rstHigh _ => Sys2Proof.Machine.execRstHigh s
  | .startLow _ => Sys2Proof.Machine.execStartLow s
  | .release _ => Sys2Proof.Machine.execRelease s
  | .ackLow _ => Sys2Proof.Machine.execAckLow s
  | .ackHigh _ => Sys2Proof.Machine.execAckHigh s
  | .bitLow _ => Sys2Proof.Machine.execBitLow s
  | .bitHigh _ => Sys2Proof.Machine.execBitHigh s
  | .decode _ => Sys2Proof.Machine.execDecode s
  | .validate _ => Sys2Proof.Machine.execValidate s
  | .unused101x _ _ => Sys2Proof.Machine.execUnused101x s
  | .unused11xx _ _ => Sys2Proof.Machine.execUnused11xx s

end Sys2Proof.Machine
end

