-- ==== Sys2Proof/Machine/Step.lean ====
section
/-! DEFINITION. One step is one clock cycle (10_state.md R21, 40_control.md R100): the selector of the cycle picks one
operation, the operation runs, the edge ends the cycle. A build that breaks a constraint is refused (00_scope.md R6). -/

namespace Sys2Proof.Machine

/-- One cycle of the machine. -/
def step (s : State) : Host.Outcome State Fault Refusal :=
  if s.cfg.ok then endCycle s (exec (decodeSel (selector s)) s) else .refused .badBuild

/-- The state in which the very next step runs the operation of the table word `w`. -/
def State.withFetchWord (s : State) (_nbits w : Nat) : State := placeWord w s

end Sys2Proof.Machine
end

