-- ==== Sys2Proof/Machine/Stimulus.lean ====
section
/-! DEFINITION. The stimulus notation (30_encoding.md R96, R97), the block's assembler syntax: a program is expanded into
its encoding, the per-cycle inputs, and loaded beside a build into the reset state. -/

namespace Sys2Proof.Machine

/-- The `.timing` header: cycle lengths of the pseudo-instructions BIT0 and BIT1 (30_encoding.md R96). -/
structure Timing where
  lo : Nat
  h0 : Nat
  h1 : Nat
  deriving DecidableEq, Repr

/-- A command of the `cmd` track (30_encoding.md R96). -/
inductive Cmd where
  /-- `START @t`: `start_i = 1` in cycle t. -/
  | start (t : Nat)
  /-- `RESET @t n`: `rst = 1` in cycles t to t + n − 1. -/
  | reset (t n : Nat)
  deriving DecidableEq, Repr

/-- A segment or pseudo-instruction of the `line` track (30_encoding.md R96, R97). -/
inductive Segment where
  /-- `H n` or `L n`: the level for the next n cycles. -/
  | level (l : Level) (n : Nat)
  /-- `HOLD H` or `HOLD L`: the level for every remaining cycle. -/
  | hold (l : Level)
  | pre
  | ack (a b : Nat)
  | bit (b : Bool)
  | byte (v : Byte)
  | frame (b0 b1 b2 b3 b4 : Byte)
  | eof (n : Nat)
  deriving DecidableEq, Repr

/-- A plain run of the line: a level, and for how many cycles (`none`: for every remaining one). -/
abbrev LineRun := Level × Option Nat

/-- BIT0 and BIT1 (30_encoding.md R97). -/
def bitRuns (t : Timing) (b : Bool) : List LineRun := [(LOW, some t.lo), (HIGH, some (if b then t.h1 else t.h0))]

/-- BYTE v: eight bits, bit 7 first (30_encoding.md R97). -/
def byteRuns (t : Timing) (v : Byte) : List LineRun :=
  [7, 6, 5, 4, 3, 2, 1, 0].flatMap fun k => bitRuns t (v.getLsbD k)

/-- The expansion of a segment (30_encoding.md R97). -/
def Segment.runs (b : Build) (t : Timing) : Segment → List LineRun
  | .level l n => [(l, some n)]
  | .hold l => [(l, none)]
  | .pre => [(HIGH, some (1 + b.tIdle)), (LOW, some b.tStart), (HIGH, some b.tPull)]
  | .ack m n => [(LOW, some m), (HIGH, some n)]
  | .bit v => bitRuns t v
  | .byte v => byteRuns t v
  | .frame b0 b1 b2 b3 b4 => [b0, b1, b2, b3, b4].flatMap (byteRuns t)
  | .eof n => [(LOW, some n), (HIGH, none)]

/-- The line level of each of `n` cycles that the runs give one to: `none` in the cycles after the end of a track without
HOLD, of which 30_encoding.md R96 says nothing (93_implementation_defined.md U10). -/
def lineLevels : List LineRun → Nat → List (Option Level)
  | [], n => List.replicate n none
  | (l, none) :: _, n => List.replicate n (some l)
  | (l, some m) :: rs, n => List.replicate (min m n) (some l) ++ lineLevels rs (n - m)

/-- `start_i` in cycle `t` of a `cmd` track (30_encoding.md R96). -/
def cmdStart (cmds : List Cmd) (t : Nat) : Bool :=
  cmds.any fun
    | .start a => decide (a = t)
    | .reset _ _ => false

/-- `rst` in cycle `t` of a `cmd` track (30_encoding.md R96). -/
def cmdReset (cmds : List Cmd) (t : Nat) : Bool :=
  cmds.any fun
    | .start _ => false
    | .reset a n => decide (a ≤ t) && decide (t < a + n)

/-- The inputs of cycle `t` of a program whose line track gives the cycle the level `l`, if any. `rst` and `start_i` are the
`cmd` track's in every cycle (30_encoding.md R96). `dq_i` is a free value where the line track has ended (U10).
DESIGN CHOICE (assumption log 16): R96's triple says nothing of the host, so no call is made in the cycle, and 45_host.md
R200 does not say how far `now()` moves in it, so that is a free value. -/
def cycleInputs (cmds : List Cmd) (t : Nat) (l : Option Level) : Inputs :=
  { rst := cmdReset cmds t
    startI := cmdStart cmds t
    dqI := l.getD (Config.freeInputs t).dqI
    call := none
    dt := (Config.freeInputs t).dt }

/-- The inputs of the cycles from `t` on, given what the line track says of each (30_encoding.md R96; the fields of an input
that are not in R96's triple are a DESIGN CHOICE: `cycleInputs`, assumption log 16). -/
def encodeFrom (cmds : List Cmd) : Nat → List (Option Level) → List Inputs
  | _, [] => []
  | t, l :: ls => cycleInputs cmds t l :: encodeFrom cmds (t + 1) ls

/-- A stimulus program (30_encoding.md R96). -/
structure Program where
  cfg    : Build
  timing : Timing
  cmds   : List Cmd
  line   : List Segment
  deriving DecidableEq, Repr

/-- The line track as plain runs (30_encoding.md R96, R97). -/
def Program.runs (p : Program) : List LineRun := p.line.flatMap (Segment.runs p.cfg p.timing)

/-- The encoding of a program: the inputs of its first `n` cycles, every one of them (30_encoding.md R96). -/
def Program.encoding (p : Program) (n : Nat) : List Inputs := encodeFrom p.cmds 0 (lineLevels p.runs n)

/-- The reset state of build `b` with the inputs `script` from cycle 0 on: how a stimulus program is loaded from outside the
machine (95_test_vectors.md section 3, assumption log 7). -/
def State.boot (b : Build) (script : List Inputs) : State :=
  { State.reset with
    cfg := b
    host := HostSide.init b 0
    inp := script.headD (Config.freeInputs 0)
    stim := script.tail }

/-- A line of a trace (30_encoding.md R98): STATE, `idx`, `pcnt` and `dq` of a cycle. -/
structure TraceEntry where
  cycle : Nat
  state : String
  idx   : Nat
  pcnt  : Nat
  dq    : Level
  deriving DecidableEq, Repr

/-- The mnemonic of a state code (30_encoding.md R72, R98); the reserved codes carry the name of their operation. -/
def stateName (st : StCode) : String :=
  match st.toNat with
  | 0 => "IDLE"
  | 1 => "RST_HIGH"
  | 2 => "START_LOW"
  | 3 => "RELEASE"
  | 4 => "ACK_LOW"
  | 5 => "ACK_HIGH"
  | 6 => "BIT_LOW"
  | 7 => "BIT_HIGH"
  | 8 => "DECODE"
  | 9 => "VALIDATE"
  | _ => "UNUSED"

/-- The trace line of the cycle a state stands for (30_encoding.md R98). -/
def traceEntry (s : State) : TraceEntry :=
  { cycle := s.cycle, state := stateName s.st, idx := s.idx.toNat, pcnt := s.pcnt, dq := sample s }

end Sys2Proof.Machine
end

