-- ==== Sys2Proof/Safety.lean ====
section
/-! DEFINITION. The terms claims use: what stays the same around an operation, the inputs of a run, the invariant of the
registers, and the invariant that ties the Payload Buffer to the Raw Pulse Table. -/

namespace Sys2Proof.Machine

/-! ### Frames -/

/-- Everything outside the block is the same: the build, the host's side, the inputs, the script and the cycle number. -/
def SameSurroundings (s t : State) : Prop :=
  t.cfg = s.cfg ∧ t.host = s.host ∧ t.inp = s.inp ∧ t.stim = s.stim ∧ t.cycle = s.cycle

/-- Every register of the block is the same (10_state.md R31). -/
def SameBlock (s t : State) : Prop :=
  t.st = s.st ∧ t.wcnt = s.wcnt ∧ t.pcnt = s.pcnt ∧ t.idx = s.idx ∧ t.raw = s.raw ∧ t.buf = s.buf ∧
    t.valid = s.valid ∧ t.status = s.status ∧ t.done = s.done

/-- Every register of the block holds its reset value but the Raw Pulse Table, which has none (10_state.md R39). -/
def AtResetValues (s : State) : Prop :=
  s.st = St.IDLE ∧ s.wcnt = 0 ∧ s.pcnt = 0 ∧ s.idx = 0 ∧ s.buf = Vector.replicate 5 0 ∧ s.valid = false ∧
    s.status = Status.NONE ∧ s.done = false

/-! ### The inputs of a run -/

/-- What the outside world does in the `j`-th cycle from the cycle of `s`. -/
def inputAt (s : State) : Nat → Inputs
  | 0 => s.inp
  | j + 1 => (s.stim[j]?).getD (Config.freeInputs (s.cycle + (j + 1)))

/-- There is no reset in the `n` cycles from the cycle of `s` on. -/
def NoReset (s : State) (n : Nat) : Prop := ∀ j < n, (inputAt s j).rst = false

/-- The line is at level `L` in the `n` cycles from the cycle of `s` on. -/
def LineHolds (s : State) (L : Level) (n : Nat) : Prop := ∀ j < n, (inputAt s j).dqI = L

/-- The level that the `m`-th measurement of an attempt expects: LOW and HIGH in turn (42_frame_sync.md R140,
43_bit_pair.md R160). -/
def levelOf (m : Nat) : Level := if m % 2 = 0 then LOW else HIGH

/-- How many cycles the measurements before the `m`-th take when they give the counts `k` (41_pulse_timer.md R122). -/
def pulsesBefore (k : Nat → Nat) (m : Nat) : Nat := ∑ i ∈ Finset.range m, (k i + 1)

/-- From the `p`-th cycle on the line gives the 82 measurements of an attempt the counts `k`: each of them polls its level
`k m` times and then the other once (41_pulse_timer.md R122, R124). -/
def LineFollows (s : State) (p : Nat) (k : Nat → Nat) : Prop :=
  ∀ m < 82, ∀ j ≤ k m,
    (inputAt s (p + pulsesBefore k m + j)).dqI = if j < k m then levelOf m else !levelOf m

/-! ### The measurement states -/

/-- `st` is one of the four measurement states, the only ones that read `dq_i` (10_state.md R38). -/
def Measuring (s : State) : Prop :=
  s.st = St.ACK_LOW ∨ s.st = St.ACK_HIGH ∨ s.st = St.BIT_LOW ∨ s.st = St.BIT_HIGH

/-- The level a measurement state expects (30_encoding.md R81): LOW in ACK_LOW and BIT_LOW. -/
def expected (s : State) : Level :=
  if s.st = St.ACK_LOW ∨ s.st = St.BIT_LOW then LOW else HIGH

/-! ### The invariant of the registers -/

/-- How many cycles the state lasts that `st` names, where it is a wait state (70_reset_and_hazards.md R272). -/
def waitLength (s : State) : Nat :=
  if s.st = St.RST_HIGH then s.cfg.tIdle
  else if s.st = St.START_LOW then s.cfg.tStart
  else if s.st = St.RELEASE then s.cfg.tPull
  else 1

/-- How many Raw Pulse Table entries the attempt in progress has written (43_bit_pair.md R161: in increasing order). -/
def written (s : State) : Nat :=
  if s.st = St.BIT_LOW then 2 * s.idx.toNat
  else if s.st = St.BIT_HIGH then 2 * s.idx.toNat + 1
  else if s.st = St.DECODE ∨ s.st = St.VALIDATE then 80
  else 0

/-- What holds of every state that a run from reset reaches, whatever the inputs. -/
structure RegInv (s : State) : Prop where
  /-- The build keeps the constraints of 00_scope.md R6. -/
  build        : s.cfg.ok = true
  /-- `st` holds no reserved code (30_encoding.md R73). -/
  legalState   : s.st.toNat ≤ 9
  /-- `idx` is never above 39 (10_state.md R25). -/
  bitIndex     : s.idx.toNat ≤ 39
  /-- `wcnt` is below T in a wait state and 0 in every other (10_state.md R23, 40_control.md R102). -/
  waitCount    : s.wcnt < waitLength s
  /-- `pcnt` never exceeds BUDGET (10_state.md R24). -/
  pulseCount   : s.pcnt ≤ s.cfg.budget
  /-- `pcnt` is 0 outside the measurement states. -/
  pulseIdle    : ¬ Measuring s → s.pcnt = 0
  /-- The Raw Pulse Table is in its canonical form. -/
  rawForm      : s.raw.wf = true
  /-- Every entry is a count up to BUDGET or the sentinel (30_encoding.md R79). -/
  rawCounts    : ∀ k v, s.raw.get k = some v → v ≤ s.cfg.budget ∨ v = s.cfg.timeout
  /-- Every entry the attempt has written holds a value (10_state.md R26). -/
  rawWritten   : ∀ k < written s, ∃ v, s.raw.get k = some v
  /-- `valid = 1` exactly beside status OK (30_encoding.md R74). -/
  validStatus  : s.valid = true ↔ s.status = Status.OK
  /-- `status` holds no reserved code (30_encoding.md R75). -/
  legalStatus  : s.status.toNat ≤ 4
  /-- During an attempt `status` is NONE and `done` is 0 (30_encoding.md R74, 40_control.md R104). -/
  inAttempt    : s.st ≠ St.IDLE → s.status = Status.NONE ∧ s.done = false
  /-- `done` stands beside an outcome (20_memory.md R64). -/
  doneOutcome  : s.done = true → s.status ≠ Status.NONE
  /-- The host's two times fit the timebase (45_host.md R200). -/
  hostTimes    : s.host.now < 2 ^ s.cfg.wTime ∧ s.host.lastTime < 2 ^ s.cfg.wTime
  /-- The host's START stands on the pin in the cycle the host drives it (45_host.md R202). -/
  hostStart    : hostDrives s.host = true → s.inp.startI = true

/-! ### The payload -/

/-- The bit that the ratio comparison gives for pair `i` of a table: 1 iff both counts are there and the high-phase count
exceeds the low-phase count (43_bit_pair.md R171, R172). -/
def ratioBit (m : Memory) (i : Nat) : Bool :=
  match m.get (2 * i), m.get (2 * i + 1) with
  | some lo, some hi => decide (lo < hi)
  | _, _ => false

/-- Pair `i` holds the timeout sentinel (43_bit_pair.md R170). -/
def PairTimedOut (s : State) (i : Nat) : Prop :=
  s.raw.get (2 * i) = some s.cfg.timeout ∨ s.raw.get (2 * i + 1) = some s.cfg.timeout

/-- How many of the first `n` bits of the frame belong to byte `k`. -/
def bitsInByte (n k : Nat) : Nat := min 8 (n - 8 * k)

/-- Byte `k` of the buffer once the first `n` bits are decoded (43_bit_pair.md R174, R175): the byte's decoded bits, most
significant first, in its low bits. With all 40 bits decoded it is `Σ_{j=0..7} d(8k + j) × 2^(7 − j)`. -/
def decodedByte (m : Memory) (n k : Nat) : Nat :=
  ∑ j ∈ Finset.range (bitsInByte n k), (ratioBit m (8 * k + j)).toNat * 2 ^ (bitsInByte n k - 1 - j)

/-- The buffer holds the first `n` bits decoded from the Raw Pulse Table, and 0 elsewhere. -/
def PayloadIs (s : State) (n : Nat) : Prop :=
  ∀ (k : Nat) (h : k < 5), s.buf[k].toNat = decodedByte s.raw n k

/-- How many bits of the Raw Pulse Table the buffer holds: those below `idx` in DECODE and after a bit timeout
(43_bit_pair.md R175), all 40 in VALIDATE and after it, none otherwise (40_control.md R101, 42_frame_sync.md R147). -/
def decodedCount (s : State) : Nat :=
  if s.st = St.DECODE then s.idx.toNat
  else if s.st = St.VALIDATE then 40
  else if s.st = St.IDLE then
    if s.status = Status.OK ∨ s.status = Status.CHECKSUM then 40
    else if s.status = Status.TIMEOUT_BIT then s.idx.toNat
    else 0
  else 0

/-- What the buffer and the outcome say about the Raw Pulse Table in every state that a run from reset reaches. -/
structure PayloadInv (s : State) : Prop where
  /-- The buffer is the table decoded so far (43_bit_pair.md R174, R175). -/
  payload    : PayloadIs s (decodedCount s)
  /-- No decoded pair holds the sentinel: the failing pair is the lowest one (60_exceptions.md R234). -/
  noTimeout  : ∀ i < decodedCount s, ¬ PairTimedOut s i
  /-- A bit timeout is reported for a pair that holds the sentinel (43_bit_pair.md R170). -/
  bitTimeout : s.st = St.IDLE → s.status = Status.TIMEOUT_BIT → PairTimedOut s s.idx.toNat
  /-- OK means that the checksum matches (44_checksum.md R190). -/
  okSum      : s.st = St.IDLE → s.status = Status.OK →
    s.buf[4].toNat = (s.buf[0].toNat + s.buf[1].toNat + s.buf[2].toNat + s.buf[3].toNat) % 256
  /-- CHECKSUM means that it does not. -/
  badSum     : s.st = St.IDLE → s.status = Status.CHECKSUM →
    s.buf[4].toNat ≠ (s.buf[0].toNat + s.buf[1].toNat + s.buf[2].toNat + s.buf[3].toNat) % 256

/-! ### Stale Raw Pulse Table entries -/

/-- Two states that differ at most in Raw Pulse Table entries the attempt in progress has not written (10_state.md R26). -/
def SameButUnwrittenRaw (s t : State) : Prop :=
  SameSurroundings s t ∧ t.st = s.st ∧ t.wcnt = s.wcnt ∧ t.pcnt = s.pcnt ∧ t.idx = s.idx ∧ t.buf = s.buf ∧
    t.valid = s.valid ∧ t.status = s.status ∧ t.done = s.done ∧ ∀ k < written s, t.raw.get k = s.raw.get k

end Sys2Proof.Machine
end

