-- ==== Sys2Proof/Certificates/Slice0/Obligations.lean ====
section
/-! DEFINITION. The statements for the provers. Each docstring names the rule of spec/ it comes from; a clause that rests on
a choice of the model's says so and names the log entry. -/

open Sys2Proof Sys2Proof.Machine

/-! ### The step, the encoding, the build -/

/-- 40_control.md R100, 30_encoding.md R71: one operation a cycle, the one `{rst, start_i, st}` selects; around it the edge
keeps the block's registers, gives the host its move and brings the next inputs (log 3, 13). No operation refuses. -/
def Obligations.StepRunsSelectedOperation : Prop :=
  ∀ (s : State) (i : Instr), s.cfg.ok = true → decodeSel (selectorOf s.inp.rst s.inp.startI s.st) = i →
    (∀ t, exec i s = .next t → ∃ u, step s = .next u ∧ SameBlock t u ∧ u.cfg = t.cfg ∧ u.host = hostMove s ∧
      u.inp.rst = (inputAt s 1).rst ∧ u.inp.dqI = (inputAt s 1).dqI ∧ u.inp.call = (inputAt s 1).call ∧
      u.inp.dt = (inputAt s 1).dt ∧ u.inp.startI = ((inputAt s 1).startI || hostDrives u.host) ∧
      u.stim = s.stim.tail ∧ u.cycle = s.cycle + 1) ∧
    (∀ f, exec i s = .fault f → step s = .fault f) ∧ ∀ r, exec i s ≠ .refused r

/-- 30_encoding.md R71, R72 and spec/opcode_table.json: selectors written out from the table. -/
def Obligations.SelectorWordsDecodeRight : Prop :=
  decodeSel 0b010000 = .start ∧ decodeSel 0b000000 = .idleWait ∧ decodeSel 0b110110 = .reset true 6 ∧
    decodeSel 0b000001 = .rstHigh false ∧ decodeSel 0b010100 = .ackLow true ∧ decodeSel 0b000111 = .bitHigh false ∧
    decodeSel 0b011000 = .decode true ∧ decodeSel 0b001001 = .validate false ∧
    decodeSel 0b001011 = .unused101x false 11 ∧ decodeSel 0b011100 = .unused11xx true 12

/-- 30_encoding.md R71, R83: the 64 selectors and the well-formed operations are in one-to-one correspondence, and a byte
list that begins with an operation's byte decodes to it and leaves the rest (the byte form is log 8). -/
def Obligations.EncodingIsABijection : Prop :=
  (∀ i : Instr, i.wf = true → decodeSel (encode i) = i ∧
    ∀ rest : List Byte, decodeBytes (encodeBytes i ++ rest) = .ok (i, rest)) ∧
  ∀ w : Sel, (decodeSel w).wf = true ∧ encode (decodeSel w) = w

/-- 30_encoding.md R71: placing a selector word makes the very next step run its operation (log 7). -/
def Obligations.PlacedWordRunsNext : Prop :=
  ∀ (s : State) (w : Nat), w < 64 → s.cfg.ok = true → ∃ i, decodeTableWord 8 w = some i ∧
    selector (s.withFetchWord 8 w) = BitVec.ofNat 6 w ∧
    ∀ t, exec i (s.withFetchWord 8 w) = .next t → ∃ u, step (s.withFetchWord 8 w) = .next u ∧ SameBlock t u

/-- 00_scope.md R6: a build whose parameters break a constraint is refused, and only such a build is. -/
def Obligations.BadBuildIsRefused : Prop :=
  ∀ s : State, (step s = .refused .badBuild ↔
    ¬ (1000000 ≤ s.cfg.clkHz ∧ 2 ≤ s.cfg.wCnt ∧ 1 ≤ s.cfg.budget ∧ s.cfg.budget ≤ 2 ^ s.cfg.wCnt - 2 ∧
      1 ≤ s.cfg.tIdle ∧ 1 ≤ s.cfg.tStart ∧ 1 ≤ s.cfg.tPull ∧ s.cfg.tIdle ≤ 2 ^ s.cfg.wWait ∧
      s.cfg.tStart ≤ 2 ^ s.cfg.wWait ∧ s.cfg.tPull ≤ 2 ^ s.cfg.wWait))

/-- 00_scope.md R6, 30_encoding.md R85: the defaults are the source's durations in cycles, they keep every constraint for
every clock whose 1 ms fits the count, and W_WAIT is the least width that does. -/
def Obligations.DefaultBuildsAreSound : Prop :=
  ∀ hz minInterval : Nat, 1000000 ≤ hz → hz / 1000 ≤ 2 ^ 32 - 2 →
    let b := Build.defaults hz minInterval
    b.ok = true ∧ b.budget = 1000 * hz / 1000000 ∧ b.tIdle = 1000 * hz / 1000000 ∧ b.tStart = 1100 * hz / 1000000 ∧
      b.tPull = 55 * hz / 1000000 ∧ b.timeout = 4294967295 ∧
      ∀ w, max b.tIdle (max b.tStart b.tPull) ≤ 2 ^ w → b.wWait ≤ w

/-! ### The operations -/

/-- 70_reset_and_hazards.md R260: RESET, with its frame. -/
def Obligations.ResetOperation : Prop :=
  ∀ (s : State) (b : Bool) (c : StCode), decodeSel (selectorOf true b c) = .reset b c ∧
    ∃ t, exec (.reset b c) s = .next t ∧ AtResetValues t ∧ t.raw = s.raw ∧ SameSurroundings s t

/-- 70_reset_and_hazards.md R260, R261, 60_exceptions.md R235: from every state whatever, a cycle with `rst = 1` leaves the
reset values, `done` included, and keeps the Raw Pulse Table. -/
def Obligations.ResetWinsFromEveryState : Prop :=
  ∀ s : State, s.cfg.ok = true → s.inp.rst = true →
    ∃ t, step s = .next t ∧ AtResetValues t ∧ t.raw = s.raw ∧ t.cfg = s.cfg

/-- 10_state.md R39: the reset values, the Raw Pulse Table without any, and the outputs they give, for the reset state and
for the reset state of every build. (The inputs, the host's side and the build are log 2, 4.) -/
def Obligations.ResetStateIsAsStated : Prop :=
  ∀ s : State, s = State.reset ∨ (∃ b script, s = State.boot b script) → AtResetValues s ∧
    (∀ k, s.raw.get k = none) ∧ busyO s = false ∧ doneO s = false ∧ validO s = false ∧ statusO s = 0 ∧ dataO s = 0 ∧
    dqDriveLowO s = false ∧ critO s = false ∧ stateO s = 0

/-- 40_control.md R101: START, with its frame. -/
def Obligations.StartOperation : Prop :=
  ∀ s : State, decodeSel (selectorOf false true St.IDLE) = .start ∧
    ∃ t, exec .start s = .next t ∧ (∀ (k : Nat) (h : k < 5), t.buf[k] = 0) ∧ t.valid = false ∧
      t.status = Status.NONE ∧ t.wcnt = 0 ∧ t.st = St.RST_HIGH ∧ t.done = false ∧
      t.pcnt = s.pcnt ∧ t.idx = s.idx ∧ t.raw = s.raw ∧ SameSurroundings s t

/-- 40_control.md R106: IDLE_WAIT changes nothing but `done`. -/
def Obligations.IdleWaitOperation : Prop :=
  ∀ s : State, decodeSel (selectorOf false false St.IDLE) = .idleWait ∧ (s.st = St.IDLE → dqDriveLowO s = false) ∧
    ∃ t, exec .idleWait s = .next t ∧ t.done = false ∧ t.st = s.st ∧ t.wcnt = s.wcnt ∧ t.pcnt = s.pcnt ∧
      t.idx = s.idx ∧ t.raw = s.raw ∧ t.buf = s.buf ∧ t.valid = s.valid ∧ t.status = s.status ∧ SameSurroundings s t

/-- 40_control.md R105, 30_encoding.md R73: UNUSED, both rows and every reserved code, with its frame. -/
def Obligations.UnusedOperation : Prop :=
  ∀ (s : State) (b : Bool) (c : StCode) (i : Instr), i = .unused101x b c ∨ i = .unused11xx b c →
    (c = 10 ∨ c = 11 → decodeSel (selectorOf false b c) = .unused101x b c) ∧
    (12 ≤ c.toNat → decodeSel (selectorOf false b c) = .unused11xx b c) ∧
    ∃ t, exec i s = .next t ∧ t.st = St.IDLE ∧ t.done = false ∧ t.wcnt = s.wcnt ∧ t.pcnt = s.pcnt ∧ t.idx = s.idx ∧
      t.raw = s.raw ∧ t.buf = s.buf ∧ t.valid = s.valid ∧ t.status = s.status ∧ SameSurroundings s t

/-- 42_frame_sync.md R141: RST_HIGH is `Wait(T_IDLE, START_LOW)` with the line released, with its frame. (Where the counter
is at the end of its width, which no run reaches, the model's cut of log 10 applies and nothing is said of it.) -/
def Obligations.RstHighOperation : Prop :=
  ∀ (s : State) (b : Bool), s.cfg.ok = true → decodeSel (selectorOf false b St.RST_HIGH) = .rstHigh b ∧
    ∃ t, exec (.rstHigh b) s = .next t ∧
    (s.wcnt + 1 = s.cfg.tIdle → t.wcnt = 0 ∧ t.st = St.START_LOW) ∧
    (s.wcnt + 1 ≠ s.cfg.tIdle → t.st = s.st ∧ (s.wcnt + 1 < 2 ^ s.cfg.wWait → t.wcnt = s.wcnt + 1)) ∧
    (s.st = St.RST_HIGH → dqDriveLowO s = false) ∧
    t.done = false ∧ t.pcnt = s.pcnt ∧ t.idx = s.idx ∧ t.raw = s.raw ∧ t.buf = s.buf ∧ t.valid = s.valid ∧
    t.status = s.status ∧ SameSurroundings s t

/-- 42_frame_sync.md R142: START_LOW is `Wait(T_START, RELEASE)` with the line driven LOW, with its frame (log 10 as in
RST_HIGH). -/
def Obligations.StartLowOperation : Prop :=
  ∀ (s : State) (b : Bool), s.cfg.ok = true → decodeSel (selectorOf false b St.START_LOW) = .startLow b ∧
    ∃ t, exec (.startLow b) s = .next t ∧
    (s.wcnt + 1 = s.cfg.tStart → t.wcnt = 0 ∧ t.st = St.RELEASE) ∧
    (s.wcnt + 1 ≠ s.cfg.tStart → t.st = s.st ∧ (s.wcnt + 1 < 2 ^ s.cfg.wWait → t.wcnt = s.wcnt + 1)) ∧
    (s.st = St.START_LOW → dqDriveLowO s = true) ∧
    t.done = false ∧ t.pcnt = s.pcnt ∧ t.idx = s.idx ∧ t.raw = s.raw ∧ t.buf = s.buf ∧ t.valid = s.valid ∧
    t.status = s.status ∧ SameSurroundings s t

/-- 42_frame_sync.md R143: RELEASE is `Wait(T_PULL, ACK_LOW)` with `pcnt` cleared on exit and the line released, with its
frame (log 10 as in RST_HIGH). -/
def Obligations.ReleaseOperation : Prop :=
  ∀ (s : State) (b : Bool), s.cfg.ok = true → decodeSel (selectorOf false b St.RELEASE) = .release b ∧
    ∃ t, exec (.release b) s = .next t ∧
    (s.wcnt + 1 = s.cfg.tPull → t.wcnt = 0 ∧ t.pcnt = 0 ∧ t.st = St.ACK_LOW) ∧
    (s.wcnt + 1 ≠ s.cfg.tPull →
      t.st = s.st ∧ t.pcnt = s.pcnt ∧ (s.wcnt + 1 < 2 ^ s.cfg.wWait → t.wcnt = s.wcnt + 1)) ∧
    (s.st = St.RELEASE → dqDriveLowO s = false) ∧
    t.done = false ∧ t.idx = s.idx ∧ t.raw = s.raw ∧ t.buf = s.buf ∧ t.valid = s.valid ∧ t.status = s.status ∧
    SameSurroundings s t

/-- 42_frame_sync.md R144: ACK_LOW, its three cases and its frame. `pcnt ≤ BUDGET` is 10_state.md R24, an invariant
(StepKeepsInv). -/
def Obligations.AckLowOperation : Prop :=
  ∀ (s : State) (b : Bool), s.cfg.ok = true → s.pcnt ≤ s.cfg.budget → decodeSel (selectorOf false b St.ACK_LOW) = .ackLow b ∧
    ∃ t, exec (.ackLow b) s = .next t ∧
    (s.inp.dqI = HIGH →
      t.pcnt = 0 ∧ t.st = St.ACK_HIGH ∧ t.valid = s.valid ∧ t.status = s.status ∧ t.done = false) ∧
    (s.inp.dqI = LOW → s.pcnt = s.cfg.budget →
      t.pcnt = 0 ∧ t.st = St.IDLE ∧ t.valid = false ∧ t.status = Status.TIMEOUT_ACK ∧ t.done = true) ∧
    (s.inp.dqI = LOW → s.pcnt < s.cfg.budget →
      t.pcnt = s.pcnt + 1 ∧ t.st = s.st ∧ t.valid = s.valid ∧ t.status = s.status ∧ t.done = false) ∧
    t.wcnt = s.wcnt ∧ t.idx = s.idx ∧ t.raw = s.raw ∧ t.buf = s.buf ∧ SameSurroundings s t

/-- 42_frame_sync.md R145: ACK_HIGH, its three cases and its frame. `pcnt ≤ BUDGET` is 10_state.md R24, an invariant
(StepKeepsInv). -/
def Obligations.AckHighOperation : Prop :=
  ∀ (s : State) (b : Bool), s.cfg.ok = true → s.pcnt ≤ s.cfg.budget → decodeSel (selectorOf false b St.ACK_HIGH) = .ackHigh b ∧
    ∃ t, exec (.ackHigh b) s = .next t ∧
    (s.inp.dqI = LOW →
      t.pcnt = 0 ∧ t.idx = 0 ∧ t.st = St.BIT_LOW ∧ t.valid = s.valid ∧ t.status = s.status ∧ t.done = false) ∧
    (s.inp.dqI = HIGH → s.pcnt = s.cfg.budget →
      t.pcnt = 0 ∧ t.idx = s.idx ∧ t.st = St.IDLE ∧ t.valid = false ∧ t.status = Status.TIMEOUT_ACK ∧ t.done = true) ∧
    (s.inp.dqI = HIGH → s.pcnt < s.cfg.budget →
      t.pcnt = s.pcnt + 1 ∧ t.idx = s.idx ∧ t.st = s.st ∧ t.valid = s.valid ∧ t.status = s.status ∧ t.done = false) ∧
    t.wcnt = s.wcnt ∧ t.raw = s.raw ∧ t.buf = s.buf ∧ SameSurroundings s t

/-- 43_bit_pair.md R163, R165: BIT_LOW for every bit index of a frame: a count or TIMEOUT goes to entry 2 idx, a timeout
does not end the attempt, and no other entry changes. -/
def Obligations.BitLowOperation : Prop :=
  ∀ (s : State) (b : Bool), s.idx.toNat ≤ 39 → decodeSel (selectorOf false b St.BIT_LOW) = .bitLow b ∧
    ∃ t, exec (.bitLow b) s = .next t ∧
    (s.inp.dqI = HIGH → t.pcnt = 0 ∧ t.st = St.BIT_HIGH ∧ t.raw.get (2 * s.idx.toNat) = some s.pcnt) ∧
    (s.inp.dqI = LOW → s.cfg.budget ≤ s.pcnt →
      t.pcnt = 0 ∧ t.st = St.BIT_HIGH ∧ t.raw.get (2 * s.idx.toNat) = some s.cfg.timeout) ∧
    (s.inp.dqI = LOW → s.pcnt < s.cfg.budget →
      t.pcnt = s.pcnt + 1 ∧ t.st = s.st ∧ t.raw.get (2 * s.idx.toNat) = s.raw.get (2 * s.idx.toNat)) ∧
    (∀ k, k ≠ 2 * s.idx.toNat → t.raw.get k = s.raw.get k) ∧
    t.done = false ∧ t.wcnt = s.wcnt ∧ t.idx = s.idx ∧ t.buf = s.buf ∧ t.valid = s.valid ∧ t.status = s.status ∧
    SameSurroundings s t

/-- 43_bit_pair.md R164, R165: BIT_HIGH for every bit index of a frame, with the successors of bit 39 and of every other
bit. -/
def Obligations.BitHighOperation : Prop :=
  ∀ (s : State) (b : Bool), s.idx.toNat ≤ 39 → decodeSel (selectorOf false b St.BIT_HIGH) = .bitHigh b ∧
    ∃ t, exec (.bitHigh b) s = .next t ∧
    (s.inp.dqI = LOW → t.raw.get (2 * s.idx.toNat + 1) = some s.pcnt) ∧
    (s.inp.dqI = HIGH → s.cfg.budget ≤ s.pcnt → t.raw.get (2 * s.idx.toNat + 1) = some s.cfg.timeout) ∧
    (s.inp.dqI = LOW ∨ s.cfg.budget ≤ s.pcnt → t.pcnt = 0 ∧
      (s.idx.toNat = 39 → t.idx = 0 ∧ t.st = St.DECODE) ∧
      (s.idx.toNat < 39 → t.idx.toNat = s.idx.toNat + 1 ∧ t.st = St.BIT_LOW)) ∧
    (s.inp.dqI = HIGH → s.pcnt < s.cfg.budget → t.pcnt = s.pcnt + 1 ∧ t.idx = s.idx ∧ t.st = s.st ∧
      t.raw.get (2 * s.idx.toNat + 1) = s.raw.get (2 * s.idx.toNat + 1)) ∧
    (∀ k, k ≠ 2 * s.idx.toNat + 1 → t.raw.get k = s.raw.get k) ∧
    t.done = false ∧ t.wcnt = s.wcnt ∧ t.buf = s.buf ∧ t.valid = s.valid ∧ t.status = s.status ∧ SameSurroundings s t

/-- 43_bit_pair.md R170, R171, R172: DECODE of a pair that holds two values: the failure of a timed-out pair, the shift of
the decoded bit (a tie gives 0), the successor, and the frame. -/
def Obligations.DecodeOperation : Prop :=
  ∀ (s : State) (b : Bool) (lo hi : Nat), s.idx.toNat ≤ 39 → s.raw.get (2 * s.idx.toNat) = some lo →
    s.raw.get (2 * s.idx.toNat + 1) = some hi → decodeSel (selectorOf false b St.DECODE) = .decode b ∧
    ∃ t, exec (.decode b) s = .next t ∧
    (lo = s.cfg.timeout ∨ hi = s.cfg.timeout →
      t.buf = s.buf ∧ t.idx = s.idx ∧ t.st = St.IDLE ∧ t.valid = false ∧ t.status = Status.TIMEOUT_BIT ∧
        t.done = true) ∧
    (lo ≠ s.cfg.timeout → hi ≠ s.cfg.timeout →
      (∀ (k : Nat) (h : k < 5), k = s.idx.toNat / 8 →
        t.buf[k].toNat = (2 * s.buf[k].toNat + if lo < hi then 1 else 0) % 256) ∧
      (∀ (k : Nat) (h : k < 5), k ≠ s.idx.toNat / 8 → t.buf[k] = s.buf[k]) ∧
      (s.idx.toNat = 39 → t.idx = s.idx ∧ t.st = St.VALIDATE) ∧
      (s.idx.toNat < 39 → t.idx.toNat = s.idx.toNat + 1 ∧ t.st = s.st) ∧
      t.valid = s.valid ∧ t.status = s.status ∧ t.done = false) ∧
    t.wcnt = s.wcnt ∧ t.pcnt = s.pcnt ∧ t.raw = s.raw ∧ SameSurroundings s t

/-- 44_checksum.md R190, R191, R192: VALIDATE, with its frame. -/
def Obligations.ValidateOperation : Prop :=
  ∀ (s : State) (b : Bool), decodeSel (selectorOf false b St.VALIDATE) = .validate b ∧
    ∃ t, exec (.validate b) s = .next t ∧
    (s.buf[4].toNat = (s.buf[0].toNat + s.buf[1].toNat + s.buf[2].toNat + s.buf[3].toNat) % 256 →
      t.valid = true ∧ t.status = Status.OK) ∧
    (s.buf[4].toNat ≠ (s.buf[0].toNat + s.buf[1].toNat + s.buf[2].toNat + s.buf[3].toNat) % 256 →
      t.valid = false ∧ t.status = Status.CHECKSUM) ∧
    t.done = true ∧ t.st = St.IDLE ∧ t.wcnt = s.wcnt ∧ t.pcnt = s.pcnt ∧ t.idx = s.idx ∧ t.raw = s.raw ∧ t.buf = s.buf ∧
    SameSurroundings s t

/-- 10_state.md R26, 20_memory.md R50: an operation faults exactly on these. DECODE faults on an entry of its pair that holds
no value (R26). DECODE, and BIT_LOW and BIT_HIGH on a poll that ends the measurement, by the other level or by the budget,
fault on an index above 39: they would form an index outside the table (a fault by the model's choice, log 11). No run from
reset reaches any of them (StepNeverStops), and no operation refuses (StepRunsSelectedOperation). -/
def Obligations.OperationFaultsExactlyOnMissingEntries : Prop :=
  ∀ (s : State) (i : Instr) (f : Fault), exec i s = .fault f ↔
    (∃ b, i = .decode b ∧
      ((s.idx.toNat ≤ 39 ∧ s.raw.get (2 * s.idx.toNat) = none ∧ f = .rawNoValue (2 * s.idx.toNat)) ∨
        (s.idx.toNat ≤ 39 ∧ (∃ lo, s.raw.get (2 * s.idx.toNat) = some lo) ∧ s.raw.get (2 * s.idx.toNat + 1) = none ∧
          f = .rawNoValue (2 * s.idx.toNat + 1)) ∨
        (39 < s.idx.toNat ∧ f = .noSuchEntry .raw (2 * s.idx.toNat)))) ∨
    (∃ b, i = .bitLow b ∧ 39 < s.idx.toNat ∧ (s.inp.dqI = HIGH ∨ s.cfg.budget ≤ s.pcnt) ∧
      f = .noSuchEntry .raw (2 * s.idx.toNat)) ∨
    (∃ b, i = .bitHigh b ∧ 39 < s.idx.toNat ∧ (s.inp.dqI = LOW ∨ s.cfg.budget ≤ s.pcnt) ∧
      f = .noSuchEntry .raw (2 * s.idx.toNat + 1))

/-! ### Outputs -/

/-- 10_state.md R36, R37, 43_bit_pair.md R162: the outputs as functions of the registers, and the line the block leaves to
the pull-up everywhere but in START_LOW. -/
def Obligations.OutputsFollowRegisters : Prop :=
  ∀ s : State, (busyO s = true ↔ s.st ≠ St.IDLE) ∧ (doneO s = true ↔ s.done = true) ∧
    (validO s = true ↔ s.valid = true) ∧ statusO s = s.status ∧ stateO s = s.st ∧
    (dqDriveLowO s = true ↔ s.st = St.START_LOW) ∧ (critO s = true ↔ s.st = St.BIT_LOW ∨ s.st = St.BIT_HIGH) ∧
    ((dataO s).toNat = ((((s.buf[0].toNat * 256 + s.buf[1].toNat) * 256 + s.buf[2].toNat) * 256 + s.buf[3].toNat) * 256 +
      s.buf[4].toNat)) ∧
    (∀ pulls : Bool, lineLevel s pulls = LOW ↔ s.st = St.START_LOW ∨ pulls = true)

/-- 20_memory.md R55: `data_o[39 − i]` is frame bit i, which is bit 7 − (i mod 8) of byte i / 8. -/
def Obligations.DataOutIsInArrivalOrder : Prop :=
  ∀ (s : State) (i : Nat) (h : i < 40),
    (dataO s).getLsbD (39 - i) = (s.buf[i / 8]'(by omega)).getLsbD (7 - i % 8)

/-- 20_memory.md R59: an observer sees the payload where `valid_o = 1` and a free value where it is 0 (log 5). The statement
says which, not what the free value is. -/
def Obligations.ObservedDataIsFreeWhenInvalid : Prop :=
  ∀ s : State, (s.valid = true → observedData s = dataO s) ∧
    (s.valid = false → observedData s = Config.freeData s.cycle)

/-! ### Rules about the whole machine -/

/-- 40_control.md R103: in every state other than IDLE, `start_i` has no effect on anything. -/
def Obligations.IgnoredStartHasNoEffect : Prop :=
  ∀ (s : State) (x : Bool), s.st ≠ St.IDLE → step { s with inp := { s.inp with startI := x } } = step s

/-- 10_state.md R38: outside the four measurement states the value of `dq_i` has no effect on anything. -/
def Obligations.LineIgnoredOutsideMeasurements : Prop :=
  ∀ (s : State) (x : Level), ¬ Measuring s → step { s with inp := { s.inp with dqI := x } } = step s

/-- 20_memory.md R50, 70_reset_and_hazards.md R260: which operations write which memory. -/
def Obligations.MemoriesHaveTheirWriters : Prop :=
  ∀ s t : State, step s = .next t →
    (t.raw ≠ s.raw → s.inp.rst = false ∧ (s.st = St.BIT_LOW ∨ s.st = St.BIT_HIGH)) ∧
    (t.buf ≠ s.buf → s.inp.rst = true ∨ (s.st = St.IDLE ∧ s.inp.startI = true) ∨ s.st = St.DECODE) ∧
    t.cfg = s.cfg

/-- 10_state.md R28: `valid` is set to 1 only by a passing checksum. -/
def Obligations.ValidComesOnlyFromAPassingChecksum : Prop :=
  ∀ s t : State, step s = .next t → s.valid = false → t.valid = true →
    s.inp.rst = false ∧ s.st = St.VALIDATE ∧
      s.buf[4].toNat = (s.buf[0].toNat + s.buf[1].toNat + s.buf[2].toNat + s.buf[3].toNat) % 256 ∧
      t.buf = s.buf ∧ t.st = St.IDLE ∧ t.done = true ∧ t.status = Status.OK

/-- 40_control.md R104: `done` is 1 after a step exactly if the step ended an attempt, and then it is 0 one step later. -/
def Obligations.DonePulsesWhenAnAttemptEnds : Prop :=
  ∀ s t : State, RegInv s → step s = .next t →
    (t.done = true ↔ s.inp.rst = false ∧ s.st ≠ St.IDLE ∧ t.st = St.IDLE) ∧
    (t.done = true → ∀ u, step t = .next u → u.done = false)

/-- 20_memory.md R64: from the end of an attempt the results hold until an accepted START or a reset. -/
def Obligations.ResultsHoldWhileIdle : Prop :=
  ∀ s t : State, s.st = St.IDLE → s.inp.rst = false → s.inp.startI = false → step s = .next t →
    t.st = St.IDLE ∧ t.valid = s.valid ∧ t.status = s.status ∧ t.buf = s.buf ∧ t.raw = s.raw ∧ t.done = false ∧
      dataO t = dataO s

/-- 60_exceptions.md R233, R231: every step that reports a timeout records the code, clears `valid`, pulses `done`, goes to
IDLE and leaves `buf`, `raw`, `wcnt` and `idx`; TIMEOUT_ACK comes from the handshake and TIMEOUT_BIT from DECODE. -/
def Obligations.FailureRecordsOnlyItsCode : Prop :=
  ∀ s t : State, RegInv s → s.st ≠ St.IDLE → step s = .next t →
    t.status = Status.TIMEOUT_ACK ∨ t.status = Status.TIMEOUT_BIT →
    t.valid = false ∧ t.done = true ∧ t.st = St.IDLE ∧ t.buf = s.buf ∧ t.raw = s.raw ∧ t.wcnt = s.wcnt ∧ t.idx = s.idx ∧
      t.pcnt = 0 ∧
      (t.status = Status.TIMEOUT_ACK → (s.st = St.ACK_LOW ∨ s.st = St.ACK_HIGH) ∧ s.inp.dqI = expected s ∧
        s.pcnt = s.cfg.budget) ∧
      (t.status = Status.TIMEOUT_BIT → s.st = St.DECODE ∧ PairTimedOut s s.idx.toNat)

/-- 10_state.md R35: the order in which the sequencer visits its states. -/
def Obligations.SequencerKeepsItsOrder : Prop :=
  ∀ s t : State, RegInv s → step s = .next t → s.inp.rst = false →
    (s.st, t.st) ∈ ([(St.IDLE, St.IDLE), (St.IDLE, St.RST_HIGH), (St.RST_HIGH, St.RST_HIGH),
      (St.RST_HIGH, St.START_LOW), (St.START_LOW, St.START_LOW), (St.START_LOW, St.RELEASE),
      (St.RELEASE, St.RELEASE), (St.RELEASE, St.ACK_LOW), (St.ACK_LOW, St.ACK_LOW), (St.ACK_LOW, St.IDLE),
      (St.ACK_LOW, St.ACK_HIGH), (St.ACK_HIGH, St.ACK_HIGH), (St.ACK_HIGH, St.IDLE), (St.ACK_HIGH, St.BIT_LOW),
      (St.BIT_LOW, St.BIT_LOW), (St.BIT_LOW, St.BIT_HIGH), (St.BIT_HIGH, St.BIT_HIGH), (St.BIT_HIGH, St.BIT_LOW),
      (St.BIT_HIGH, St.DECODE), (St.DECODE, St.DECODE), (St.DECODE, St.IDLE), (St.DECODE, St.VALIDATE),
      (St.VALIDATE, St.IDLE)] : List (StCode × StCode))

/-- 43_bit_pair.md R173: scaling both counts of a pair by the same positive factor, or adding the same amount to both, does
not change what DECODE makes of it. -/
def Obligations.BitDependsOnTheRatioOnly : Prop :=
  ∀ (s : State) (b : Bool) (lo hi lo' hi' c d : Nat), s.idx.toNat ≤ 39 → 0 < c →
    (lo' = c * lo ∧ hi' = c * hi) ∨ (lo' = lo + d ∧ hi' = hi + d) →
    lo ≠ s.cfg.timeout → hi ≠ s.cfg.timeout → lo' ≠ s.cfg.timeout → hi' ≠ s.cfg.timeout →
    let raw := fun l h => (s.raw.set (2 * s.idx.toNat) l).set (2 * s.idx.toNat + 1) h
    ∃ t t', exec (.decode b) { s with raw := raw lo hi } = .next t ∧
      exec (.decode b) { s with raw := raw lo' hi' } = .next t' ∧ t'.buf = t.buf ∧ t'.idx = t.idx ∧ t'.st = t.st

/-- 44_checksum.md R193: a single corrupted data bit of a valid frame is detected; +1 in byte 0 and −1 in byte 1 cancel and
are not; five zero bytes are valid. -/
def Obligations.ChecksumDetectsWhatItCan : Prop :=
  ∀ (s : State) (b : Bool),
    s.buf[4].toNat = (s.buf[0].toNat + s.buf[1].toNat + s.buf[2].toNat + s.buf[3].toNat) % 256 →
    (∀ (k j : Nat) (h : k < 4), j < 8 → ∃ t,
      exec (.validate b) { s with buf := s.buf.set k (s.buf[k] ^^^ (1#8 <<< j)) } = .next t ∧
        t.valid = false ∧ t.status = Status.CHECKSUM) ∧
    (s.buf[0].toNat < 255 → 0 < s.buf[1].toNat → ∃ t,
      exec (.validate b) { s with buf := (s.buf.set 0 (s.buf[0] + 1)).set 1 (s.buf[1] - 1) } = .next t ∧
        t.valid = true ∧ t.status = Status.OK) ∧
    (∃ t, exec (.validate b) { s with buf := Vector.replicate 5 0 } = .next t ∧ t.valid = true ∧ t.status = Status.OK)

/-! ### Invariants -/

/-- The reset state, and the reset state of every sound build with every script, meet both invariants. -/
def Obligations.ResetMeetsTheInvariants : Prop :=
  (RegInv State.reset ∧ PayloadInv State.reset) ∧
  ∀ (b : Build) (script : List Inputs), b.ok = true → RegInv (State.boot b script) ∧ PayloadInv (State.boot b script)

/-- 10_state.md R22 to R30, R35, 30_encoding.md R73, R75, R79: every step keeps the invariant of the registers, whatever the
inputs. -/
def Obligations.StepKeepsInv : Prop :=
  ∀ s t : State, RegInv s → step s = .next t → RegInv t

/-- 60_exceptions.md R230, 40_control.md R100: the block never stalls, never faults and never refuses, whatever the inputs:
every step from a state that meets the invariant answers a next state. -/
def Obligations.StepNeverStops : Prop :=
  ∀ s : State, RegInv s → ∃ t, step s = .next t

/-- 43_bit_pair.md R174, R175, 60_exceptions.md R234, 44_checksum.md R190: every step keeps the buffer equal to the table
decoded so far, and the outcome true of the table and the buffer. -/
def Obligations.StepKeepsThePayload : Prop :=
  ∀ s t : State, RegInv s → PayloadInv s → step s = .next t → PayloadInv t

/-- 10_state.md R26: what the Raw Pulse Table held before the attempt is never observable: two states that differ at most in
entries the attempt has not written step to two such states, and their outputs agree. -/
def Obligations.StaleEntriesAreNeverObserved : Prop :=
  ∀ s s' t : State, RegInv s → RegInv s' → SameButUnwrittenRaw s s' → step s = .next t →
    ∃ t', step s' = .next t' ∧ SameButUnwrittenRaw t t' ∧ dataO t' = dataO t ∧ observedData t' = observedData t

/-! ### Runs -/

/-- 40_control.md R102: a wait state lasts exactly T cycles, the cycles with `wcnt` = 0, 1, …, T − 1, whatever the inputs
other than `rst` do. -/
def Obligations.WaitStatesLastTheirParameter : Prop :=
  ∀ s : State, RegInv s → s.wcnt = 0 → s.st = St.RST_HIGH ∨ s.st = St.START_LOW ∨ s.st = St.RELEASE →
    NoReset s (waitLength s) →
    (∀ j < waitLength s, ∃ t, Sys2Proof.core.run j s = .next t ∧ t.st = s.st ∧ t.wcnt = j) ∧
    ∃ t, Sys2Proof.core.run (waitLength s) s = .next t ∧ t.st = s.st + 1 ∧ t.wcnt = 0 ∧ t.pcnt = 0

/-- 42_frame_sync.md R148 (its wait states; the two measurements after them are MeasurementCountsItsPolls): from an accepted
START the states of every cycle, and the cycle of the first ACK_LOW poll. -/
def Obligations.FrameSyncHasItsDuration : Prop :=
  ∀ s : State, RegInv s → s.st = St.IDLE → s.inp.startI = true →
    NoReset s (1 + s.cfg.tIdle + s.cfg.tStart + s.cfg.tPull) →
    (∀ j, 1 ≤ j → j ≤ 1 + s.cfg.tIdle + s.cfg.tStart + s.cfg.tPull → ∃ t, Sys2Proof.core.run j s = .next t ∧
      t.st = (if j ≤ s.cfg.tIdle then St.RST_HIGH
        else if j ≤ s.cfg.tIdle + s.cfg.tStart then St.START_LOW
        else if j ≤ s.cfg.tIdle + s.cfg.tStart + s.cfg.tPull then St.RELEASE
        else St.ACK_LOW) ∧
      t.pcnt = 0 ∧ (∀ (k : Nat) (h : k < 5), t.buf[k] = 0) ∧ t.valid = false ∧ t.status = Status.NONE)

/-- 41_pulse_timer.md R122, R125, R126, R272: a measurement whose first k polls read its level and whose next reads the
other returns k, after k + 1 cycles, for every k up to BUDGET; what its operation then does with k. -/
def Obligations.MeasurementCountsItsPolls : Prop :=
  ∀ (s : State) (k : Nat), RegInv s → Measuring s → s.pcnt = 0 → k ≤ s.cfg.budget → NoReset s (k + 1) →
    LineHolds s (expected s) k → (inputAt s k).dqI ≠ expected s →
    (∀ j ≤ k, ∃ t, Sys2Proof.core.run j s = .next t ∧ t.st = s.st ∧ t.pcnt = j ∧ t.raw = s.raw) ∧
    ∃ t, Sys2Proof.core.run (k + 1) s = .next t ∧ t.pcnt = 0 ∧
      (s.st = St.ACK_LOW → t.st = St.ACK_HIGH ∧ t.raw = s.raw) ∧
      (s.st = St.ACK_HIGH → t.st = St.BIT_LOW ∧ t.idx = 0 ∧ t.raw = s.raw) ∧
      (s.st = St.BIT_LOW → t.st = St.BIT_HIGH ∧ t.idx = s.idx ∧ t.raw = s.raw.set (2 * s.idx.toNat) k) ∧
      (s.st = St.BIT_HIGH → t.raw = s.raw.set (2 * s.idx.toNat + 1) k ∧
        (s.idx.toNat = 39 → t.st = St.DECODE ∧ t.idx = 0) ∧
        (s.idx.toNat < 39 → t.st = St.BIT_LOW ∧ t.idx.toNat = s.idx.toNat + 1))

/-- 41_pulse_timer.md R122, R126, 42_frame_sync.md R147, 43_bit_pair.md R165: a measurement whose first BUDGET + 1 polls all
read its level times out after BUDGET + 1 cycles: the handshake fails, bit acquisition records TIMEOUT and goes on. -/
def Obligations.MeasurementTimesOut : Prop :=
  ∀ s : State, RegInv s → Measuring s → s.pcnt = 0 → NoReset s (s.cfg.budget + 1) →
    LineHolds s (expected s) (s.cfg.budget + 1) →
    (∀ j ≤ s.cfg.budget, ∃ t, Sys2Proof.core.run j s = .next t ∧ t.st = s.st ∧ t.pcnt = j) ∧
    ∃ t, Sys2Proof.core.run (s.cfg.budget + 1) s = .next t ∧ t.pcnt = 0 ∧
      (s.st = St.ACK_LOW ∨ s.st = St.ACK_HIGH → t.st = St.IDLE ∧ t.status = Status.TIMEOUT_ACK ∧ t.valid = false ∧
        t.done = true ∧ t.raw = s.raw ∧ t.buf = s.buf) ∧
      (s.st = St.BIT_LOW → t.st = St.BIT_HIGH ∧ t.idx = s.idx ∧ t.raw = s.raw.set (2 * s.idx.toNat) s.cfg.timeout) ∧
      (s.st = St.BIT_HIGH → t.raw = s.raw.set (2 * s.idx.toNat + 1) s.cfg.timeout ∧
        (s.idx.toNat = 39 → t.st = St.DECODE ∧ t.idx = 0) ∧
        (s.idx.toNat < 39 → t.st = St.BIT_LOW ∧ t.idx.toNat = s.idx.toNat + 1))

/-- 42_frame_sync.md R149: with no sensor the attempt ends `1 + T_IDLE + T_START + T_PULL + 1 + (BUDGET + 1)` cycles after
the accepting cycle with TIMEOUT_ACK and a buffer of zeros; a line stuck LOW ends it one cycle earlier. -/
def Obligations.NoSensorEndsTheAttempt : Prop :=
  ∀ s : State, RegInv s → s.st = St.IDLE → s.inp.startI = true →
    (let n := 1 + s.cfg.tIdle + s.cfg.tStart + s.cfg.tPull + 1 + (s.cfg.budget + 1)
     NoReset s n → LineHolds s HIGH n → ∃ t, Sys2Proof.core.run n s = .next t ∧ t.st = St.IDLE ∧ t.done = true ∧
      t.status = Status.TIMEOUT_ACK ∧ t.valid = false ∧ t.raw = s.raw ∧ ∀ (k : Nat) (h : k < 5), t.buf[k] = 0) ∧
    (let n := 1 + s.cfg.tIdle + s.cfg.tStart + s.cfg.tPull + (s.cfg.budget + 1)
     NoReset s n → LineHolds s LOW n → ∃ t, Sys2Proof.core.run n s = .next t ∧ t.st = St.IDLE ∧ t.done = true ∧
      t.status = Status.TIMEOUT_ACK ∧ t.valid = false ∧ t.raw = s.raw ∧ ∀ (k : Nat) (h : k < 5), t.buf[k] = 0)

/-- 10_state.md R35: whatever the inputs do, the block is back in IDLE within
`T_IDLE + T_START + T_PULL + 82 × (BUDGET + 1) + 41` cycles, and without a reset it gets there with `done = 1` and an
outcome. -/
def Obligations.EveryAttemptEndsInTime : Prop :=
  ∀ s : State, RegInv s → s.st ≠ St.IDLE →
    ∃ k t, 1 ≤ k ∧ k ≤ s.cfg.tIdle + s.cfg.tStart + s.cfg.tPull + 82 * (s.cfg.budget + 1) + 41 ∧
      Sys2Proof.core.run k s = .next t ∧ t.st = St.IDLE ∧
      (NoReset s k → t.done = true ∧ t.status ≠ Status.NONE)

/-- 43_bit_pair.md R174, R175, R176: from the first DECODE cycle, 40 cycles decode a complete table into exactly its bits
and VALIDATE judges them in the next; a table whose lowest timed-out pair is n fails after n + 1 cycles with the first n
bits decoded. -/
def Obligations.DecodePhaseYieldsTheFrame : Prop :=
  ∀ s : State, RegInv s → PayloadInv s → s.st = St.DECODE → s.idx = 0 →
    ((∀ i < 40, ¬ PairTimedOut s i) → NoReset s 41 →
      (∃ t, Sys2Proof.core.run 40 s = .next t ∧ t.st = St.VALIDATE ∧ t.raw = s.raw ∧
        ∀ (k : Nat) (h : k < 5), t.buf[k].toNat =
          ∑ j ∈ Finset.range 8, (ratioBit s.raw (8 * k + j)).toNat * 2 ^ (7 - j)) ∧
      (∃ t, Sys2Proof.core.run 41 s = .next t ∧ t.st = St.IDLE ∧ t.done = true ∧
        (t.valid = true ↔
          t.buf[4].toNat = (t.buf[0].toNat + t.buf[1].toNat + t.buf[2].toNat + t.buf[3].toNat) % 256) ∧
        ∀ (k : Nat) (h : k < 5), t.buf[k].toNat =
          ∑ j ∈ Finset.range 8, (ratioBit s.raw (8 * k + j)).toNat * 2 ^ (7 - j))) ∧
    (∀ n < 40, PairTimedOut s n → (∀ i < n, ¬ PairTimedOut s i) → NoReset s (n + 1) →
      ∃ t, Sys2Proof.core.run (n + 1) s = .next t ∧ t.st = St.IDLE ∧ t.done = true ∧ t.valid = false ∧
        t.status = Status.TIMEOUT_BIT ∧ t.raw = s.raw ∧ PayloadIs t n)

/-- 43_bit_pair.md R162, R166, 45_host.md R213: `crit_o` falls within `80 × (BUDGET + 1)` cycles, whatever the inputs
do. -/
def Obligations.CritAlwaysFalls : Prop :=
  ∀ s : State, RegInv s → critO s = true →
    ∃ k t, 1 ≤ k ∧ k ≤ 80 * (s.cfg.budget + 1) ∧ Sys2Proof.core.run k s = .next t ∧ critO t = false

/-- 70_reset_and_hazards.md R273, 43_bit_pair.md R174, 44_checksum.md R190: from an accepted START, on a line whose 82
measurements give the counts `k 0` (ACK_LOW), `k 1` (ACK_HIGH) and `k (j + 2)` (Raw Pulse Table entry j), none a timeout,
the attempt ends in exactly the cycle R273 gives, the table holds the counts, the payload is the bits of their ratios, and
it is valid exactly if the checksum matches. -/
def Obligations.AttemptYieldsTheFrameInTime : Prop :=
  ∀ (s : State) (k : Nat → Nat), RegInv s → s.st = St.IDLE → s.inp.startI = true → (∀ m < 82, k m ≤ s.cfg.budget) →
    let p := 1 + s.cfg.tIdle + s.cfg.tStart + s.cfg.tPull
    LineFollows s p k → NoReset s (p + pulsesBefore k 82 + 41) →
    ∃ t, Sys2Proof.core.run (p + pulsesBefore k 82 + 41) s = .next t ∧ t.st = St.IDLE ∧ t.done = true ∧
      (∀ j < 80, t.raw.get j = some (k (j + 2))) ∧
      (∀ (i : Nat) (h : i < 5), t.buf[i].toNat =
        ∑ j ∈ Finset.range 8, (decide (k (16 * i + 2 * j + 2) < k (16 * i + 2 * j + 3))).toNat * 2 ^ (7 - j)) ∧
      (t.buf[4].toNat = (t.buf[0].toNat + t.buf[1].toNat + t.buf[2].toNat + t.buf[3].toNat) % 256 →
        t.valid = true ∧ t.status = Status.OK) ∧
      (t.buf[4].toNat ≠ (t.buf[0].toNat + t.buf[1].toNat + t.buf[2].toNat + t.buf[3].toNat) % 256 →
        t.valid = false ∧ t.status = Status.CHECKSUM)

/-! ### The stimulus notation -/

/-- 30_encoding.md R96: a program's encoding names the inputs of every one of its cycles, and a run from the reset state
loaded with it has exactly them on the pins in that cycle: `rst` and `start_i` are 1 exactly in the cycles the `cmd` track
names, after the end of the line track too. The model's choices: the loading (log 7), no call of the host, and a free value
for how far its timebase moves (log 16). -/
def Obligations.CommandTrackDrivesItsCycles : Prop :=
  ∀ (q : Program) (n t : Nat), t < n → (q.encoding n).length = n ∧
    ∃ i, (q.encoding n)[t]? = some i ∧ (i.startI = true ↔ Cmd.start t ∈ q.cmds) ∧
      (i.rst = true ↔ ∃ a m, Cmd.reset a m ∈ q.cmds ∧ a ≤ t ∧ t < a + m) ∧
      i.call = none ∧ i.dt = (Config.freeInputs t).dt ∧
      (q.cfg.ok = true → ∃ u, Sys2Proof.core.run t (State.boot q.cfg (q.encoding n)) = .next u ∧ u.inp = i)

/-! ### The host's side -/

/-- 45_host.md R203: the unsigned subtraction gives every true elapsed time below 2^W_TIME, across the wrap of the
timebase. -/
def Obligations.ElapsedSurvivesTheWrap : Prop :=
  ∀ (b : Build) (last d : Nat), last < 2 ^ b.wTime → d < 2 ^ b.wTime →
    elapsed b ((last + d) % 2 ^ b.wTime) last = d

/-- 45_host.md R201: `d` microseconds after initialisation the elapsed time is MIN_INTERVAL + d at the width of the
timebase; so an unforced first read acquires, unless the timebase has wrapped past it. -/
def Obligations.FirstReadAcquires : Prop :=
  ∀ (s : State) (c : HostCall) (t0 d : Nat), t0 < 2 ^ s.cfg.wTime → d < 2 ^ s.cfg.wTime →
    s.cfg.minInterval < 2 ^ s.cfg.wTime → s.host.lastTime = (HostSide.init s.cfg t0).lastTime →
    s.host.now = (t0 + d) % 2 ^ s.cfg.wTime →
    (d + s.cfg.minInterval < 2 ^ s.cfg.wTime → rateLimited s c = false) ∧
    (2 ^ s.cfg.wTime ≤ d + s.cfg.minInterval → c ≠ .read true → rateLimited s c = true)

/-- 45_host.md R202, R204, R207, R208: a call without force, `HostRead(0)` or `HostValue()`, less than MIN_INTERVAL after the
last attempt's time returns the validity, does not move `last_time` and drives no START; the block in IDLE is not touched.
That the answer comes at the edge of the call's own cycle is the model's choice (log 13). -/
def Obligations.RateLimitedReadDoesNothing : Prop :=
  ∀ (s t : State) (c : HostCall), step s = .next t → s.host.phase = .ready → s.inp.call = some c →
    c = .read false ∨ c = .value → elapsed s.cfg s.host.now s.host.lastTime < s.cfg.minInterval →
    t.host.phase = .ready ∧ t.host.lastTime = s.host.lastTime ∧
      (c = .read false → t.host.result = some (.validity s.valid)) ∧
      (c = .value → ∃ raw16, t.host.result = some (.valueOf raw16 s.valid)) ∧
      t.inp.startI = (inputAt s 1).startI ∧
      (s.st = St.IDLE → s.inp.rst = false → s.inp.startI = false →
        t.st = St.IDLE ∧ t.valid = s.valid ∧ t.status = s.status ∧ t.buf = s.buf ∧ dqDriveLowO t = false)

/-- 45_host.md R202, R205, R212: a read that is forced or late enough takes the time, waits while the block is busy, drives
START for one cycle from a cycle with `busy_o = 0`, and then waits for the end (one move a cycle, log 13). -/
def Obligations.AcquiringReadStartsAnAttempt : Prop :=
  (∀ (s t : State) (c : HostCall), step s = .next t → s.host.phase = .ready → s.inp.call = some c →
    c = .read true ∨ s.cfg.minInterval ≤ elapsed s.cfg s.host.now s.host.lastTime →
    t.host.phase = .waitIdle c ∧ t.host.lastTime = s.host.now ∧ t.host.result = s.host.result) ∧
  (∀ (s t : State) (c : HostCall), step s = .next t → s.host.phase = .waitIdle c →
    (s.st ≠ St.IDLE → t.host.phase = .waitIdle c) ∧
    (s.st = St.IDLE → t.host.phase = .drive c ∧ t.inp.startI = true)) ∧
  (∀ (s t : State) (c : HostCall), step s = .next t → s.host.phase = .drive c →
    t.host.phase = .waitDone c false ∧ t.inp.startI = (inputAt s 1).startI ∧
      (s.st = St.IDLE → s.inp.rst = false → s.inp.startI = true → t.st = St.RST_HIGH))

/-- 45_host.md R206, R202: a host that waits on an attempt in progress gets its return within the bound of 10_state.md R35
and one cycle. Beside a block in IDLE it returns at once if it sees `done_o = 1` or has seen `busy_o = 1`, and else waits on
(its START was lost to a reset: log 14). That it returns at the edge of the cycle in which it sees the end, and what it
returns is read from the block in that cycle, is the model's choice (log 13). -/
def Obligations.HostWaitEndsWithTheAttempt : Prop :=
  (∀ (s : State) (c : HostCall) (seen : Bool), RegInv s → s.st ≠ St.IDLE → s.host.phase = .waitDone c seen →
    ∃ k u t, k ≤ s.cfg.tIdle + s.cfg.tStart + s.cfg.tPull + 82 * (s.cfg.budget + 1) + 41 ∧
      Sys2Proof.core.run k s = .next u ∧ step u = .next t ∧ u.st = St.IDLE ∧ t.host.phase = .ready ∧
      t.host.result = some (hostReturn u c) ∧ t.host.lastTime = s.host.lastTime) ∧
  ∀ (s t : State) (c : HostCall) (seen : Bool), step s = .next t → s.st = St.IDLE → s.host.phase = .waitDone c seen →
    (s.done = true ∨ seen = true → t.host.phase = .ready ∧ t.host.result = some (hostReturn s c) ∧
      t.host.lastTime = s.host.lastTime) ∧
    (s.done = false → seen = false → t.host.phase = .waitDone c false ∧ t.host.result = s.host.result ∧
      t.host.lastTime = s.host.lastTime)

/-- 45_host.md R208, R209, R210: `HostValue` returns the exact rational `raw16 / 10` of bytes 0 and 1, big-endian, with the
validity, in each of its three returns: rate limited, on `done_o = 1`, and on `busy_o = 0` after `busy_o = 1`. With validity
0 nothing is said of the value. That the return is at the edge of that cycle, with `data_o` read in it, is the model's
choice (log 13). -/
def Obligations.HostValueIsTheScaledPayload : Prop :=
  ∀ s t : State, step s = .next t →
    (s.host.phase = .ready ∧ s.inp.call = some .value ∧
        elapsed s.cfg s.host.now s.host.lastTime < s.cfg.minInterval) ∨
      (∃ seen, s.host.phase = .waitDone .value seen ∧ (s.done = true ∨ (seen = true ∧ s.st = St.IDLE))) →
    t.host.phase = .ready ∧ ∃ raw16, t.host.result = some (.valueOf raw16 s.valid) ∧
      (s.valid = true →
        extractedValue raw16 = ((256 * s.buf[0].toNat + s.buf[1].toNat : Nat) : Rat) / 10)

/-! ### The line track -/

/-- 30_encoding.md R96, R97: what each segment and pseudo-instruction of the `line` track stands for, as runs of a level (a
length `none` is HOLD), and that the runs are read in order: the cycles from the end of the runs before a run, for its length
or for every remaining one, have its level on `dq_i`. After the end of a track without HOLD the level is a free value
(93_implementation_defined.md U10; log 3). -/
def Obligations.LineTrackDrivesItsCycles : Prop :=
  (∀ (b : Build) (m : Timing),
    (∀ l n, Segment.runs b m (.level l n) = [(l, some n)]) ∧ (∀ l, Segment.runs b m (.hold l) = [(l, none)]) ∧
    Segment.runs b m .pre = [(HIGH, some (1 + b.tIdle)), (LOW, some b.tStart), (HIGH, some b.tPull)] ∧
    (∀ x y, Segment.runs b m (.ack x y) = [(LOW, some x), (HIGH, some y)]) ∧
    Segment.runs b m (.bit false) = [(LOW, some m.lo), (HIGH, some m.h0)] ∧
    Segment.runs b m (.bit true) = [(LOW, some m.lo), (HIGH, some m.h1)] ∧
    (∀ v : Byte, Segment.runs b m (.byte v) =
      [7, 6, 5, 4, 3, 2, 1, 0].flatMap fun k => Segment.runs b m (.bit (decide (v.toNat / 2 ^ k % 2 = 1)))) ∧
    (∀ b0 b1 b2 b3 b4, Segment.runs b m (.frame b0 b1 b2 b3 b4) =
      [b0, b1, b2, b3, b4].flatMap fun v => Segment.runs b m (.byte v)) ∧
    (∀ n, Segment.runs b m (.eof n) = [(LOW, some n), (HIGH, none)])) ∧
  (∀ (q : Program) (before rest : List LineRun) (l : Level) (len : Option Nat) (n t : Nat),
    q.line.flatMap (Segment.runs q.cfg q.timing) = before ++ (l, len) :: rest → (∀ r ∈ before, r.2 ≠ none) →
    (before.map fun r => r.2.getD 0).sum ≤ t → (∀ m, len = some m → t < (before.map fun r => r.2.getD 0).sum + m) →
    t < n → ∃ i, (q.encoding n)[t]? = some i ∧ i.dqI = l) ∧
  ∀ (q : Program) (n t : Nat), (∀ r ∈ q.line.flatMap (Segment.runs q.cfg q.timing), r.2 ≠ none) →
    ((q.line.flatMap (Segment.runs q.cfg q.timing)).map fun r => r.2.getD 0).sum ≤ t →
    t < n → ∃ i, (q.encoding n)[t]? = some i ∧ i.dqI = (Config.freeInputs t).dqI
end

