-- ==== Sys2Proof/Laws/State.lean ====
section
/-! SUPPORT. One lemma per field per named update of State, so that no later proof unfolds a record update. -/

namespace Sys2Proof.Machine

/-! ### clearDone -/

@[simp] theorem clearDone_cfg (s : State) : (clearDone s).cfg = s.cfg := rfl
@[simp] theorem clearDone_st (s : State) : (clearDone s).st = s.st := rfl
@[simp] theorem clearDone_wcnt (s : State) : (clearDone s).wcnt = s.wcnt := rfl
@[simp] theorem clearDone_pcnt (s : State) : (clearDone s).pcnt = s.pcnt := rfl
@[simp] theorem clearDone_idx (s : State) : (clearDone s).idx = s.idx := rfl
@[simp] theorem clearDone_raw (s : State) : (clearDone s).raw = s.raw := rfl
@[simp] theorem clearDone_buf (s : State) : (clearDone s).buf = s.buf := rfl
@[simp] theorem clearDone_valid (s : State) : (clearDone s).valid = s.valid := rfl
@[simp] theorem clearDone_status (s : State) : (clearDone s).status = s.status := rfl
@[simp] theorem clearDone_done (s : State) : (clearDone s).done = false := rfl
@[simp] theorem clearDone_host (s : State) : (clearDone s).host = s.host := rfl
@[simp] theorem clearDone_inp (s : State) : (clearDone s).inp = s.inp := rfl
@[simp] theorem clearDone_stim (s : State) : (clearDone s).stim = s.stim := rfl
@[simp] theorem clearDone_cycle (s : State) : (clearDone s).cycle = s.cycle := rfl

/-! ### endAttempt -/

@[simp] theorem endAttempt_cfg (v : Bool) (c : StatusCode) (s : State) : (endAttempt v c s).cfg = s.cfg := rfl
@[simp] theorem endAttempt_st (v : Bool) (c : StatusCode) (s : State) : (endAttempt v c s).st = St.IDLE := rfl
@[simp] theorem endAttempt_wcnt (v : Bool) (c : StatusCode) (s : State) : (endAttempt v c s).wcnt = s.wcnt := rfl
@[simp] theorem endAttempt_pcnt (v : Bool) (c : StatusCode) (s : State) : (endAttempt v c s).pcnt = s.pcnt := rfl
@[simp] theorem endAttempt_idx (v : Bool) (c : StatusCode) (s : State) : (endAttempt v c s).idx = s.idx := rfl
@[simp] theorem endAttempt_raw (v : Bool) (c : StatusCode) (s : State) : (endAttempt v c s).raw = s.raw := rfl
@[simp] theorem endAttempt_buf (v : Bool) (c : StatusCode) (s : State) : (endAttempt v c s).buf = s.buf := rfl
@[simp] theorem endAttempt_valid (v : Bool) (c : StatusCode) (s : State) : (endAttempt v c s).valid = v := rfl
@[simp] theorem endAttempt_status (v : Bool) (c : StatusCode) (s : State) : (endAttempt v c s).status = c := rfl
@[simp] theorem endAttempt_done (v : Bool) (c : StatusCode) (s : State) : (endAttempt v c s).done = true := rfl
@[simp] theorem endAttempt_host (v : Bool) (c : StatusCode) (s : State) : (endAttempt v c s).host = s.host := rfl
@[simp] theorem endAttempt_inp (v : Bool) (c : StatusCode) (s : State) : (endAttempt v c s).inp = s.inp := rfl
@[simp] theorem endAttempt_stim (v : Bool) (c : StatusCode) (s : State) : (endAttempt v c s).stim = s.stim := rfl
@[simp] theorem endAttempt_cycle (v : Bool) (c : StatusCode) (s : State) : (endAttempt v c s).cycle = s.cycle := rfl

/-! ### attemptFail -/

@[simp] theorem attemptFail_cfg (c : StatusCode) (s : State) : (attemptFail c s).cfg = s.cfg := rfl
@[simp] theorem attemptFail_st (c : StatusCode) (s : State) : (attemptFail c s).st = St.IDLE := rfl
@[simp] theorem attemptFail_wcnt (c : StatusCode) (s : State) : (attemptFail c s).wcnt = s.wcnt := rfl
@[simp] theorem attemptFail_pcnt (c : StatusCode) (s : State) : (attemptFail c s).pcnt = s.pcnt := rfl
@[simp] theorem attemptFail_idx (c : StatusCode) (s : State) : (attemptFail c s).idx = s.idx := rfl
@[simp] theorem attemptFail_raw (c : StatusCode) (s : State) : (attemptFail c s).raw = s.raw := rfl
@[simp] theorem attemptFail_buf (c : StatusCode) (s : State) : (attemptFail c s).buf = s.buf := rfl
@[simp] theorem attemptFail_valid (c : StatusCode) (s : State) : (attemptFail c s).valid = false := rfl
@[simp] theorem attemptFail_status (c : StatusCode) (s : State) : (attemptFail c s).status = c := rfl
@[simp] theorem attemptFail_done (c : StatusCode) (s : State) : (attemptFail c s).done = true := rfl
@[simp] theorem attemptFail_host (c : StatusCode) (s : State) : (attemptFail c s).host = s.host := rfl
@[simp] theorem attemptFail_inp (c : StatusCode) (s : State) : (attemptFail c s).inp = s.inp := rfl
@[simp] theorem attemptFail_stim (c : StatusCode) (s : State) : (attemptFail c s).stim = s.stim := rfl
@[simp] theorem attemptFail_cycle (c : StatusCode) (s : State) : (attemptFail c s).cycle = s.cycle := rfl

/-! ### clearBuf -/

@[simp] theorem clearBuf_cfg (s : State) : (clearBuf s).cfg = s.cfg := rfl
@[simp] theorem clearBuf_st (s : State) : (clearBuf s).st = s.st := rfl
@[simp] theorem clearBuf_wcnt (s : State) : (clearBuf s).wcnt = s.wcnt := rfl
@[simp] theorem clearBuf_pcnt (s : State) : (clearBuf s).pcnt = s.pcnt := rfl
@[simp] theorem clearBuf_idx (s : State) : (clearBuf s).idx = s.idx := rfl
@[simp] theorem clearBuf_raw (s : State) : (clearBuf s).raw = s.raw := rfl
@[simp] theorem clearBuf_buf (s : State) : (clearBuf s).buf = Vector.replicate 5 0 := rfl
@[simp] theorem clearBuf_valid (s : State) : (clearBuf s).valid = s.valid := rfl
@[simp] theorem clearBuf_status (s : State) : (clearBuf s).status = s.status := rfl
@[simp] theorem clearBuf_done (s : State) : (clearBuf s).done = s.done := rfl
@[simp] theorem clearBuf_host (s : State) : (clearBuf s).host = s.host := rfl
@[simp] theorem clearBuf_inp (s : State) : (clearBuf s).inp = s.inp := rfl
@[simp] theorem clearBuf_stim (s : State) : (clearBuf s).stim = s.stim := rfl
@[simp] theorem clearBuf_cycle (s : State) : (clearBuf s).cycle = s.cycle := rfl

/-! ### goto -/

@[simp] theorem goto_cfg (c : StCode) (s : State) : (goto c s).cfg = s.cfg := rfl
@[simp] theorem goto_st (c : StCode) (s : State) : (goto c s).st = c := rfl
@[simp] theorem goto_wcnt (c : StCode) (s : State) : (goto c s).wcnt = s.wcnt := rfl
@[simp] theorem goto_pcnt (c : StCode) (s : State) : (goto c s).pcnt = s.pcnt := rfl
@[simp] theorem goto_idx (c : StCode) (s : State) : (goto c s).idx = s.idx := rfl
@[simp] theorem goto_raw (c : StCode) (s : State) : (goto c s).raw = s.raw := rfl
@[simp] theorem goto_buf (c : StCode) (s : State) : (goto c s).buf = s.buf := rfl
@[simp] theorem goto_valid (c : StCode) (s : State) : (goto c s).valid = s.valid := rfl
@[simp] theorem goto_status (c : StCode) (s : State) : (goto c s).status = s.status := rfl
@[simp] theorem goto_done (c : StCode) (s : State) : (goto c s).done = s.done := rfl
@[simp] theorem goto_host (c : StCode) (s : State) : (goto c s).host = s.host := rfl
@[simp] theorem goto_inp (c : StCode) (s : State) : (goto c s).inp = s.inp := rfl
@[simp] theorem goto_stim (c : StCode) (s : State) : (goto c s).stim = s.stim := rfl
@[simp] theorem goto_cycle (c : StCode) (s : State) : (goto c s).cycle = s.cycle := rfl

/-! ### counted -/

@[simp] theorem counted_cfg (L : Level) (s : State) : (counted L s).cfg = s.cfg := rfl
@[simp] theorem counted_st (L : Level) (s : State) : (counted L s).st = s.st := rfl
@[simp] theorem counted_wcnt (L : Level) (s : State) : (counted L s).wcnt = s.wcnt := rfl
@[simp] theorem counted_pcnt (L : Level) (s : State) : (counted L s).pcnt = pollCount L s := rfl
@[simp] theorem counted_idx (L : Level) (s : State) : (counted L s).idx = s.idx := rfl
@[simp] theorem counted_raw (L : Level) (s : State) : (counted L s).raw = s.raw := rfl
@[simp] theorem counted_buf (L : Level) (s : State) : (counted L s).buf = s.buf := rfl
@[simp] theorem counted_valid (L : Level) (s : State) : (counted L s).valid = s.valid := rfl
@[simp] theorem counted_status (L : Level) (s : State) : (counted L s).status = s.status := rfl
@[simp] theorem counted_done (L : Level) (s : State) : (counted L s).done = s.done := rfl
@[simp] theorem counted_host (L : Level) (s : State) : (counted L s).host = s.host := rfl
@[simp] theorem counted_inp (L : Level) (s : State) : (counted L s).inp = s.inp := rfl
@[simp] theorem counted_stim (L : Level) (s : State) : (counted L s).stim = s.stim := rfl
@[simp] theorem counted_cycle (L : Level) (s : State) : (counted L s).cycle = s.cycle := rfl

/-! ### edge -/

@[simp] theorem edge_cfg (s t : State) : (edge s t).cfg = t.cfg := rfl
@[simp] theorem edge_st (s t : State) : (edge s t).st = t.st := rfl
@[simp] theorem edge_wcnt (s t : State) : (edge s t).wcnt = t.wcnt := rfl
@[simp] theorem edge_pcnt (s t : State) : (edge s t).pcnt = t.pcnt := rfl
@[simp] theorem edge_idx (s t : State) : (edge s t).idx = t.idx := rfl
@[simp] theorem edge_raw (s t : State) : (edge s t).raw = t.raw := rfl
@[simp] theorem edge_buf (s t : State) : (edge s t).buf = t.buf := rfl
@[simp] theorem edge_valid (s t : State) : (edge s t).valid = t.valid := rfl
@[simp] theorem edge_status (s t : State) : (edge s t).status = t.status := rfl
@[simp] theorem edge_done (s t : State) : (edge s t).done = t.done := rfl
@[simp] theorem edge_host (s t : State) : (edge s t).host = hostMove s := rfl
@[simp] theorem edge_stim (s t : State) : (edge s t).stim = s.stim.tail := rfl
@[simp] theorem edge_cycle (s t : State) : (edge s t).cycle = s.cycle + 1 := rfl
@[simp] theorem edge_inp_rst (s t : State) : (edge s t).inp.rst = (arriving s).rst := rfl
@[simp] theorem edge_inp_dqI (s t : State) : (edge s t).inp.dqI = (arriving s).dqI := rfl
@[simp] theorem edge_inp_call (s t : State) : (edge s t).inp.call = (arriving s).call := rfl
@[simp] theorem edge_inp_dt (s t : State) : (edge s t).inp.dt = (arriving s).dt := rfl
@[simp] theorem edge_inp_startI (s t : State) : (edge s t).inp.startI = ((arriving s).startI || hostDrives (hostMove s)) := rfl

/-! ### placeWord -/

@[simp] theorem placeWord_cfg (w : Nat) (s : State) : (placeWord w s).cfg = s.cfg := rfl
@[simp] theorem placeWord_wcnt (w : Nat) (s : State) : (placeWord w s).wcnt = s.wcnt := rfl
@[simp] theorem placeWord_pcnt (w : Nat) (s : State) : (placeWord w s).pcnt = s.pcnt := rfl
@[simp] theorem placeWord_idx (w : Nat) (s : State) : (placeWord w s).idx = s.idx := rfl
@[simp] theorem placeWord_raw (w : Nat) (s : State) : (placeWord w s).raw = s.raw := rfl
@[simp] theorem placeWord_buf (w : Nat) (s : State) : (placeWord w s).buf = s.buf := rfl
@[simp] theorem placeWord_valid (w : Nat) (s : State) : (placeWord w s).valid = s.valid := rfl
@[simp] theorem placeWord_status (w : Nat) (s : State) : (placeWord w s).status = s.status := rfl
@[simp] theorem placeWord_done (w : Nat) (s : State) : (placeWord w s).done = s.done := rfl
@[simp] theorem placeWord_host (w : Nat) (s : State) : (placeWord w s).host = s.host := rfl
@[simp] theorem placeWord_stim (w : Nat) (s : State) : (placeWord w s).stim = s.stim := rfl
@[simp] theorem placeWord_cycle (w : Nat) (s : State) : (placeWord w s).cycle = s.cycle := rfl

end Sys2Proof.Machine
end

