-- ==== Sys2Proof/Laws/Memory.lean ====
section
/-! SUPPORT. The laws of the two memories: read after write, other entries left alone, the canonical form kept, and what
each access can answer. -/

namespace Sys2Proof.Machine

/-! ### The Raw Pulse Table as a list -/

theorem Memory.get_set_same (m : Memory) (k v : Nat) : (m.set k v).get k = some v := by
  induction m with
  | nil => simp [Memory.set, Memory.get]
  | cons p m ih =>
    obtain ⟨j, w⟩ := p
    by_cases h1 : k < j
    · simp [Memory.set, Memory.get, h1]
    · by_cases h2 : k = j
      · simp [Memory.set, Memory.get, h2]
      · simp [Memory.set, Memory.get, h1, h2, Ne.symm h2, ih]

theorem Memory.get_set_other (m : Memory) {k j : Nat} (v : Nat) (h : j ≠ k) : (m.set k v).get j = m.get j := by
  induction m with
  | nil => simp [Memory.set, Memory.get, Ne.symm h]
  | cons p m ih =>
    obtain ⟨i, w⟩ := p
    by_cases h1 : k < i
    · simp [Memory.set, Memory.get, h1, Ne.symm h]
    · by_cases h2 : k = i
      · subst h2; simp [Memory.set, Memory.get, Ne.symm h]
      · by_cases h3 : i = j
        · subst h3; simp [Memory.set, Memory.get, h1, h2]
        · simp [Memory.set, Memory.get, h1, h2, h3, ih]

/-- A write, seen through a read of any index. -/
theorem Memory.get_set (m : Memory) (k v j : Nat) : (m.set k v).get j = if j = k then some v else m.get j := by
  by_cases h : j = k
  · simp [h, Memory.get_set_same]
  · simp [h, Memory.get_set_other]

theorem Memory.wfFrom_set {m : Memory} {lo k v : Nat} (hm : Memory.wfFrom lo m = true) (hlo : lo ≤ k)
    (hk : k < rawEntries) : Memory.wfFrom lo (m.set k v) = true := by
  induction m generalizing lo with
  | nil => simp [Memory.set, Memory.wfFrom, hlo, hk]
  | cons p m ih =>
    obtain ⟨j, w⟩ := p
    simp only [Memory.wfFrom, Bool.and_eq_true, decide_eq_true_eq] at hm
    obtain ⟨⟨hj, hj80⟩, hrest⟩ := hm
    by_cases h1 : k < j
    · simp [Memory.set, Memory.wfFrom, h1, hlo, hk, hj80, hrest, Nat.succ_le_of_lt h1]
    · by_cases h2 : k = j
      · subst h2; simp [Memory.set, Memory.wfFrom, hlo, hk, hrest]
      · have h3 : j + 1 ≤ k := by omega
        simp [Memory.set, Memory.wfFrom, h1, h2, hj, hj80, ih hrest h3]

/-- Every write keeps the canonical form. -/
theorem Memory.wf_set {m : Memory} {k v : Nat} (hm : m.wf = true) (hk : k < rawEntries) : (m.set k v).wf = true :=
  Memory.wfFrom_set hm (Nat.zero_le k) hk

theorem Memory.wf_nil : Memory.wf [] = true := rfl

theorem Memory.wfFrom_get {m : Memory} {lo k v : Nat} (hm : Memory.wfFrom lo m = true) (h : m.get k = some v) :
    lo ≤ k ∧ k < rawEntries := by
  induction m generalizing lo with
  | nil => simp [Memory.get] at h
  | cons p m ih =>
    obtain ⟨j, w⟩ := p
    simp only [Memory.wfFrom, Bool.and_eq_true, decide_eq_true_eq] at hm
    obtain ⟨⟨hj, hj80⟩, hrest⟩ := hm
    by_cases hjk : j = k
    · subst hjk; exact ⟨hj, hj80⟩
    · have := ih hrest (by simpa [Memory.get, hjk] using h)
      omega

/-- A table in canonical form lists no entry outside 0 to 79. -/
theorem Memory.get_lt_of_wf {m : Memory} {k v : Nat} (hm : m.wf = true) (h : m.get k = some v) : k < rawEntries :=
  (Memory.wfFrom_get hm h).2

theorem Memory.eq_nil_of_get_none {m : Memory} (h : ∀ k, m.get k = none) : m = [] := by
  cases m with
  | nil => rfl
  | cons p m => have := h p.1; simp [Memory.get] at this

theorem Memory.get_none_of_lt {m : Memory} {lo k : Nat} (hm : Memory.wfFrom lo m = true) (hk : k < lo) :
    m.get k = none := by
  cases h : m.get k with
  | none => rfl
  | some v => have := (Memory.wfFrom_get hm h).1; omega

theorem Memory.ext_of_wfFrom {m m' : Memory} {lo : Nat} (hm : Memory.wfFrom lo m = true)
    (hm' : Memory.wfFrom lo m' = true) (h : ∀ k, m.get k = m'.get k) : m = m' := by
  induction m generalizing lo m' with
  | nil => exact (Memory.eq_nil_of_get_none fun k => by simpa [Memory.get] using (h k).symm).symm
  | cons p m ih =>
    obtain ⟨j, w⟩ := p
    cases m' with
    | nil => have := h j; simp [Memory.get] at this
    | cons p' m' =>
      obtain ⟨j', w'⟩ := p'
      simp only [Memory.wfFrom, Bool.and_eq_true, decide_eq_true_eq] at hm hm'
      have hj : j = j' := by
        rcases Nat.lt_trichotomy j j' with hlt | heq | hlt
        · have h1 := h j
          have : Memory.get m' j = none := Memory.get_none_of_lt hm'.2 (by omega)
          simp [Memory.get, Nat.ne_of_gt hlt, this] at h1
        · exact heq
        · have h1 := h j'
          have : Memory.get m j' = none := Memory.get_none_of_lt hm.2 (by omega)
          simp [Memory.get, Nat.ne_of_gt hlt, this] at h1
      subst hj
      have hw : w = w' := by simpa [Memory.get] using h j
      subst hw
      have : m = m' := ih hm.2 hm'.2 fun k => by
        by_cases hk : j = k
        · subst hk
          rw [Memory.get_none_of_lt hm.2 (by omega), Memory.get_none_of_lt hm'.2 (by omega)]
        · simpa [Memory.get, hk] using h k
      rw [this]

/-- Equal tables are equal data: two tables in canonical form that read alike are the same list. -/
theorem Memory.ext_of_wf {m m' : Memory} (hm : m.wf = true) (hm' : m'.wf = true) (h : ∀ k, m.get k = m'.get k) :
    m = m' :=
  Memory.ext_of_wfFrom hm hm' h

/-! ### What the accesses answer -/

theorem rawRead_eq_ok {k v : Nat} {s : State} : rawRead k s = .ok v ↔ k < rawEntries ∧ s.raw.get k = some v := by
  unfold rawRead
  by_cases hk : k < rawEntries
  · cases h : s.raw.get k <;> simp [hk]
  · simp [hk]

theorem rawRead_eq_error {k : Nat} {s : State} {f : Fault} :
    rawRead k s = .error f ↔
      (k < rawEntries ∧ s.raw.get k = none ∧ f = .rawNoValue k) ∨ (¬ k < rawEntries ∧ f = .noSuchEntry .raw k) := by
  unfold rawRead
  by_cases hk : k < rawEntries
  · cases h : s.raw.get k <;> simp [hk, eq_comm]
  · simp [hk, eq_comm]

theorem rawWrite_eq_ok {k v : Nat} {s t : State} :
    rawWrite k v s = .ok t ↔ k < rawEntries ∧ t = { s with raw := s.raw.set k v } := by
  unfold rawWrite
  by_cases hk : k < rawEntries <;> simp [hk, eq_comm]

theorem rawWrite_of_not_lt {k : Nat} (v : Nat) (s : State) (hk : ¬ k < rawEntries) :
    rawWrite k v s = .error (.noSuchEntry .raw k) := by simp [rawWrite, hk]

theorem rawWrite_of_lt {k : Nat} (v : Nat) (s : State) (hk : k < rawEntries) :
    rawWrite k v s = .ok { s with raw := s.raw.set k v } := rawWrite_eq_ok.2 ⟨hk, rfl⟩

theorem bufRead_of_lt {k : Nat} (s : State) (hk : k < 5) : bufRead k s = .ok s.buf[k] := by simp [bufRead, hk]

theorem bufWrite_of_lt {k : Nat} (v : Byte) (s : State) (hk : k < 5) :
    bufWrite k v s = .ok { s with buf := s.buf.set k v } := by simp [bufWrite, hk]

/-- The low and the high index of a bit up to 39 lie in the table (20_memory.md R50). -/
theorem indices_lt {i : BitIndex} (h : i.toNat ≤ 39) :
    lowIndex i < rawEntries ∧ highIndex i < rawEntries ∧ byteIndex i < 5 := by
  simp only [lowIndex, highIndex, byteIndex, rawEntries]
  omega

end Sys2Proof.Machine
end

