-- ==== Sys2Proof/Laws/Ops.lean ====
section
/-! SUPPORT. What each shared operation can do, said once: the wait, the poll of the timer, the handshake, the two
successors of a pair, the decoding of a pair, and what a sound build gives. -/

namespace Sys2Proof.Machine

/-! ### What a sound build gives (00_scope.md R6) -/

theorem build_bounds {b : Build} (h : b.ok = true) :
    1 ≤ b.budget ∧ b.budget ≤ 2 ^ b.wCnt - 2 ∧ 1 ≤ b.tIdle ∧ 1 ≤ b.tStart ∧ 1 ≤ b.tPull ∧
      b.tIdle ≤ 2 ^ b.wWait ∧ b.tStart ≤ 2 ^ b.wWait ∧ b.tPull ≤ 2 ^ b.wWait := by
  simp only [Build.ok, Bool.and_eq_true, decide_eq_true_eq] at h
  omega

/-- The sentinel lies above every count (41_pulse_timer.md R123). -/
theorem budget_lt_timeout {b : Build} (h : b.ok = true) : b.budget < b.timeout := by
  have := build_bounds h
  unfold Build.timeout
  omega

/-! ### Wait (40_control.md R102) -/

theorem wait_last {T : Nat} (S : StCode) {s : State} (h : s.wcnt = T - 1) :
    wait T S s = { s with wcnt := 0, st := S } := by simp [wait, h]

theorem wait_early {T : Nat} (S : StCode) {s : State} (h : s.wcnt < T - 1) (hT : T ≤ 2 ^ s.cfg.wWait) :
    wait T S s = { s with wcnt := s.wcnt + 1 } := by
  have h1 : s.wcnt ≠ T - 1 := by omega
  have h2 : s.wcnt + 1 < 2 ^ s.cfg.wWait := by omega
  simp [wait, h1, Nat.mod_eq_of_lt h2]

/-- All that a wait can do. -/
theorem wait_cases (T : Nat) (S : StCode) (s : State) :
    (s.wcnt = T - 1 ∧ wait T S s = { s with wcnt := 0, st := S }) ∨
      (s.wcnt ≠ T - 1 ∧ wait T S s = { s with wcnt := (s.wcnt + 1) % 2 ^ s.cfg.wWait }) := by
  by_cases h : s.wcnt = T - 1 <;> simp [wait, h]

/-! ### One poll (41_pulse_timer.md R121) -/

theorem poll_changed {L : Level} {s : State} (h : s.inp.dqI ≠ L) : poll L s = .ended s.pcnt := by
  simp [poll, sample, h]

theorem poll_timeout {L : Level} {s : State} (h : s.inp.dqI = L) (hb : s.cfg.budget ≤ s.pcnt) :
    poll L s = .ended s.cfg.timeout := by simp [poll, sample, h, hb]

theorem poll_continues {L : Level} {s : State} (h : s.inp.dqI = L) (hb : s.pcnt < s.cfg.budget) :
    poll L s = .continues := by simp [poll, sample, h, Nat.not_le.2 hb]

theorem pollCount_ended {L : Level} {s : State} {v : Nat} (h : poll L s = .ended v) : pollCount L s = 0 := by
  simp [pollCount, h]

theorem pollCount_continues {L : Level} {s : State} (h : poll L s = .continues) : pollCount L s = s.pcnt + 1 := by
  simp [pollCount, h]

/-- All that a poll can answer. -/
theorem poll_cases (L : Level) (s : State) :
    (s.inp.dqI ≠ L ∧ poll L s = .ended s.pcnt) ∨
      (s.inp.dqI = L ∧ s.cfg.budget ≤ s.pcnt ∧ poll L s = .ended s.cfg.timeout) ∨
      (s.inp.dqI = L ∧ s.pcnt < s.cfg.budget ∧ poll L s = .continues) := by
  by_cases h : s.inp.dqI = L
  · rcases Nat.lt_or_ge s.pcnt s.cfg.budget with hb | hb
    · exact .inr (.inr ⟨h, hb, poll_continues h hb⟩)
    · exact .inr (.inl ⟨h, hb, poll_timeout h hb⟩)
  · exact .inl ⟨h, poll_changed h⟩

/-! ### The handshake (42_frame_sync.md R144, R145) -/

theorem handshake_ended {L : Level} {f : State → State} {s : State} {v : Nat} (h : poll L s = .ended v)
    (hv : v ≠ s.cfg.timeout) : handshake L f s = f (counted L (clearDone s)) := by
  simp [handshake, h, hv]

theorem handshake_timeout {L : Level} {f : State → State} {s : State} (h : poll L s = .ended s.cfg.timeout) :
    handshake L f s = attemptFail Status.TIMEOUT_ACK (counted L (clearDone s)) := by
  simp [handshake, h]

theorem handshake_continues {L : Level} {f : State → State} {s : State} (h : poll L s = .continues) :
    handshake L f s = counted L (clearDone s) := by
  simp [handshake, h]

theorem pollCount_clearDone (L : Level) (s : State) : pollCount L (clearDone s) = pollCount L s := rfl

theorem counted_ended {L : Level} {s : State} {v : Nat} (h : poll L s = .ended v) :
    counted L (clearDone s) = { s with pcnt := 0, done := false } := by
  rw [counted, pollCount_clearDone, pollCount_ended h]; rfl

theorem counted_continues {L : Level} {s : State} (h : poll L s = .continues) :
    counted L (clearDone s) = { s with pcnt := s.pcnt + 1, done := false } := by
  rw [counted, pollCount_clearDone, pollCount_continues h]; rfl

/-! ### The successors of a pair and of a bit (43_bit_pair.md R164, R170) -/

theorem idx_succ {i : BitIndex} (h : i.toNat ≤ 39) (hl : i ≠ lastBit) : (i + 1).toNat = i.toNat + 1 ∧ i.toNat < 39 := by
  have h39 : i.toNat ≠ 39 := fun e => hl (BitVec.eq_of_toNat_eq (by simpa [lastBit] using e))
  refine ⟨?_, by omega⟩
  have h1 : (1 : BitIndex).toNat = 1 := rfl
  rw [BitVec.toNat_add]
  omega

/-! ### DECODE (43_bit_pair.md R170) -/

theorem decodePair_timeout {lo hi : Nat} {s : State} (h : lo = s.cfg.timeout ∨ hi = s.cfg.timeout) :
    decodePair lo hi s = .ok (attemptFail Status.TIMEOUT_BIT s) := by simp [decodePair, h]

theorem decodePair_bit {lo hi : Nat} {s : State} (h : ¬ (lo = s.cfg.timeout ∨ hi = s.cfg.timeout))
    (hb : byteIndex s.idx < 5) :
    decodePair lo hi s = .ok (afterBit { s with
      buf := s.buf.set (byteIndex s.idx) (shiftIn s.buf[byteIndex s.idx] (pairBit lo hi)) }) := by
  rw [not_or] at h
  simp [decodePair, h, bufRead_of_lt s hb, bufWrite_of_lt _ s hb, Except.map]

theorem execDecode_of_get {s : State} {lo hi : Nat} (h : s.idx.toNat ≤ 39)
    (hlo : s.raw.get (lowIndex s.idx) = some lo) (hhi : s.raw.get (highIndex s.idx) = some hi) :
    execDecode s = outcomeOf (decodePair lo hi (clearDone s)) := by
  simp [execDecode, rawRead_eq_ok.2 ⟨(indices_lt h).1, hlo⟩, rawRead_eq_ok.2 ⟨(indices_lt h).2.1, hhi⟩]

end Sys2Proof.Machine
end

