-- ==== Sys2Proof/Laws/Step.lean ====
section
/-! SUPPORT. What a step is: the operation the selector picks, and the edge; what the inputs of the next cycle are; what one
run is. -/

namespace Sys2Proof.Machine

/-! ### The selector -/

@[simp] theorem Sel.rst_selectorOf (r s : Bool) (c : StCode) : Sel.rst (selectorOf r s c) = r := by
  revert c; cases r <;> cases s <;> decide

@[simp] theorem Sel.start_selectorOf (r s : Bool) (c : StCode) : Sel.start (selectorOf r s c) = s := by
  revert c; cases r <;> cases s <;> decide

@[simp] theorem Sel.st_selectorOf (r s : Bool) (c : StCode) : Sel.st (selectorOf r s c) = c := by
  revert c; cases r <;> cases s <;> decide

/-- `rst = 1` selects RESET whatever the other bits (30_encoding.md R71). -/
theorem selected_reset {s : State} (h : s.inp.rst = true) :
    decodeSel (selector s) = .reset s.inp.startI s.st := by
  simp [decodeSel, selector, h]

/-- Without `rst` the state selects the operation (30_encoding.md R71). -/
theorem selected_state {s : State} (h : s.inp.rst = false) :
    decodeSel (selector s) = decodeState s.inp.startI s.st := by
  simp [decodeSel, selector, h]

/-! ### The step -/

@[simp] theorem endCycle_next (s t : State) : endCycle s (.next t) = .next (edge s t) := rfl

theorem endCycle_eq_next {s t : State} {o : Host.Outcome State Fault Refusal} :
    endCycle s o = .next t ↔ ∃ u, o = .next u ∧ t = edge s u := by
  cases o <;> simp [endCycle, eq_comm]

theorem step_of_ok {s : State} (h : s.cfg.ok = true) : step s = endCycle s (exec (decodeSel (selector s)) s) := by
  simp [step, h]

/-- All that a step can do when it answers a next state. -/
theorem step_eq_next {s t : State} :
    step s = .next t ↔ s.cfg.ok = true ∧ ∃ u, exec (decodeSel (selector s)) s = .next u ∧ t = edge s u := by
  unfold step
  by_cases h : s.cfg.ok = true
  · simp [h, endCycle_eq_next]
  · simp [h]

/-! ### The inputs of the next cycles -/

theorem inputAt_one (s : State) : inputAt s 1 = arriving s := by
  unfold inputAt arriving
  cases s.stim <;> rfl

/-- The reset and line inputs of a run after a step are those of the run, one cycle on. -/
theorem inputAt_edge (s t : State) (j : Nat) :
    (inputAt (edge s t) j).rst = (inputAt s (j + 1)).rst ∧ (inputAt (edge s t) j).dqI = (inputAt s (j + 1)).dqI := by
  cases j with
  | zero => rw [inputAt_one]; exact ⟨rfl, rfl⟩
  | succ j =>
    have h : inputAt (edge s t) (j + 1) = inputAt s (j + 1 + 1) := by
      simp only [inputAt, edge_stim, edge_cycle, List.getElem?_tail]
      congr 2
      omega
    exact ⟨by rw [h], by rw [h]⟩

theorem NoReset.now {s : State} {n : Nat} (h : NoReset s (n + 1)) : s.inp.rst = false := h 0 (Nat.succ_pos n)

theorem NoReset.tail {s t : State} {n : Nat} (h : NoReset s (n + 1)) : NoReset (edge s t) n := fun j hj => by
  rw [(inputAt_edge s t j).1]; exact h (j + 1) (by omega)

theorem NoReset.mono {s : State} {n m : Nat} (h : NoReset s n) (hm : m ≤ n) : NoReset s m := fun j hj =>
  h j (by omega)

theorem LineHolds.now {s : State} {L : Level} {n : Nat} (h : LineHolds s L (n + 1)) : s.inp.dqI = L :=
  h 0 (Nat.succ_pos n)

theorem LineHolds.tail {s t : State} {L : Level} {n : Nat} (h : LineHolds s L (n + 1)) : LineHolds (edge s t) L n :=
  fun j hj => by rw [(inputAt_edge s t j).2]; exact h (j + 1) (by omega)

/-! ### Runs -/

@[simp] theorem run_zero (s : State) : Sys2Proof.core.run 0 s = .next s := rfl

/-- One more step at the front of a run, for any machine. -/
theorem run_step_first {M : Host.Core} {s t : M.State} (n : Nat) (h : M.step s = .next t) :
    M.run (n + 1) s = M.run n t := by
  simp [Host.Core.run, h]

/-- A run that answers a next state has a first step that does. -/
theorem run_first_step {M : Host.Core} {s t : M.State} {n : Nat} (h : M.run (n + 1) s = .next t) :
    ∃ u, M.step s = .next u ∧ M.run n u = .next t := by
  simp only [Host.Core.run] at h
  split at h
  · next u hu => exact ⟨u, hu, h⟩
  · cases h
  · cases h

/-- A run of `n + 1` steps whose first step answers `t` is a run of `n` steps from `t`. -/
theorem run_succ {s t : State} (n : Nat) (h : step s = .next t) :
    Sys2Proof.core.run (n + 1) s = Sys2Proof.core.run n t :=
  run_step_first (M := Sys2Proof.core) n h

theorem run_one {s t : State} (h : step s = .next t) : Sys2Proof.core.run 1 s = .next t := run_succ 0 h

/-- Runs compose. -/
theorem run_add {s t : State} (m n : Nat) (h : Sys2Proof.core.run m s = .next t) :
    Sys2Proof.core.run (m + n) s = Sys2Proof.core.run n t := by
  induction m generalizing s with
  | zero =>
    have hst : s = t := Host.Outcome.next.inj h
    rw [hst, Nat.zero_add]
  | succ m ih =>
    obtain ⟨u, hu, hr⟩ := run_first_step (M := Sys2Proof.core) h
    rw [Nat.add_right_comm, run_succ _ hu]
    exact ih hr

/-- One more step at the end of a run. -/
theorem run_snoc {s u t : State} {n : Nat} (h : Sys2Proof.core.run n s = .next u) (h' : step u = .next t) :
    Sys2Proof.core.run (n + 1) s = .next t := by rw [run_add n 1 h]; exact run_one h'

theorem step_inputs {s t : State} (h : step s = .next t) (j : Nat) :
    (inputAt t j).rst = (inputAt s (j + 1)).rst ∧ (inputAt t j).dqI = (inputAt s (j + 1)).dqI := by
  obtain ⟨_, u, _, rfl⟩ := step_eq_next.1 h
  exact inputAt_edge s u j

/-- The reset and line inputs after a run of `n` steps are those of its start, `n` cycles on. -/
theorem run_inputs {s t : State} {n : Nat} (h : Sys2Proof.core.run n s = .next t) (j : Nat) :
    (inputAt t j).rst = (inputAt s (n + j)).rst ∧ (inputAt t j).dqI = (inputAt s (n + j)).dqI := by
  induction n generalizing s with
  | zero => cases h; simp
  | succ n ih =>
    obtain ⟨u, hu, hr⟩ := run_first_step (M := Sys2Proof.core) h
    have a := ih hr
    have b := step_inputs hu (n + j)
    rw [show n + 1 + j = n + j + 1 by omega]
    exact ⟨a.1.trans b.1, a.2.trans b.2⟩

theorem NoReset.run {s t : State} {n m : Nat} (hn : NoReset s (n + m)) (h : Sys2Proof.core.run n s = .next t) :
    NoReset t m := fun j hj => by rw [(run_inputs h j).1]; exact hn _ (by omega)

theorem LineHolds.run {s t : State} {n m : Nat} {L : Level} (hl : LineHolds s L (n + m))
    (h : Sys2Proof.core.run n s = .next t) : LineHolds t L m := fun j hj => by
  rw [(run_inputs h j).2]; exact hl _ (by omega)

end Sys2Proof.Machine
end

