-- ==== Sys2Proof/Laws/Exec.lean ====
section
/-! SUPPORT. The next state of every operation, written out as one update of the state before it, case by case; and the one
inversion of a step (`Moves`): everything a step can do from a state that meets the invariant. -/

namespace Sys2Proof.Machine

/-! ### Control -/

theorem execReset_eq (s : State) : execReset s = .next { s with
    st := St.IDLE, wcnt := 0, pcnt := 0, idx := 0, buf := Vector.replicate 5 0, valid := false,
    status := Status.NONE, done := false } := rfl

theorem execStart_eq (s : State) : execStart s = .next { s with
    buf := Vector.replicate 5 0, valid := false, status := Status.NONE, wcnt := 0, st := St.RST_HIGH,
    done := false } := rfl

theorem execIdleWait_eq (s : State) : execIdleWait s = .next { s with done := false } := rfl

theorem execUnused_eq (s : State) : execUnused101x s = .next { s with st := St.IDLE, done := false } ∧
    execUnused11xx s = .next { s with st := St.IDLE, done := false } := ⟨rfl, rfl⟩

/-! ### Waits -/

theorem execRstHigh_last {s : State} (h : s.wcnt = s.cfg.tIdle - 1) :
    execRstHigh s = .next { s with wcnt := 0, st := St.START_LOW, done := false } := by
  simp [execRstHigh, wait, clearDone, h]

theorem execRstHigh_early {s : State} (h : s.wcnt ≠ s.cfg.tIdle - 1) :
    execRstHigh s = .next { s with wcnt := (s.wcnt + 1) % 2 ^ s.cfg.wWait, done := false } := by
  simp [execRstHigh, wait, clearDone, h]

theorem execStartLow_last {s : State} (h : s.wcnt = s.cfg.tStart - 1) :
    execStartLow s = .next { s with wcnt := 0, st := St.RELEASE, done := false } := by
  simp [execStartLow, wait, clearDone, h]

theorem execStartLow_early {s : State} (h : s.wcnt ≠ s.cfg.tStart - 1) :
    execStartLow s = .next { s with wcnt := (s.wcnt + 1) % 2 ^ s.cfg.wWait, done := false } := by
  simp [execStartLow, wait, clearDone, h]

theorem execRelease_last {s : State} (h : s.wcnt = s.cfg.tPull - 1) :
    execRelease s = .next { s with wcnt := 0, pcnt := 0, st := St.ACK_LOW, done := false } := by
  simp [execRelease, wait, clearDone, h]

theorem execRelease_early {s : State} (h : s.wcnt ≠ s.cfg.tPull - 1) :
    execRelease s = .next { s with wcnt := (s.wcnt + 1) % 2 ^ s.cfg.wWait, done := false } := by
  simp [execRelease, wait, clearDone, h]

/-! ### Handshake -/

theorem execAckLow_changed {s : State} (h : s.inp.dqI = HIGH) (hp : s.pcnt ≠ s.cfg.timeout) :
    execAckLow s = .next { s with pcnt := 0, st := St.ACK_HIGH, done := false } := by
  simp [execAckLow, handshake, poll, pollCount, sample, counted, clearDone, goto, h, hp]

theorem execAckLow_timeout {s : State} (h : s.inp.dqI = LOW) (hp : s.cfg.budget ≤ s.pcnt) :
    execAckLow s = .next { s with
      pcnt := 0, st := St.IDLE, valid := false, status := Status.TIMEOUT_ACK, done := true } := by
  simp [execAckLow, handshake, poll, pollCount, sample, counted, clearDone, attemptFail, endAttempt, h, hp]

theorem execAckLow_continues {s : State} (h : s.inp.dqI = LOW) (hp : s.pcnt < s.cfg.budget) :
    execAckLow s = .next { s with pcnt := s.pcnt + 1, done := false } := by
  simp [execAckLow, handshake, poll, pollCount, sample, counted, clearDone, h, Nat.not_le.2 hp]

theorem execAckHigh_changed {s : State} (h : s.inp.dqI = LOW) (hp : s.pcnt ≠ s.cfg.timeout) :
    execAckHigh s = .next { s with pcnt := 0, idx := 0, st := St.BIT_LOW, done := false } := by
  simp [execAckHigh, handshake, poll, pollCount, sample, counted, clearDone, h, hp]

theorem execAckHigh_timeout {s : State} (h : s.inp.dqI = HIGH) (hp : s.cfg.budget ≤ s.pcnt) :
    execAckHigh s = .next { s with
      pcnt := 0, st := St.IDLE, valid := false, status := Status.TIMEOUT_ACK, done := true } := by
  simp [execAckHigh, handshake, poll, pollCount, sample, counted, clearDone, attemptFail, endAttempt, h, hp]

theorem execAckHigh_continues {s : State} (h : s.inp.dqI = HIGH) (hp : s.pcnt < s.cfg.budget) :
    execAckHigh s = .next { s with pcnt := s.pcnt + 1, done := false } := by
  simp [execAckHigh, handshake, poll, pollCount, sample, counted, clearDone, h, Nat.not_le.2 hp]

/-! ### Bit acquisition -/

theorem execBitLow_ended {s : State} {v : Nat} (h : poll LOW s = .ended v) (hi : s.idx.toNat ≤ 39) :
    execBitLow s = .next { s with
      pcnt := 0, raw := s.raw.set (2 * s.idx.toNat) v, st := St.BIT_HIGH, done := false } := by
  have hl : 2 * s.idx.toNat < rawEntries := (indices_lt hi).1
  simp only [execBitLow, h, counted_ended h, lowIndex, rawWrite_of_lt _ _ hl]
  rfl

theorem execBitLow_continues {s : State} (h : s.inp.dqI = LOW) (hp : s.pcnt < s.cfg.budget) :
    execBitLow s = .next { s with pcnt := s.pcnt + 1, done := false } := by
  have hpo := poll_continues h hp
  simp only [execBitLow, hpo, counted_continues hpo]

theorem execBitHigh_last {s : State} {v : Nat} (h : poll HIGH s = .ended v) (hi : s.idx = 39) :
    execBitHigh s = .next { s with
      pcnt := 0, raw := s.raw.set (2 * s.idx.toNat + 1) v, idx := 0, st := St.DECODE, done := false } := by
  have hl : 2 * s.idx.toNat + 1 < rawEntries := by rw [hi]; decide
  have hlast : s.idx = lastBit := hi
  simp only [execBitHigh, h, counted_ended h, highIndex, rawWrite_of_lt _ _ hl, Except.map, afterPair, outcomeOf,
    if_pos hlast]

theorem execBitHigh_more {s : State} {v : Nat} (h : poll HIGH s = .ended v) (hi : s.idx.toNat < 39) :
    execBitHigh s = .next { s with
      pcnt := 0, raw := s.raw.set (2 * s.idx.toNat + 1) v, idx := s.idx + 1, st := St.BIT_LOW, done := false } := by
  have hl : 2 * s.idx.toNat + 1 < rawEntries := (indices_lt (Nat.le_of_lt hi)).2.1
  have hn : ¬ s.idx = lastBit := fun e => by rw [e] at hi; exact absurd hi (by decide)
  simp only [execBitHigh, h, counted_ended h, highIndex, rawWrite_of_lt _ _ hl, Except.map, afterPair, outcomeOf, hn,
    if_false]

theorem execBitHigh_continues {s : State} (h : s.inp.dqI = HIGH) (hp : s.pcnt < s.cfg.budget) :
    execBitHigh s = .next { s with pcnt := s.pcnt + 1, done := false } := by
  have hpo := poll_continues h hp
  simp only [execBitHigh, hpo, counted_continues hpo]

/-! ### Decode -/

/-- The buffer after bit `i` with value `bit` is shifted into its byte (43_bit_pair.md R171). -/
def bufAfter (buf : Vector Byte 5) (i : BitIndex) (h : i.toNat ≤ 39) (bit : Bool) : Vector Byte 5 :=
  buf.set (byteIndex i) (shiftIn (buf[byteIndex i]'(indices_lt h).2.2) bit) (indices_lt h).2.2

theorem execDecode_timeout {s : State} {lo hi : Nat} (h : s.idx.toNat ≤ 39)
    (hlo : s.raw.get (2 * s.idx.toNat) = some lo) (hhi : s.raw.get (2 * s.idx.toNat + 1) = some hi)
    (ht : lo = s.cfg.timeout ∨ hi = s.cfg.timeout) :
    execDecode s = .next { s with st := St.IDLE, valid := false, status := Status.TIMEOUT_BIT, done := true } := by
  rw [execDecode_of_get h hlo hhi, decodePair_timeout (s := clearDone s) ht]
  rfl

theorem execDecode_last {s : State} {lo hi : Nat} (h : s.idx.toNat ≤ 39) (h39 : s.idx = 39)
    (hlo : s.raw.get (2 * s.idx.toNat) = some lo) (hhi : s.raw.get (2 * s.idx.toNat + 1) = some hi)
    (ht : ¬ (lo = s.cfg.timeout ∨ hi = s.cfg.timeout)) :
    execDecode s = .next { s with
      buf := bufAfter s.buf s.idx h (decide (lo < hi)), st := St.VALIDATE, done := false } := by
  rw [execDecode_of_get h hlo hhi, decodePair_bit (s := clearDone s) ht (indices_lt h).2.2]
  have hlast : s.idx = lastBit := h39
  simp only [afterBit, clearDone, hlast, if_true, outcomeOf]
  rfl

theorem execDecode_more {s : State} {lo hi : Nat} (h : s.idx.toNat < 39)
    (hlo : s.raw.get (2 * s.idx.toNat) = some lo) (hhi : s.raw.get (2 * s.idx.toNat + 1) = some hi)
    (ht : ¬ (lo = s.cfg.timeout ∨ hi = s.cfg.timeout)) :
    execDecode s = .next { s with
      buf := bufAfter s.buf s.idx (Nat.le_of_lt h) (decide (lo < hi)), idx := s.idx + 1, done := false } := by
  have hn : ¬ s.idx = lastBit := fun e => by rw [e] at h; exact absurd h (by decide)
  rw [execDecode_of_get (Nat.le_of_lt h) hlo hhi, decodePair_bit (s := clearDone s) ht (indices_lt (Nat.le_of_lt h)).2.2]
  simp only [afterBit, clearDone, hn, if_false, outcomeOf]
  rfl

/-- The byte a decoded bit goes to, and every other byte (43_bit_pair.md R171). -/
theorem shiftIn_toNat (x : Byte) (b : Bool) : (shiftIn x b).toNat = (2 * x.toNat + b.toNat) % 256 := by
  revert x; cases b <;> decide +kernel

theorem bufAfter_same {buf : Vector Byte 5} {i : BitIndex} (h : i.toNat ≤ 39) (bit : Bool) {k : Nat} (hk : k < 5)
    (e : k = i.toNat / 8) : (bufAfter buf i h bit)[k].toNat = (2 * buf[k].toNat + bit.toNat) % 256 := by
  subst e
  simp [bufAfter, byteIndex, shiftIn_toNat]

theorem bufAfter_other {buf : Vector Byte 5} {i : BitIndex} (h : i.toNat ≤ 39) (bit : Bool) {k : Nat} (hk : k < 5)
    (e : k ≠ i.toNat / 8) : (bufAfter buf i h bit)[k] = buf[k] := by
  unfold bufAfter
  exact Vector.getElem_set_ne _ _ (fun h' => e h'.symm)

/-! ### Validate -/

theorem checksumOk_iff {buf : Vector Byte 5} : checksumOk buf = true ↔
    buf[4].toNat = (buf[0].toNat + buf[1].toNat + buf[2].toNat + buf[3].toNat) % 256 := by
  exact decide_eq_true_iff

theorem execValidate_ok {s : State}
    (h : s.buf[4].toNat = (s.buf[0].toNat + s.buf[1].toNat + s.buf[2].toNat + s.buf[3].toNat) % 256) :
    execValidate s = .next { s with st := St.IDLE, valid := true, status := Status.OK, done := true } := by
  simp [execValidate, checksumOk_iff.2 h, endAttempt]

theorem execValidate_bad {s : State}
    (h : s.buf[4].toNat ≠ (s.buf[0].toNat + s.buf[1].toNat + s.buf[2].toNat + s.buf[3].toNat) % 256) :
    execValidate s = .next { s with st := St.IDLE, valid := false, status := Status.CHECKSUM, done := true } := by
  simp [execValidate, mt checksumOk_iff.1 h, endAttempt]

/-! ### Everything a step can do -/

/-- The operation of a cycle without reset in a state that meets the invariant, as the block's registers before and after:
one constructor for each thing an operation can do. -/
inductive Moves (s : State) : State → Prop
  | start (hst : s.st = St.IDLE) (hs : s.inp.startI = true) : Moves s { s with
      buf := Vector.replicate 5 0, valid := false, status := Status.NONE, wcnt := 0, st := St.RST_HIGH, done := false }
  | idleWait (hst : s.st = St.IDLE) (hs : s.inp.startI = false) : Moves s { s with done := false }
  | waitEarly (hst : s.st = St.RST_HIGH ∨ s.st = St.START_LOW ∨ s.st = St.RELEASE) (hw : s.wcnt + 1 < waitLength s) :
      Moves s { s with wcnt := s.wcnt + 1, done := false }
  | rstHighLast (hst : s.st = St.RST_HIGH) (hw : s.wcnt + 1 = s.cfg.tIdle) :
      Moves s { s with wcnt := 0, st := St.START_LOW, done := false }
  | startLowLast (hst : s.st = St.START_LOW) (hw : s.wcnt + 1 = s.cfg.tStart) :
      Moves s { s with wcnt := 0, st := St.RELEASE, done := false }
  | releaseLast (hst : s.st = St.RELEASE) (hw : s.wcnt + 1 = s.cfg.tPull) :
      Moves s { s with wcnt := 0, pcnt := 0, st := St.ACK_LOW, done := false }
  | pollContinues (hst : Measuring s) (hd : s.inp.dqI = expected s) (hp : s.pcnt < s.cfg.budget) :
      Moves s { s with pcnt := s.pcnt + 1, done := false }
  | ackTimeout (hst : s.st = St.ACK_LOW ∨ s.st = St.ACK_HIGH) (hd : s.inp.dqI = expected s)
      (hp : s.pcnt = s.cfg.budget) : Moves s { s with
        pcnt := 0, st := St.IDLE, valid := false, status := Status.TIMEOUT_ACK, done := true }
  | ackLowEnds (hst : s.st = St.ACK_LOW) (hd : s.inp.dqI = HIGH) :
      Moves s { s with pcnt := 0, st := St.ACK_HIGH, done := false }
  | ackHighEnds (hst : s.st = St.ACK_HIGH) (hd : s.inp.dqI = LOW) :
      Moves s { s with pcnt := 0, idx := 0, st := St.BIT_LOW, done := false }
  | bitLowEnds (v : Nat) (hst : s.st = St.BIT_LOW)
      (hv : (s.inp.dqI = HIGH ∧ v = s.pcnt) ∨ (s.inp.dqI = LOW ∧ s.pcnt = s.cfg.budget ∧ v = s.cfg.timeout)) :
      Moves s { s with pcnt := 0, raw := s.raw.set (2 * s.idx.toNat) v, st := St.BIT_HIGH, done := false }
  | bitHighEnds (v : Nat) (hst : s.st = St.BIT_HIGH) (hi : s.idx.toNat < 39)
      (hv : (s.inp.dqI = LOW ∧ v = s.pcnt) ∨ (s.inp.dqI = HIGH ∧ s.pcnt = s.cfg.budget ∧ v = s.cfg.timeout)) :
      Moves s { s with
        pcnt := 0, raw := s.raw.set (2 * s.idx.toNat + 1) v, idx := s.idx + 1, st := St.BIT_LOW, done := false }
  | lastBitHighEnds (v : Nat) (hst : s.st = St.BIT_HIGH) (hi : s.idx = 39)
      (hv : (s.inp.dqI = LOW ∧ v = s.pcnt) ∨ (s.inp.dqI = HIGH ∧ s.pcnt = s.cfg.budget ∧ v = s.cfg.timeout)) :
      Moves s { s with
        pcnt := 0, raw := s.raw.set (2 * s.idx.toNat + 1) v, idx := 0, st := St.DECODE, done := false }
  | decodeTimeout (hst : s.st = St.DECODE) (ht : PairTimedOut s s.idx.toNat) : Moves s { s with
      st := St.IDLE, valid := false, status := Status.TIMEOUT_BIT, done := true }
  | decodeBit (lo hi : Nat) (hst : s.st = St.DECODE) (h39 : s.idx.toNat < 39)
      (hlo : s.raw.get (2 * s.idx.toNat) = some lo) (hhi : s.raw.get (2 * s.idx.toNat + 1) = some hi)
      (ht : ¬ PairTimedOut s s.idx.toNat) : Moves s { s with
        buf := bufAfter s.buf s.idx (Nat.le_of_lt h39) (decide (lo < hi)), idx := s.idx + 1, done := false }
  | decodeLast (lo hi : Nat) (hst : s.st = St.DECODE) (h39 : s.idx = 39) (hle : s.idx.toNat ≤ 39)
      (hlo : s.raw.get (2 * s.idx.toNat) = some lo) (hhi : s.raw.get (2 * s.idx.toNat + 1) = some hi)
      (ht : ¬ PairTimedOut s s.idx.toNat) : Moves s { s with
        buf := bufAfter s.buf s.idx hle (decide (lo < hi)), st := St.VALIDATE, done := false }
  | validateOk (hst : s.st = St.VALIDATE)
      (h : s.buf[4].toNat = (s.buf[0].toNat + s.buf[1].toNat + s.buf[2].toNat + s.buf[3].toNat) % 256) :
      Moves s { s with st := St.IDLE, valid := true, status := Status.OK, done := true }
  | validateBad (hst : s.st = St.VALIDATE)
      (h : s.buf[4].toNat ≠ (s.buf[0].toNat + s.buf[1].toNat + s.buf[2].toNat + s.buf[3].toNat) % 256) :
      Moves s { s with st := St.IDLE, valid := false, status := Status.CHECKSUM, done := true }

/-- The ten legal state codes. -/
theorem legal_cases {c : StCode} (h : c.toNat ≤ 9) :
    c = St.IDLE ∨ c = St.RST_HIGH ∨ c = St.START_LOW ∨ c = St.RELEASE ∨ c = St.ACK_LOW ∨ c = St.ACK_HIGH ∨
      c = St.BIT_LOW ∨ c = St.BIT_HIGH ∨ c = St.DECODE ∨ c = St.VALIDATE := by
  revert c; decide

theorem idx_eq_39 {i : BitIndex} (h : ¬ i.toNat < 39) (hle : i.toNat ≤ 39) : i = 39 :=
  BitVec.eq_of_toNat_eq (by
    have : (39 : BitIndex).toNat = 39 := rfl
    omega)

/-- A state that meets the invariant has an operation that answers a next state, and it is one of `Moves`. -/
theorem exec_moves {s : State} (hI : RegInv s) (hr : s.inp.rst = false) :
    ∃ u, exec (decodeSel (selector s)) s = .next u ∧ Moves s u := by
  have hb := build_bounds hI.build
  have hbt := budget_lt_timeout hI.build
  have hp := hI.pulseCount
  have hw := hI.waitCount
  have hidx := hI.bitIndex
  rw [selected_state hr]
  rcases legal_cases hI.legalState with h | h | h | h | h | h | h | h | h | h
  · cases hs : s.inp.startI with
    | true =>
      have e : exec (decodeState true s.st) s = execStart s := by rw [h]; rfl
      exact ⟨_, e.trans (execStart_eq s), .start h hs⟩
    | false =>
      have e : exec (decodeState false s.st) s = execIdleWait s := by rw [h]; rfl
      exact ⟨_, e.trans (execIdleWait_eq s), .idleWait h hs⟩
  · have e : exec (decodeState s.inp.startI s.st) s = execRstHigh s := by rw [h]; rfl
    have hwl : waitLength s = s.cfg.tIdle := by simp [waitLength, h]
    by_cases hl : s.wcnt = s.cfg.tIdle - 1
    · exact ⟨_, e.trans (execRstHigh_last hl), .rstHighLast h (by omega)⟩
    · refine ⟨_, e.trans (execRstHigh_early hl), ?_⟩
      rw [Nat.mod_eq_of_lt (by omega)]
      exact .waitEarly (.inl h) (by omega)
  · have e : exec (decodeState s.inp.startI s.st) s = execStartLow s := by rw [h]; rfl
    have hwl : waitLength s = s.cfg.tStart := by simp [waitLength, h]
    by_cases hl : s.wcnt = s.cfg.tStart - 1
    · exact ⟨_, e.trans (execStartLow_last hl), .startLowLast h (by omega)⟩
    · refine ⟨_, e.trans (execStartLow_early hl), ?_⟩
      rw [Nat.mod_eq_of_lt (by omega)]
      exact .waitEarly (.inr (.inl h)) (by omega)
  · have e : exec (decodeState s.inp.startI s.st) s = execRelease s := by rw [h]; rfl
    have hwl : waitLength s = s.cfg.tPull := by simp [waitLength, h]
    by_cases hl : s.wcnt = s.cfg.tPull - 1
    · exact ⟨_, e.trans (execRelease_last hl), .releaseLast h (by omega)⟩
    · refine ⟨_, e.trans (execRelease_early hl), ?_⟩
      rw [Nat.mod_eq_of_lt (by omega)]
      exact .waitEarly (.inr (.inr h)) (by omega)
  · have e : exec (decodeState s.inp.startI s.st) s = execAckLow s := by rw [h]; rfl
    have he : expected s = LOW := by simp [expected, h]
    cases hd : s.inp.dqI with
    | true => exact ⟨_, e.trans (execAckLow_changed hd (by omega)), .ackLowEnds h hd⟩
    | false =>
      rcases Nat.lt_or_ge s.pcnt s.cfg.budget with hb' | hb'
      · exact ⟨_, e.trans (execAckLow_continues hd hb'), .pollContinues (.inl h) (by rw [hd, he]) hb'⟩
      · exact ⟨_, e.trans (execAckLow_timeout hd hb'), .ackTimeout (.inl h) (by rw [hd, he]) (by omega)⟩
  · have e : exec (decodeState s.inp.startI s.st) s = execAckHigh s := by rw [h]; rfl
    have he : expected s = HIGH := by simp [expected, h]
    cases hd : s.inp.dqI with
    | false => exact ⟨_, e.trans (execAckHigh_changed hd (by omega)), .ackHighEnds h hd⟩
    | true =>
      rcases Nat.lt_or_ge s.pcnt s.cfg.budget with hb' | hb'
      · exact ⟨_, e.trans (execAckHigh_continues hd hb'), .pollContinues (.inr (.inl h)) (by rw [hd, he]) hb'⟩
      · exact ⟨_, e.trans (execAckHigh_timeout hd hb'), .ackTimeout (.inr h) (by rw [hd, he]) (by omega)⟩
  · have e : exec (decodeState s.inp.startI s.st) s = execBitLow s := by rw [h]; rfl
    have he : expected s = LOW := by simp [expected, h]
    rcases poll_cases LOW s with ⟨hd, hpo⟩ | ⟨hd, hb', hpo⟩ | ⟨hd, hb', hpo⟩
    · exact ⟨_, e.trans (execBitLow_ended hpo hidx), .bitLowEnds _ h (.inl ⟨by simpa using hd, rfl⟩)⟩
    · exact ⟨_, e.trans (execBitLow_ended hpo hidx), .bitLowEnds _ h (.inr ⟨hd, by omega, rfl⟩)⟩
    · exact ⟨_, e.trans (execBitLow_continues hd hb'), .pollContinues (.inr (.inr (.inl h))) (by rw [hd, he]) hb'⟩
  · have e : exec (decodeState s.inp.startI s.st) s = execBitHigh s := by rw [h]; rfl
    have he : expected s = HIGH := by simp [expected, h]
    rcases poll_cases HIGH s with ⟨hd, hpo⟩ | ⟨hd, hb', hpo⟩ | ⟨hd, hb', hpo⟩
    · by_cases hi : s.idx.toNat < 39
      · exact ⟨_, e.trans (execBitHigh_more hpo hi), .bitHighEnds _ h hi (.inl ⟨by simpa using hd, rfl⟩)⟩
      · exact ⟨_, e.trans (execBitHigh_last hpo (idx_eq_39 hi hidx)),
          .lastBitHighEnds _ h (idx_eq_39 hi hidx) (.inl ⟨by simpa using hd, rfl⟩)⟩
    · by_cases hi : s.idx.toNat < 39
      · exact ⟨_, e.trans (execBitHigh_more hpo hi), .bitHighEnds _ h hi (.inr ⟨hd, by omega, rfl⟩)⟩
      · exact ⟨_, e.trans (execBitHigh_last hpo (idx_eq_39 hi hidx)),
          .lastBitHighEnds _ h (idx_eq_39 hi hidx) (.inr ⟨hd, by omega, rfl⟩)⟩
    · exact ⟨_, e.trans (execBitHigh_continues hd hb'), .pollContinues (.inr (.inr (.inr h))) (by rw [hd, he]) hb'⟩
  · have e : exec (decodeState s.inp.startI s.st) s = execDecode s := by rw [h]; rfl
    have hwr : written s = 80 := by simp [written, h]
    obtain ⟨lo, hlo⟩ := hI.rawWritten (2 * s.idx.toNat) (by omega)
    obtain ⟨hi, hhi⟩ := hI.rawWritten (2 * s.idx.toNat + 1) (by omega)
    have hiff : (lo = s.cfg.timeout ∨ hi = s.cfg.timeout) ↔ PairTimedOut s s.idx.toNat := by
      simp [PairTimedOut, hlo, hhi]
    by_cases ht : lo = s.cfg.timeout ∨ hi = s.cfg.timeout
    · exact ⟨_, e.trans (execDecode_timeout hidx hlo hhi ht), .decodeTimeout h (hiff.1 ht)⟩
    · by_cases h39 : s.idx.toNat < 39
      · exact ⟨_, e.trans (execDecode_more h39 hlo hhi ht), .decodeBit lo hi h h39 hlo hhi (mt hiff.2 ht)⟩
      · exact ⟨_, e.trans (execDecode_last hidx (idx_eq_39 h39 hidx) hlo hhi ht),
          .decodeLast lo hi h (idx_eq_39 h39 hidx) hidx hlo hhi (mt hiff.2 ht)⟩
  · have e : exec (decodeState s.inp.startI s.st) s = execValidate s := by rw [h]; rfl
    by_cases hc : s.buf[4].toNat = (s.buf[0].toNat + s.buf[1].toNat + s.buf[2].toNat + s.buf[3].toNat) % 256
    · exact ⟨_, e.trans (execValidate_ok hc), .validateOk h hc⟩
    · exact ⟨_, e.trans (execValidate_bad hc), .validateBad h hc⟩

/-- Everything a step without reset can do from a state that meets the invariant. -/
theorem step_moves {s t : State} (hI : RegInv s) (hr : s.inp.rst = false) (h : step s = .next t) :
    ∃ u, Moves s u ∧ t = edge s u := by
  obtain ⟨-, u, hu, rfl⟩ := step_eq_next.1 h
  obtain ⟨u', hu', hm⟩ := exec_moves hI hr
  rw [hu] at hu'
  cases hu'
  exact ⟨u, hm, rfl⟩

/-- No operation touches anything outside the block. -/
theorem moves_surroundings {s u : State} (h : Moves s u) : SameSurroundings s u := by
  cases h <;> exact ⟨rfl, rfl, rfl, rfl, rfl⟩

/-- What a step with reset does, from any state of a sound build. -/
theorem step_reset {s : State} (hok : s.cfg.ok = true) (hr : s.inp.rst = true) :
    step s = .next (edge s { s with
      st := St.IDLE, wcnt := 0, pcnt := 0, idx := 0, buf := Vector.replicate 5 0, valid := false,
      status := Status.NONE, done := false }) := by
  rw [step_of_ok hok, selected_reset hr]
  rfl

end Sys2Proof.Machine
end

