-- ==== Sys2Proof/Laws/Payload.lean ====
section
/-! SUPPORT. The byte that the first bits of a frame decode to (43_bit_pair.md R171, R174, R175): one more bit shifts its
own byte and no other; and the subtraction at the width of the host's timebase (45_host.md R203). -/

namespace Sys2Proof.Machine

theorem decodedByte_zero (m : Memory) (k : Nat) : decodedByte m 0 k = 0 := by simp [decodedByte, bitsInByte]

/-- Bit `n` is shifted into its own byte (43_bit_pair.md R171). -/
theorem decodedByte_succ_same (m : Memory) (n k : Nat) (h : k = n / 8) :
    decodedByte m (n + 1) k = 2 * decodedByte m n k + (ratioBit m n).toNat := by
  have e : bitsInByte (n + 1) k = bitsInByte n k + 1 := by unfold bitsInByte; omega
  have e2 : 8 * k + bitsInByte n k = n := by unfold bitsInByte; omega
  unfold decodedByte
  rw [e, Finset.sum_range_succ, e2, Finset.mul_sum]
  simp only [Nat.add_sub_cancel, Nat.sub_self, pow_zero, mul_one, Nat.add_right_cancel_iff]
  apply Finset.sum_congr rfl
  intro j hj
  have hj' := Finset.mem_range.1 hj
  rw [show bitsInByte n k - j = (bitsInByte n k - 1 - j) + 1 by omega, pow_succ]
  ring

theorem decodedByte_succ_other (m : Memory) (n k : Nat) (h : k ≠ n / 8) :
    decodedByte m (n + 1) k = decodedByte m n k := by
  have e : bitsInByte (n + 1) k = bitsInByte n k := by unfold bitsInByte; omega
  unfold decodedByte; rw [e]

/-- No bit is lost to the 8 bits of a byte (43_bit_pair.md R174). -/
theorem decodedByte_lt (m : Memory) (n k : Nat) : decodedByte m n k < 256 := by
  have h8 : bitsInByte n k ≤ 8 := by unfold bitsInByte; omega
  have sum_lt : ∀ N, ∑ j ∈ Finset.range N, (ratioBit m (8 * k + j)).toNat * 2 ^ (N - 1 - j) < 2 ^ N := by
    intro N
    induction N with
    | zero => simp
    | succ N ih =>
      have e : ∑ j ∈ Finset.range N, (ratioBit m (8 * k + j)).toNat * 2 ^ (N + 1 - 1 - j) =
          2 * ∑ j ∈ Finset.range N, (ratioBit m (8 * k + j)).toNat * 2 ^ (N - 1 - j) := by
        rw [Finset.mul_sum]
        apply Finset.sum_congr rfl
        intro j hj
        have hj' := Finset.mem_range.1 hj
        rw [show N + 1 - 1 - j = (N - 1 - j) + 1 by omega, pow_succ]
        ring
      rw [Finset.sum_range_succ, e, pow_succ]
      have : (ratioBit m (8 * k + N)).toNat ≤ 1 := Bool.toNat_le _
      simp only [Nat.add_sub_cancel, Nat.sub_self, pow_zero, mul_one]
      omega
  have h := sum_lt (bitsInByte n k)
  unfold decodedByte
  have h2 : 2 ^ bitsInByte n k ≤ 2 ^ 8 := Nat.pow_le_pow_right (by norm_num) h8
  omega

/-- The subtraction at `w` bits of two values of `w` bits (45_host.md R203). -/
theorem subMod_eq (w a b : Nat) (ha : a < 2 ^ w) (hb : b < 2 ^ w) :
    subMod w a b = if b ≤ a then a - b else a + 2 ^ w - b := by
  have e2 : ((2 : Int) ^ w) = ((2 ^ w : Nat) : Int) := by push_cast; rfl
  unfold subMod
  rw [e2]
  split
  · rw [Int.emod_eq_of_lt (by omega) (by omega)]; omega
  · rw [← Int.add_emod_right, Int.emod_eq_of_lt (by omega) (by omega)]; omega

end Sys2Proof.Machine
end

