-- ==== Sys2Proof/Laws/PerInstr.lean ====
section
/-! SUPPORT. Per instruction: the selector that encodes an operation matches the pattern of the operation's own row of
spec/opcode_table.json and of no other row (30_encoding.md R70, R71). -/

namespace Sys2Proof.Laws.EncodesRow

/-- The encoding of a well-formed operation is selected by its row, and by its row only. -/
def Statement (i : Instr) : Prop :=
  i.wf = true → i.row.selects (encode i) = true ∧
    ∀ r ∈ opcodeTable, r.selects (encode i) = true → r = i.row

theorem reset (start : Bool) (st : StCode) : Statement (.reset start st) := by
  unfold Statement; revert start st; decide

theorem start : Statement .start := by unfold Statement; decide

theorem idleWait : Statement .idleWait := by unfold Statement; decide

theorem rstHigh (start : Bool) : Statement (.rstHigh start) := by unfold Statement; revert start; decide

theorem startLow (start : Bool) : Statement (.startLow start) := by unfold Statement; revert start; decide

theorem release (start : Bool) : Statement (.release start) := by unfold Statement; revert start; decide

theorem ackLow (start : Bool) : Statement (.ackLow start) := by unfold Statement; revert start; decide

theorem ackHigh (start : Bool) : Statement (.ackHigh start) := by unfold Statement; revert start; decide

theorem bitLow (start : Bool) : Statement (.bitLow start) := by unfold Statement; revert start; decide

theorem bitHigh (start : Bool) : Statement (.bitHigh start) := by unfold Statement; revert start; decide

theorem decode (start : Bool) : Statement (.decode start) := by unfold Statement; revert start; decide

theorem validate (start : Bool) : Statement (.validate start) := by unfold Statement; revert start; decide

theorem unused101x (start : Bool) (code : StCode) : Statement (.unused101x start code) := by
  unfold Statement; revert start code; decide

theorem unused11xx (start : Bool) (code : StCode) : Statement (.unused11xx start code) := by
  unfold Statement; revert start code; decide

end Sys2Proof.Laws.EncodesRow
end

