-- ==== Sys2Proof/Laws/Stimulus.lean ====
section
/-! SUPPORT. What the encoding of a stimulus program holds in every cycle: its length, the inputs of a cycle, the level that
a run of the line track gives (30_encoding.md R96). -/

namespace Sys2Proof.Machine

/-! ### The inputs of a cycle -/

@[simp] theorem cycleInputs_rst (cmds : List Cmd) (t : Nat) (l : Option Level) :
    (cycleInputs cmds t l).rst = cmdReset cmds t := rfl
@[simp] theorem cycleInputs_startI (cmds : List Cmd) (t : Nat) (l : Option Level) :
    (cycleInputs cmds t l).startI = cmdStart cmds t := rfl
@[simp] theorem cycleInputs_dqI (cmds : List Cmd) (t : Nat) (l : Option Level) :
    (cycleInputs cmds t l).dqI = l.getD (Config.freeInputs t).dqI := rfl
@[simp] theorem cycleInputs_call (cmds : List Cmd) (t : Nat) (l : Option Level) : (cycleInputs cmds t l).call = none := rfl
@[simp] theorem cycleInputs_dt (cmds : List Cmd) (t : Nat) (l : Option Level) :
    (cycleInputs cmds t l).dt = (Config.freeInputs t).dt := rfl

/-! ### The commands of a cycle -/

theorem cmdStart_iff {cmds : List Cmd} {t : Nat} : cmdStart cmds t = true ↔ Cmd.start t ∈ cmds := by
  simp only [cmdStart, List.any_eq_true]
  refine ⟨fun ⟨c, hc, h⟩ => ?_, fun h => ⟨_, h, by simp⟩⟩
  cases c with
  | start a => obtain rfl : a = t := by simpa using h
               exact hc
  | reset a n => cases h

theorem cmdReset_iff {cmds : List Cmd} {t : Nat} :
    cmdReset cmds t = true ↔ ∃ a m, Cmd.reset a m ∈ cmds ∧ a ≤ t ∧ t < a + m := by
  simp only [cmdReset, List.any_eq_true]
  refine ⟨fun ⟨c, hc, h⟩ => ?_, fun ⟨a, m, hc, h⟩ => ⟨_, hc, by simpa using h⟩⟩
  cases c with
  | start a => cases h
  | reset a m => exact ⟨a, m, hc, by simpa using h⟩

/-! ### The encoding -/

@[simp] theorem lineLevels_length (rs : List LineRun) : ∀ n, (lineLevels rs n).length = n := by
  induction rs with
  | nil => intro n; simp [lineLevels]
  | cons r rs ih =>
    intro n
    obtain ⟨l, _ | m⟩ := r
    · simp [lineLevels]
    · simp only [lineLevels, List.length_append, List.length_replicate, ih]; omega

@[simp] theorem encodeFrom_length (cmds : List Cmd) (ls : List (Option Level)) :
    ∀ t, (encodeFrom cmds t ls).length = ls.length := by
  induction ls with
  | nil => intro t; rfl
  | cons l ls ih => intro t; simp [encodeFrom, ih]

/-- An encoding names the inputs of every one of its cycles. -/
@[simp] theorem Program.encoding_length (p : Program) (n : Nat) : (p.encoding n).length = n := by simp [Program.encoding]

theorem encodeFrom_getElem? (cmds : List Cmd) (ls : List (Option Level)) :
    ∀ a t, (encodeFrom cmds a ls)[t]? = ls[t]?.map (cycleInputs cmds (a + t)) := by
  induction ls with
  | nil => intro a t; simp [encodeFrom]
  | cons l ls ih =>
    intro a t
    cases t with
    | zero => simp [encodeFrom]
    | succ t => simp only [encodeFrom, List.getElem?_cons_succ, ih]; congr 2; omega

/-- What a program's encoding holds for cycle `t`. -/
theorem Program.encoding_getElem? (p : Program) (n t : Nat) :
    (p.encoding n)[t]? = (lineLevels p.runs n)[t]?.map (cycleInputs p.cmds t) := by
  simp [Program.encoding, encodeFrom_getElem?]

/-! ### The levels of the line track -/

/-- After the end of the track no level is given. -/
theorem lineLevels_nil_getElem? {n t : Nat} (h : t < n) : (lineLevels [] n)[t]? = some none := by
  simp [lineLevels, h]

/-- HOLD gives every remaining cycle its level. -/
theorem lineLevels_hold_getElem? {l : Level} {rs : List LineRun} {n t : Nat} (h : t < n) :
    (lineLevels ((l, none) :: rs) n)[t]? = some (some l) := by
  simp [lineLevels, h]

/-- A finite run gives its own cycles its level, and the rest of the track the cycles after it. -/
theorem lineLevels_run_getElem? {l : Level} {m : Nat} {rs : List LineRun} {n t : Nat} (h : t < n) :
    (lineLevels ((l, some m) :: rs) n)[t]? = if t < m then some (some l) else (lineLevels rs (n - m))[t - m]? := by
  by_cases hm : t < m
  · simp [lineLevels, hm, List.getElem?_append_left, h]
  · rw [if_neg hm, lineLevels, List.getElem?_append_right (by simp; omega), List.length_replicate]
    rw [show min m n = m by omega]

end Sys2Proof.Machine
end

