-- ==== Sys2Proof/Tests/Slice0.lean ====
section
/-! SUPPORT. The model's own tests: the well-formedness smoke, selector words written out from spec/opcode_table.json, one
step of every operation with the expected values of 95_test_vectors.md section 2, and a witness for the hypotheses of every
statement of Certificates/Slice0/Obligations.lean that has any. -/

namespace Sys2Proof.Tests

open Sys2Proof Sys2Proof.Machine

/-! ### The test configuration of 95_test_vectors.md -/

/-- T_IDLE=2 T_START=3 T_PULL=2 BUDGET=10 W_CNT=8; W_TIME=32 and MIN_INTERVAL=2000 as in section 2.7. -/
def build : Build :=
  { clkHz := 1000000, wCnt := 8, budget := 10, tIdle := 2, tStart := 3, tPull := 2, wWait := 2, wTime := 32,
    minInterval := 2000 }

/-- A cycle without a command, with the line at level `l`. -/
def quiet (l : Level) : Inputs := { rst := false, startI := false, dqI := l, call := none, dt := 0 }

/-- The reset state of the test configuration, with the inputs of its first cycle and a script after them. -/
def fresh (i : Inputs) (script : List Inputs) : State := State.boot build (i :: script)

/-- The state in sequencer state `c` with the line at level `l`. -/
def at' (c : StCode) (l : Level) : State := { fresh (quiet l) [] with st := c }

/-- The outcome is a next state with the property. -/
def after (o : Host.Outcome State Fault Refusal) (p : State → Bool) : Bool :=
  match o with
  | .next t => p t
  | .fault _ => false
  | .refused _ => false

/-- The next state of a step that has one. -/
def stepped (s : State) : State :=
  match step s with
  | .next t => t
  | .fault _ => s
  | .refused _ => s

/-- A buffer of five bytes. -/
def bytes (b0 b1 b2 b3 b4 : Byte) : Vector Byte 5 := #v[b0, b1, b2, b3, b4]

/-- A table of 80 entries, `lo` at the even and `hi` at the odd indices. -/
def fullTable (lo hi : Nat) : Memory := (List.range 80).map fun k => (k, if k % 2 = 0 then lo else hi)

/-! ### Well-formedness, decoding, encoding -/

theorem test_wf_refuses_code_outside_101x :
    (Instr.unused101x false 9).wf = false ∧ (Instr.unused101x true 12).wf = false := by decide

theorem test_wf_refuses_code_outside_11xx :
    (Instr.unused11xx false 11).wf = false ∧ (Instr.unused11xx true 0).wf = false := by decide

/-- The rows of spec/opcode_table.json, every don't-care bit 0. -/
theorem test_decode_rows :
    decodeTableWord 8 0b100000 = some (.reset false 0) ∧ decodeTableWord 8 0b010000 = some .start ∧
    decodeTableWord 8 0b000000 = some .idleWait ∧ decodeTableWord 8 0b000001 = some (.rstHigh false) ∧
    decodeTableWord 8 0b000010 = some (.startLow false) ∧ decodeTableWord 8 0b000011 = some (.release false) ∧
    decodeTableWord 8 0b000100 = some (.ackLow false) ∧ decodeTableWord 8 0b000101 = some (.ackHigh false) ∧
    decodeTableWord 8 0b000110 = some (.bitLow false) ∧ decodeTableWord 8 0b000111 = some (.bitHigh false) ∧
    decodeTableWord 8 0b001000 = some (.decode false) ∧ decodeTableWord 8 0b001001 = some (.validate false) ∧
    decodeTableWord 8 0b001010 = some (.unused101x false 10) ∧
    decodeTableWord 8 0b001100 = some (.unused11xx false 12) := by decide

/-- The don't-care bits: `start_i` beside a state code, every bit below `rst` (30_encoding.md R71). -/
theorem test_decode_dont_cares :
    decodeSel 0b111111 = .reset true 15 ∧ decodeSel 0b100000 = .reset false 0 ∧ decodeSel 0b010111 = .bitHigh true ∧
    decodeSel 0b011001 = .validate true ∧ decodeSel 0b011011 = .unused101x true 11 ∧
    decodeSel 0b001111 = .unused11xx false 15 := by decide

theorem test_decode_rejects : decodeBytes [] = .error .noBytes ∧ decodeBytes [0x40] = .error (.aboveSixBits 0x40) ∧
    decodeBytes [0x09, 0xFF] = .ok (.validate false, [0xFF]) ∧ decodeTableWord 8 64 = none ∧
    decodeTableWord 8 256 = none := by decide

theorem test_table_has_fourteen_rows : opcodeTable.map (·.mnemonic) = ["RESET", "START", "IDLE_WAIT", "RST_HIGH",
    "START_LOW", "RELEASE", "ACK_LOW", "ACK_HIGH", "BIT_LOW", "BIT_HIGH", "DECODE", "VALIDATE", "UNUSED_101x",
    "UNUSED_11xx"] := by decide

theorem test_placed_word_runs : after (step (State.reset.withFetchWord 8 0b010000)) (fun t =>
    decide (t.st = St.RST_HIGH)) = true := by decide

/-! ### Control: vectors E1, E3, N2 to N5 -/

theorem test_reset_E3 : after (step { at' St.BIT_HIGH HIGH with
      inp := { quiet HIGH with rst := true }, raw := [(0, 4)], pcnt := 1, buf := bytes 1 2 3 4 5 }) (fun t =>
    decide (t.st = St.IDLE ∧ t.raw = [(0, 4)] ∧ t.pcnt = 0 ∧ t.buf = bytes 0 0 0 0 0 ∧ t.valid = false ∧
      t.status = Status.NONE ∧ t.done = false)) = true := by decide

theorem test_reset_beats_start_E1 : after (step (fresh { quiet HIGH with rst := true, startI := true } [])) (fun t =>
    decide (t.st = St.IDLE)) = true := by decide

theorem test_start_in_done_cycle_N2 : after (step { fresh { quiet HIGH with startI := true } [] with
      valid := true, status := Status.OK, buf := bytes 0x02 0x8C 0x01 0x08 0x97, done := true }) (fun t =>
    decide (t.st = St.RST_HIGH ∧ t.buf = bytes 0 0 0 0 0 ∧ t.valid = false ∧ t.status = Status.NONE ∧
      t.done = false)) = true := by decide

theorem test_idle_wait_N3 : after (step { fresh (quiet HIGH) [] with
      valid := true, status := Status.OK, done := true }) (fun t =>
    decide (t.st = St.IDLE ∧ t.valid = true ∧ t.status = Status.OK ∧ t.done = false)) = true := by decide

theorem test_ignored_start_N4 : after (step { at' St.ACK_LOW LOW with
      inp := { quiet LOW with startI := true }, pcnt := 3 }) (fun t =>
    decide (t.st = St.ACK_LOW ∧ t.pcnt = 4)) = true := by decide

theorem test_unused_11xx_N5 : after (step (at' 12 HIGH)) (fun t => decide (t.st = St.IDLE)) = true := by decide

theorem test_unused_101x : after (step { at' 11 LOW with valid := true }) (fun t =>
    decide (t.st = St.IDLE ∧ t.valid = true)) = true := by decide

/-! ### Wait states: section 2.2 -/

theorem test_rst_high : after (step (at' St.RST_HIGH LOW)) (fun t => decide (t.st = St.RST_HIGH ∧ t.wcnt = 1)) = true ∧
    after (step { at' St.RST_HIGH LOW with wcnt := 1 }) (fun t =>
      decide (t.st = St.START_LOW ∧ t.wcnt = 0 ∧ dqDriveLowO t = true)) = true := by decide

theorem test_start_low : after (step { at' St.START_LOW LOW with wcnt := 1 }) (fun t =>
      decide (t.st = St.START_LOW ∧ t.wcnt = 2)) = true ∧
    after (step { at' St.START_LOW LOW with wcnt := 2 }) (fun t =>
      decide (t.st = St.RELEASE ∧ t.wcnt = 0 ∧ dqDriveLowO t = false)) = true := by decide

theorem test_release : after (step { at' St.RELEASE HIGH with wcnt := 1 }) (fun t =>
    decide (t.st = St.ACK_LOW ∧ t.wcnt = 0 ∧ t.pcnt = 0)) = true := by decide

/-! ### Measurements: vectors T1 to T7, A1, A4, A5 and program P1 -/

theorem test_ack_low_A4 : after (step { at' St.ACK_LOW HIGH with pcnt := 10 }) (fun t =>
    decide (t.st = St.ACK_HIGH ∧ t.pcnt = 0 ∧ t.done = false)) = true := by decide

theorem test_ack_low_A5 : after (step { at' St.ACK_LOW LOW with pcnt := 10 }) (fun t =>
    decide (t.st = St.IDLE ∧ t.pcnt = 0 ∧ t.done = true ∧ t.status = Status.TIMEOUT_ACK)) = true := by decide

theorem test_ack_high_A1 : after (step { at' St.ACK_HIGH LOW with pcnt := 7, idx := 5 }) (fun t =>
    decide (t.st = St.BIT_LOW ∧ t.idx = 0 ∧ t.pcnt = 0)) = true := by decide

theorem test_ack_high_A2 : after (step { at' St.ACK_HIGH HIGH with pcnt := 10 }) (fun t =>
    decide (t.st = St.IDLE ∧ t.status = Status.TIMEOUT_ACK ∧ t.valid = false)) = true := by decide

theorem test_bit_low_T4 : after (step { at' St.BIT_LOW HIGH with pcnt := 10, idx := 3 }) (fun t =>
    decide (t.st = St.BIT_HIGH ∧ t.raw = [(6, 10)] ∧ t.pcnt = 0)) = true := by decide

theorem test_bit_low_T5 : after (step { at' St.BIT_LOW LOW with pcnt := 10 }) (fun t =>
    decide (t.st = St.BIT_HIGH ∧ t.raw = [(0, 255)] ∧ t.done = false)) = true := by decide

theorem test_bit_high_T7 : after (step { at' St.BIT_HIGH HIGH with pcnt := 10, idx := 19 }) (fun t =>
    decide (t.st = St.BIT_LOW ∧ t.idx = 20 ∧ t.raw = [(39, 255)])) = true := by decide

theorem test_bit_high_last_P1 : after (step { at' St.BIT_HIGH LOW with pcnt := 6, idx := 39 }) (fun t =>
    decide (t.st = St.DECODE ∧ t.idx = 0 ∧ t.raw = [(79, 6)])) = true := by decide

/-! ### DECODE and VALIDATE: vectors Y3, Y9, K2, K4 -/

theorem test_decode_Y3 : after (step { at' St.DECODE LOW with
      idx := 39, raw := [(78, 4), (79, 6)], buf := bytes 0x02 0x8C 0x01 0x08 0x4B }) (fun t =>
    decide (t.st = St.VALIDATE ∧ t.buf = bytes 0x02 0x8C 0x01 0x08 0x97)) = true := by decide

theorem test_decode_Y9 : after (step { at' St.DECODE LOW with
      raw := [(0, 255), (1, 3)], buf := bytes 9 8 7 6 5 }) (fun t =>
    decide (t.st = St.IDLE ∧ t.status = Status.TIMEOUT_BIT ∧ t.done = true ∧ t.buf = bytes 9 8 7 6 5)) = true := by decide

theorem test_decode_tie_and_wrap_Y4_Y5 :
    shiftIn 0xFF (pairBit 1 2) = 0xFF ∧ shiftIn 0x01 (pairBit 5 5) = 0x02 := by decide

theorem test_validate_K2 : after (step { at' St.VALIDATE LOW with buf := bytes 0x02 0x8C 0x01 0x08 0x00 }) (fun t =>
    decide (t.st = St.IDLE ∧ t.valid = false ∧ t.status = Status.CHECKSUM ∧ t.done = true)) = true := by decide

theorem test_validate_K4 : after (step { at' St.VALIDATE LOW with buf := bytes 0xFF 0xFF 0xFF 0xFF 0xFC }) (fun t =>
    decide (t.valid = true ∧ t.status = Status.OK ∧ t.buf = bytes 0xFF 0xFF 0xFF 0xFF 0xFC)) = true := by decide

/-! ### Outputs, host and stimulus: P1's end state, vectors H1 to H5, V1, program P4, 30_encoding.md R97 -/

theorem test_data_out_P1 : dataO { at' St.IDLE HIGH with buf := bytes 0x02 0x8C 0x01 0x08 0x97 } = 0x028C010897 := by
  decide

theorem test_host_seed_H1 : initialLastTime build 0 = 4294965296 := by decide

theorem test_elapsed_H2 : elapsed build 50 (2 ^ 32 - 100) = 150 := by decide

/-- A state whose host makes a call at time `now`. -/
def calling (c : HostCall) (last now : Nat) : State :=
  { fresh { quiet HIGH with call := some c } [] with
    host := { lastTime := last, now := now, phase := .ready, result := none } }

theorem test_rate_limited_H3_H5 : rateLimited (calling (.read false) 0xFFFFFF00 0x500) (.read false) = true ∧
    rateLimited (calling (.read false) 0 1999) (.read false) = true ∧
    rateLimited (calling (.read true) 0 1999) (.read true) = false := by decide

theorem test_acquires_H4_H5 : rateLimited (calling (.read false) 0xFFFFFF00 0x700) (.read false) = false ∧
    rateLimited (calling (.read false) 0 2000) (.read false) = false ∧
    (hostMove (calling (.read false) 0xFFFFFF00 0x700)).lastTime = 0x700 := by decide

theorem test_host_value_V1 : hostReturn { at' St.IDLE HIGH with
      valid := true, buf := bytes 0x02 0x8C 0x01 0x08 0x97 } .value = .valueOf 652 true := by decide

theorem test_encoding_P4 : ((Program.mk build ⟨5, 2, 7⟩ [.start 0] [.pre, .hold LOW]).encoding 10).map
      (fun i => (i.startI, i.dqI)) =
    [(true, true), (false, true), (false, true), (false, false), (false, false), (false, false), (false, true),
      (false, true), (false, false), (false, false)] := by decide

/-- 30_encoding.md R96: the `cmd` track sets `rst` and `start_i` in every cycle, after the end of a line track without HOLD
too. -/
theorem test_commands_outlive_the_line_track :
    ((Program.mk build ⟨5, 2, 7⟩ [.start 0, .start 7, .reset 5 2] [.level LOW 3]).encoding 9).map
      (fun i => (i.rst, i.startI)) =
    [(false, true), (false, false), (false, false), (false, false), (false, false), (true, false), (true, false),
      (false, true), (false, false)] := by decide

theorem test_byte_is_msb_first : byteRuns ⟨5, 2, 7⟩ 0x8C =
    [(LOW, some 5), (HIGH, some 7), (LOW, some 5), (HIGH, some 2), (LOW, some 5), (HIGH, some 2), (LOW, some 5),
      (HIGH, some 2), (LOW, some 5), (HIGH, some 7), (LOW, some 5), (HIGH, some 7), (LOW, some 5), (HIGH, some 2),
      (LOW, some 5), (HIGH, some 2)] := by decide

/-! ### How a concrete state is shown to meet the invariants -/

theorem get_mem {m : Memory} {k v : Nat} (h : m.get k = some v) : (k, v) ∈ m := by
  induction m with
  | nil => cases h
  | cons e m ih =>
    obtain ⟨j, w⟩ := e
    unfold Memory.get at h
    by_cases hj : j = k
    · rw [if_pos hj] at h; cases h; rw [hj]; exact List.mem_cons_self
    · rw [if_neg hj] at h; exact List.mem_cons_of_mem _ (ih h)

/-- The invariant of the registers, as a check that evaluates. -/
def invHolds (s : State) : Bool :=
  s.cfg.ok && decide (s.st.toNat ≤ 9) && decide (s.idx.toNat ≤ 39) && decide (s.wcnt < waitLength s) &&
    decide (s.pcnt ≤ s.cfg.budget) &&
    decide ((s.st = St.ACK_LOW ∨ s.st = St.ACK_HIGH ∨ s.st = St.BIT_LOW ∨ s.st = St.BIT_HIGH) ∨ s.pcnt = 0) &&
    s.raw.wf && s.raw.all (fun e => decide (e.2 ≤ s.cfg.budget ∨ e.2 = s.cfg.timeout)) &&
    (List.range (written s)).all (fun k => (s.raw.get k).isSome) && decide (s.valid = true ↔ s.status = Status.OK) &&
    decide (s.status.toNat ≤ 4) && decide (s.st = St.IDLE ∨ (s.status = Status.NONE ∧ s.done = false)) &&
    decide (s.done = false ∨ s.status ≠ Status.NONE) &&
    decide (s.host.now < 2 ^ s.cfg.wTime ∧ s.host.lastTime < 2 ^ s.cfg.wTime) &&
    (!hostDrives s.host || s.inp.startI)

theorem regInv_of_check {s : State} (h : invHolds s = true) : RegInv s := by
  simp only [invHolds, Bool.and_eq_true, decide_eq_true_eq, List.all_eq_true, List.mem_range, Bool.or_eq_true,
    Bool.not_eq_true'] at h
  obtain ⟨⟨⟨⟨⟨⟨⟨⟨⟨⟨⟨⟨⟨⟨h1, h2⟩, h3⟩, h4⟩, h5⟩, h6⟩, h7⟩, h8⟩, h9⟩, h10⟩, h11⟩, h12⟩, h13⟩, h14⟩, h15⟩ := h
  refine ⟨h1, h2, h3, h4, h5, fun hm => h6.resolve_left hm, h7, fun k v hk => h8 _ (get_mem hk),
    fun k hk => Option.isSome_iff_exists.1 (h9 k hk), h10, h11, fun hs => h12.resolve_left hs, ?_, h14, ?_⟩
  · intro hd; rcases h13 with h | h
    · rw [hd] at h; cases h
    · exact h
  · intro hd; rcases h15 with h | h
    · rw [hd] at h; cases h
    · exact h

theorem payloadInv_of_check {s : State} (h0 : decodedCount s = 0)
    (hb : ∀ (k : Nat) (h : k < 5), s.buf[k] = 0) (hs : s.st ≠ St.IDLE ∨ s.status = Status.NONE) : PayloadInv s := by
  refine ⟨fun k h => ?_, fun i hi => ?_, fun hi ht => ?_, fun hi ht => ?_, fun hi ht => ?_⟩
  · rw [h0, decodedByte_zero, hb k h]; rfl
  · rw [h0] at hi; exact absurd hi (Nat.not_lt_zero i)
  all_goals
    rcases hs with h | h
    · exact absurd hi h
    · rw [h] at ht; exact absurd ht (by decide)

/-- A script without a reset. -/
theorem noReset_of_script {s : State} {n : Nat} (h0 : s.inp.rst = false) (h : s.stim.all (fun i => !i.rst) = true)
    (hn : n ≤ s.stim.length + 1) : NoReset s n := by
  intro j hj
  cases j with
  | zero => exact h0
  | succ j =>
    have hl : j < s.stim.length := by omega
    have := List.all_eq_true.1 h _ (List.getElem_mem hl)
    simpa [inputAt, hl] using this

/-- A script that holds the line at one level. -/
theorem lineHolds_of_script {s : State} {L : Level} {n : Nat} (h0 : s.inp.dqI = L)
    (h : s.stim.all (fun i => decide (i.dqI = L)) = true) (hn : n ≤ s.stim.length + 1) : LineHolds s L n := by
  intro j hj
  cases j with
  | zero => exact h0
  | succ j =>
    have hl : j < s.stim.length := by omega
    have := List.all_eq_true.1 h _ (List.getElem_mem hl)
    simpa [inputAt, hl] using this

/-! ### Witnesses: for every statement with hypotheses, concrete states and operands that meet them together -/

/-- Every clause of the statement: an operation that answers a next state, and one that faults. -/
theorem witness_StepRunsSelectedOperation :
    ((at' St.IDLE HIGH).cfg.ok = true ∧ decodeSel (selectorOf false false St.IDLE) = .idleWait ∧
      ∃ t, exec .idleWait (at' St.IDLE HIGH) = .next t) ∧
    (at' St.DECODE HIGH).cfg.ok = true ∧ decodeSel (selectorOf false false St.DECODE) = .decode false ∧
      exec (.decode false) (at' St.DECODE HIGH) = .fault (.rawNoValue 0) :=
  ⟨⟨by decide, by decide, _, rfl⟩, by decide, by decide, rfl⟩

theorem witness_EncodingIsABijection :
    (Instr.unused101x true 11).wf = true ∧ (Instr.unused11xx false 12).wf = true ∧ (Instr.reset true 15).wf = true := by
  decide

theorem witness_PlacedWordRunsNext : (0 : Nat) < 64 ∧ (63 : Nat) < 64 ∧ (at' St.IDLE HIGH).cfg.ok = true ∧
    ∃ t, exec (.reset true 15) ((at' St.IDLE HIGH).withFetchWord 8 63) = .next t :=
  ⟨by decide, by decide, by decide, _, rfl⟩

/-- Both sides of the equivalence: BUDGET at 2^W_CNT − 2 and above it. -/
theorem witness_BadBuildIsRefused : step { at' St.IDLE HIGH with cfg := { build with budget := 255 } } =
      .refused .badBuild ∧ { build with budget := 254 }.ok = true ∧ { build with tIdle := 5 }.ok = false :=
  ⟨rfl, by decide, by decide⟩

theorem witness_DefaultBuildsAreSound : 1000000 ≤ 1000000 ∧ 1000000 / 1000 ≤ 2 ^ 32 - 2 ∧
    1000000 ≤ (2 ^ 32 - 2) * 1000 + 999 ∧ ((2 ^ 32 - 2) * 1000 + 999) / 1000 ≤ 2 ^ 32 - 2 := by decide

theorem witness_ResetWinsFromEveryState : ∃ s : State, s.cfg.ok = true ∧ s.inp.rst = true ∧ s.st = St.VALIDATE :=
  ⟨{ at' St.VALIDATE HIGH with inp := { quiet HIGH with rst := true } }, by decide⟩

theorem witness_ResetStateIsAsStated : State.reset = State.reset ∧
    ∃ b script, fresh (quiet LOW) [] = State.boot b script := ⟨rfl, _, _, rfl⟩

theorem witness_UnusedOperation : Instr.unused101x true 10 = .unused101x true 10 ∧
    Instr.unused11xx false 15 = .unused11xx false 15 ∧ (12 : Nat) ≤ (15 : StCode).toNat := by decide

/-- A wait state at its last cycle, before it, and one cycle before its counter is full. -/
theorem witness_waits : (at' St.RST_HIGH LOW).cfg.ok = true ∧ (at' St.RST_HIGH LOW).wcnt + 1 ≠ build.tIdle ∧
    (at' St.RST_HIGH LOW).wcnt + 1 < 2 ^ build.wWait ∧ { at' St.RST_HIGH LOW with wcnt := 1 }.wcnt + 1 = build.tIdle ∧
    { at' St.START_LOW LOW with wcnt := 2 }.wcnt + 1 = build.tStart ∧ (at' St.START_LOW LOW).wcnt + 1 ≠ build.tStart ∧
    { at' St.RELEASE LOW with wcnt := 1 }.wcnt + 1 = build.tPull ∧ (at' St.RELEASE LOW).wcnt + 1 ≠ build.tPull := by decide

/-- The three cases of a handshake poll: the other level, the budget reached, the budget not reached. -/
theorem witness_handshake : ∀ c ∈ [St.ACK_LOW, St.ACK_HIGH], ∀ l ∈ [LOW, HIGH], ∀ n ∈ [0, 9, 10],
    { at' c l with pcnt := n }.cfg.ok = true ∧ { at' c l with pcnt := n }.pcnt ≤ build.budget ∧
      ({ at' c l with pcnt := n }.pcnt = build.budget ∨ { at' c l with pcnt := n }.pcnt < build.budget) := by decide

/-- The first and the last bit, with the three cases of a poll; a count above the budget too. -/
theorem witness_bit_polls : ∀ i ∈ [(0 : BitIndex), 39], ∀ l ∈ [LOW, HIGH], ∀ n ∈ [0, 9, 10, 11],
    { at' St.BIT_LOW l with idx := i, pcnt := n }.idx.toNat ≤ 39 ∧
      (build.budget ≤ { at' St.BIT_HIGH l with idx := i, pcnt := n }.pcnt ∨
        { at' St.BIT_HIGH l with idx := i, pcnt := n }.pcnt < build.budget) := by decide

/-- Both cases of a pair at both ends of the index: timed out (either entry), and a count in both entries. -/
theorem witness_DecodeOperation : ∀ i ∈ [(0 : BitIndex), 38, 39], ∀ lo ∈ [0, 4, 255], ∀ hi ∈ [0, 6, 255],
    let s := { at' St.DECODE LOW with idx := i, raw := [(2 * i.toNat, lo), (2 * i.toNat + 1, hi)] }
    s.idx.toNat ≤ 39 ∧ s.raw.get (2 * s.idx.toNat) = some lo ∧ s.raw.get (2 * s.idx.toNat + 1) = some hi := by decide

/-- Every clause: no low-phase entry, a low-phase entry alone, an index above 39 in DECODE and on a poll ended by the level
or by the budget; and an operation that does not fault: a poll above 39 that continues. -/
theorem witness_OperationFaultsExactlyOnMissingEntries :
    exec (.decode false) (at' St.DECODE LOW) = .fault (.rawNoValue 0) ∧
    exec (.decode true) { at' St.DECODE LOW with raw := [(78, 4)], idx := 39 } = .fault (.rawNoValue 79) ∧
    exec (.decode false) { at' St.DECODE LOW with idx := 40 } = .fault (.noSuchEntry .raw 80) ∧
    exec (.bitLow false) { at' St.BIT_LOW HIGH with idx := 40 } = .fault (.noSuchEntry .raw 80) ∧
    exec (.bitLow true) { at' St.BIT_LOW LOW with idx := 63, pcnt := 10 } = .fault (.noSuchEntry .raw 126) ∧
    exec (.bitHigh false) { at' St.BIT_HIGH LOW with idx := 40 } = .fault (.noSuchEntry .raw 81) ∧
    exec (.bitHigh true) { at' St.BIT_HIGH HIGH with idx := 63, pcnt := 10 } = .fault (.noSuchEntry .raw 127) ∧
    ∃ t, exec (.bitLow false) { at' St.BIT_LOW LOW with idx := 40, pcnt := 9 } = .next t :=
  ⟨rfl, rfl, rfl, rfl, rfl, rfl, rfl, _, rfl⟩

theorem witness_DataOutIsInArrivalOrder : (0 : Nat) < 40 ∧ (39 : Nat) < 40 := by decide

theorem witness_ObservedDataIsFreeWhenInvalid :
    { at' St.IDLE HIGH with valid := true }.valid = true ∧ (at' St.IDLE HIGH).valid = false := by decide

theorem witness_IgnoredStartHasNoEffect : (at' St.ACK_LOW LOW).st ≠ St.IDLE ∧ (at' 12 LOW).st ≠ St.IDLE := by decide

theorem witness_LineIgnoredOutsideMeasurements : ¬ Measuring (at' St.START_LOW LOW) ∧ ¬ Measuring (at' 15 LOW) := by
  unfold Measuring; decide

/-- Every writer: a write of the Raw Pulse Table in either state, and of the buffer by RESET, START and DECODE. -/
theorem witness_MemoriesHaveTheirWriters :
    after (step (at' St.BIT_LOW HIGH)) (fun t => decide (t.raw ≠ [])) = true ∧
    after (step (at' St.BIT_HIGH LOW)) (fun t => decide (t.raw ≠ [])) = true ∧
    after (step { fresh { quiet HIGH with rst := true } [] with buf := bytes 1 2 3 4 5 }) (fun t =>
      decide (t.buf ≠ bytes 1 2 3 4 5)) = true ∧
    after (step { fresh { quiet HIGH with startI := true } [] with buf := bytes 1 2 3 4 5 }) (fun t =>
      decide (t.buf ≠ bytes 1 2 3 4 5)) = true ∧
    after (step { at' St.DECODE LOW with raw := [(0, 4), (1, 6)] }) (fun t => decide (t.buf ≠ bytes 0 0 0 0 0)) = true := by
  decide

/-- A step whose next state is `stepped`. -/
theorem step_stepped {s : State} (h : after (step s) (fun _ => true) = true) : step s = .next (stepped s) := by
  unfold stepped
  cases hs : step s with
  | next t => rfl
  | fault f => rw [hs] at h; cases h
  | refused r => rw [hs] at h; cases h

theorem witness_ValidComesOnlyFromAPassingChecksum : ∃ s t : State, step s = .next t ∧ s.valid = false ∧
    t.valid = true := ⟨at' St.VALIDATE LOW, _, step_stepped (by decide), by decide, by decide⟩

/-- An attempt ends, and the step after it has a next state. -/
theorem witness_DonePulsesWhenAnAttemptEnds : ∃ s t u : State, RegInv s ∧ step s = .next t ∧ t.done = true ∧
    step t = .next u :=
  ⟨{ at' St.ACK_LOW LOW with pcnt := 10, stim := [quiet LOW] }, _, _, regInv_of_check (by decide),
    step_stepped (by decide), by decide, step_stepped (by decide)⟩

theorem witness_ResultsHoldWhileIdle : ∃ s t : State, s.st = St.IDLE ∧ s.inp.rst = false ∧ s.inp.startI = false ∧
    step s = .next t := ⟨at' St.IDLE HIGH, _, by decide, by decide, by decide, step_stepped (by decide)⟩

/-- Both codes: TIMEOUT_ACK in either handshake state, TIMEOUT_BIT at the last bit. -/
theorem witness_FailureRecordsOnlyItsCode :
    (∃ s t : State, RegInv s ∧ s.st ≠ St.IDLE ∧ step s = .next t ∧ t.status = Status.TIMEOUT_ACK) ∧
    (∃ s t : State, RegInv s ∧ s.st = St.ACK_HIGH ∧ step s = .next t ∧ t.status = Status.TIMEOUT_ACK) ∧
    ∃ s t : State, RegInv s ∧ s.st ≠ St.IDLE ∧ step s = .next t ∧ t.status = Status.TIMEOUT_BIT :=
  ⟨⟨{ at' St.ACK_LOW LOW with pcnt := 10 }, _, regInv_of_check (by decide), by decide, step_stepped (by decide),
    by decide⟩,
   ⟨{ at' St.ACK_HIGH HIGH with pcnt := 10 }, _, regInv_of_check (by decide), by decide, step_stepped (by decide),
    by decide⟩,
   ⟨{ at' St.DECODE LOW with idx := 39, raw := fullTable 4 255 }, _, regInv_of_check (by decide +kernel), by decide,
    step_stepped (by decide +kernel), by decide +kernel⟩⟩

theorem witness_SequencerKeepsItsOrder : ∃ s t : State, RegInv s ∧ step s = .next t ∧ s.inp.rst = false ∧
    (s.st, t.st) = (St.DECODE, St.VALIDATE) :=
  ⟨{ at' St.DECODE LOW with idx := 39, raw := fullTable 4 6 }, _, regInv_of_check (by decide +kernel),
    step_stepped (by decide +kernel), by decide, by decide +kernel⟩

/-- Scaled counts and shifted counts, at the last bit. -/
theorem witness_BitDependsOnTheRatioOnly : { at' St.DECODE LOW with idx := 39 }.idx.toNat ≤ 39 ∧ 0 < 3 ∧
    (12 = 3 * 4 ∧ 18 = 3 * 6) ∧ (9 = 4 + 5 ∧ 11 = 6 + 5) ∧ 4 ≠ build.timeout ∧ 6 ≠ build.timeout ∧
    12 ≠ build.timeout ∧ 18 ≠ build.timeout ∧ 9 ≠ build.timeout ∧ 11 ≠ build.timeout := by decide

/-- The frame of vector K1, which meets the hypotheses of every clause. -/
theorem witness_ChecksumDetectsWhatItCan :
    let s := { at' St.VALIDATE LOW with buf := bytes 0x02 0x8C 0x01 0x08 0x97 }
    s.buf[4].toNat = (s.buf[0].toNat + s.buf[1].toNat + s.buf[2].toNat + s.buf[3].toNat) % 256 ∧
      s.buf[0].toNat < 255 ∧ 0 < s.buf[1].toNat := by decide

theorem witness_ResetMeetsTheInvariants : build.ok = true := by decide

/-- Bit acquisition in its last bit, with every entry so far written: a busy state that meets the invariant. -/
theorem witness_StepKeepsInv : ∃ s t : State, RegInv s ∧ step s = .next t ∧ s.st = St.BIT_HIGH ∧ s.idx = 39 :=
  ⟨{ at' St.BIT_HIGH LOW with idx := 39, pcnt := 6, raw := fullTable 4 6 }, _, regInv_of_check (by decide +kernel),
    step_stepped (by decide), rfl, rfl⟩

theorem witness_StepNeverStops : RegInv { at' St.DECODE LOW with raw := fullTable 4 255 } :=
  regInv_of_check (by decide +kernel)

theorem witness_StepKeepsThePayload : ∃ s t : State, RegInv s ∧ PayloadInv s ∧ step s = .next t ∧ s.st = St.DECODE :=
  ⟨{ at' St.DECODE LOW with raw := fullTable 4 6 }, _, regInv_of_check (by decide +kernel),
    payloadInv_of_check (by decide) (by decide) (.inl (by decide)), step_stepped (by decide +kernel), rfl⟩

/-- Two states of bit 1's low phase that differ in an entry the attempt has not written. -/
theorem witness_StaleEntriesAreNeverObserved : ∃ s s' t : State, RegInv s ∧ RegInv s' ∧ SameButUnwrittenRaw s s' ∧
    step s = .next t ∧ s.raw ≠ s'.raw :=
  ⟨{ at' St.BIT_LOW LOW with idx := 1, raw := [(0, 4), (1, 6), (5, 7)] },
    { at' St.BIT_LOW LOW with idx := 1, raw := [(0, 4), (1, 6)] }, _, regInv_of_check (by decide),
    regInv_of_check (by decide),
    ⟨⟨rfl, rfl, rfl, rfl, rfl⟩, rfl, rfl, rfl, rfl, rfl, rfl, rfl, rfl, by decide⟩, step_stepped (by decide), by decide⟩

theorem witness_WaitStatesLastTheirParameter : ∃ s : State, RegInv s ∧ s.wcnt = 0 ∧ s.st = St.START_LOW ∧
    NoReset s (waitLength s) :=
  ⟨{ at' St.START_LOW LOW with stim := List.replicate 2 (quiet HIGH) }, regInv_of_check (by decide), rfl, rfl,
    noReset_of_script rfl (by decide) (by decide)⟩

theorem witness_FrameSyncHasItsDuration : ∃ s : State, RegInv s ∧ s.st = St.IDLE ∧ s.inp.startI = true ∧
    NoReset s (1 + s.cfg.tIdle + s.cfg.tStart + s.cfg.tPull) :=
  ⟨fresh { quiet HIGH with startI := true } (List.replicate 7 (quiet LOW)), regInv_of_check (by decide), rfl, rfl,
    noReset_of_script rfl (by decide) (by decide)⟩

/-- A measurement of 0 polls, and one of exactly BUDGET polls, at the last bit. -/
theorem witness_MeasurementCountsItsPolls :
    (∃ s : State, RegInv s ∧ Measuring s ∧ s.pcnt = 0 ∧ 0 ≤ s.cfg.budget ∧ NoReset s 1 ∧
      LineHolds s (expected s) 0 ∧ (inputAt s 0).dqI ≠ expected s) ∧
    ∃ s : State, RegInv s ∧ Measuring s ∧ s.pcnt = 0 ∧ 10 = s.cfg.budget ∧ NoReset s 11 ∧
      LineHolds s (expected s) 10 ∧ (inputAt s 10).dqI ≠ expected s :=
  ⟨⟨at' St.ACK_LOW HIGH, regInv_of_check (by decide), .inl rfl, rfl, by decide,
      noReset_of_script rfl (by decide) (by decide), fun j hj => absurd hj (Nat.not_lt_zero j), by decide⟩,
    { at' St.BIT_HIGH HIGH with
      idx := 39, raw := fullTable 4 6, stim := List.replicate 9 (quiet HIGH) ++ [quiet LOW] },
    regInv_of_check (by decide +kernel), .inr (.inr (.inr rfl)), rfl, by decide,
    noReset_of_script rfl (by decide) (by decide), by unfold LineHolds; decide, by decide⟩

theorem witness_MeasurementTimesOut : ∃ s : State, RegInv s ∧ Measuring s ∧ s.pcnt = 0 ∧
    NoReset s (s.cfg.budget + 1) ∧ LineHolds s (expected s) (s.cfg.budget + 1) :=
  ⟨{ at' St.BIT_LOW LOW with stim := List.replicate 10 (quiet LOW) }, regInv_of_check (by decide),
    .inr (.inr (.inl rfl)), rfl, noReset_of_script rfl (by decide) (by decide),
    lineHolds_of_script rfl (by decide) (by decide)⟩

/-- Both lines: held HIGH (no sensor) and held LOW. -/
theorem witness_NoSensorEndsTheAttempt : ∀ L : Level, ∃ s : State, RegInv s ∧ s.st = St.IDLE ∧ s.inp.startI = true ∧
    NoReset s (1 + s.cfg.tIdle + s.cfg.tStart + s.cfg.tPull + 1 + (s.cfg.budget + 1)) ∧
    LineHolds s L (1 + s.cfg.tIdle + s.cfg.tStart + s.cfg.tPull + 1 + (s.cfg.budget + 1)) := fun L =>
  ⟨fresh { quiet L with startI := true } (List.replicate 19 (quiet L)), regInv_of_check (by cases L <;> decide), rfl,
    rfl, noReset_of_script rfl (by cases L <;> decide) (by cases L <;> decide),
    lineHolds_of_script rfl (by cases L <;> decide) (by cases L <;> decide)⟩

theorem witness_EveryAttemptEndsInTime : RegInv (at' St.RST_HIGH HIGH) ∧ (at' St.RST_HIGH HIGH).st ≠ St.IDLE :=
  ⟨regInv_of_check (by decide), by decide⟩

/-- A table without a timeout, and one whose lowest timed-out pair is the first. -/
theorem witness_DecodePhaseYieldsTheFrame :
    (∃ s : State, RegInv s ∧ PayloadInv s ∧ s.st = St.DECODE ∧ s.idx = 0 ∧ (∀ i < 40, ¬ PairTimedOut s i) ∧
      NoReset s 41) ∧
    ∃ s : State, RegInv s ∧ PayloadInv s ∧ s.st = St.DECODE ∧ s.idx = 0 ∧ PairTimedOut s 0 ∧ NoReset s 1 :=
  ⟨⟨{ at' St.DECODE LOW with raw := fullTable 4 6, stim := List.replicate 40 (quiet HIGH) },
      regInv_of_check (by decide +kernel), payloadInv_of_check (by decide) (by decide) (.inl (by decide)), rfl, rfl,
      by unfold PairTimedOut; decide +kernel, noReset_of_script rfl (by decide +kernel) (by decide)⟩,
    { at' St.DECODE LOW with raw := fullTable 4 255 }, regInv_of_check (by decide +kernel),
    payloadInv_of_check (by decide) (by decide) (.inl (by decide)), rfl, rfl, .inr (by decide +kernel),
    noReset_of_script rfl (by decide) (by decide)⟩

theorem witness_CritAlwaysFalls : RegInv (at' St.BIT_LOW LOW) ∧ critO (at' St.BIT_LOW LOW) = true :=
  ⟨regInv_of_check (by decide), by decide⟩

/-- A script of `n` cycles, from cycle `a` on, whose line is `f` of the cycle. -/
def lineOf (f : Nat → Level) : Nat → Nat → List Inputs
  | _, 0 => []
  | a, n + 1 => quiet (f a) :: lineOf f (a + 1) n

/-- An accepted START with a line whose first ACK_LOW poll is in cycle 8. -/
def attempt (f : Nat → Level) : State := fresh { quiet HIGH with startI := true } (lineOf f 1 200)

theorem attempt_noReset (f : Nat → Level) (n : Nat) (h : n ≤ 201) : NoReset (attempt f) n := by
  have all : ∀ m a, (lineOf f a m).all (fun i => !i.rst) = true ∧ (lineOf f a m).length = m := by
    intro m
    induction m with
    | zero => intro a; exact ⟨rfl, rfl⟩
    | succ m ih => intro a; simp [lineOf, quiet, ih (a + 1)]
  exact noReset_of_script rfl (all 200 1).1 (by
    have hl : (attempt f).stim.length = 200 := (all 200 1).2
    omega)

/-- The hypotheses of AttemptYieldsTheFrameInTime in a state of the test configuration. -/
theorem attempt_meets {f : Nat → Level} {k : Nat → Nat} {b : Nat → Nat} (hI : invHolds (attempt f) = true)
    (hk : ∀ m < 82, k m ≤ 10) (hb : ∀ m, pulsesBefore k m = b m) (hn : b 82 + 49 ≤ 201)
    (hl : ∀ m < 82, ∀ j ≤ k m, (inputAt (attempt f) (8 + b m + j)).dqI = if j < k m then levelOf m else !levelOf m) :
    RegInv (attempt f) ∧ (attempt f).st = St.IDLE ∧ (attempt f).inp.startI = true ∧
      (∀ m < 82, k m ≤ (attempt f).cfg.budget) ∧
      LineFollows (attempt f) (1 + (attempt f).cfg.tIdle + (attempt f).cfg.tStart + (attempt f).cfg.tPull) k ∧
      NoReset (attempt f)
        (1 + (attempt f).cfg.tIdle + (attempt f).cfg.tStart + (attempt f).cfg.tPull + pulsesBefore k 82 + 41) :=
  ⟨regInv_of_check hI, rfl, rfl, hk, fun m hm j hj => by rw [hb]; exact hl m hm j hj,
    attempt_noReset f _ (by rw [hb]; show 8 + b 82 + 41 ≤ 201; omega)⟩

/-- Two lines: every measurement gives 0 (the frame is all zeros, and valid); every LOW gives 0 and every HIGH 1 (the frame
is all ones, and its checksum fails). -/
theorem witness_AttemptYieldsTheFrameInTime : ∀ d ∈ [0, 1], ∃ (s : State) (k : Nat → Nat), k 3 = d ∧ RegInv s ∧
    s.st = St.IDLE ∧ s.inp.startI = true ∧ (∀ m < 82, k m ≤ s.cfg.budget) ∧
    LineFollows s (1 + s.cfg.tIdle + s.cfg.tStart + s.cfg.tPull) k ∧
    NoReset s (1 + s.cfg.tIdle + s.cfg.tStart + s.cfg.tPull + pulsesBefore k 82 + 41) := by
  intro d hd
  simp only [List.mem_cons, List.not_mem_nil, or_false] at hd
  rcases hd with rfl | rfl
  · exact ⟨attempt fun c => decide (c % 2 = 0), fun _ => 0, rfl,
      attempt_meets (b := id) (by decide) (fun m _ => Nat.zero_le _) (by intro m; simp [pulsesBefore]) (by decide)
        (by decide +kernel)⟩
  · refine ⟨attempt fun c => decide (c % 3 = 2 ∨ c % 3 = 0), fun m => m % 2, rfl,
      attempt_meets (b := fun m => m + m / 2) (by decide) (fun m _ => by omega) ?_ (by decide) (by decide +kernel)⟩
    intro m
    induction m with
    | zero => rfl
    | succ m ih =>
      have e : pulsesBefore (fun m => m % 2) (m + 1) = pulsesBefore (fun m => m % 2) m + (m % 2 + 1) := by
        simp [pulsesBefore, Finset.sum_range_succ]
      rw [e, ih]
      omega

/-- A track with HOLD, and one whose commands go on after the end of the line track; the build is sound. -/
theorem witness_CommandTrackDrivesItsCycles : (4 : Nat) < 5 ∧ build.ok = true ∧
    Cmd.reset 9 1 ∈ (Program.mk build ⟨5, 2, 7⟩ [.start 0, .start 7, .reset 9 1] [.level HIGH 3]).cmds ∧ (9 : Nat) < 10 := by
  decide

/-- Vector H2: across the wrap, and the largest elapsed time. -/
theorem witness_ElapsedSurvivesTheWrap : 2 ^ 32 - 100 < 2 ^ build.wTime ∧ 150 < 2 ^ build.wTime ∧
    2 ^ 32 - 1 < 2 ^ build.wTime := by decide

/-- Vector H8 (the first read at once) and the corner of 45_host.md R201 (2^32 − 2000 microseconds later). -/
theorem witness_FirstReadAcquires : ∀ d ∈ [0, 2 ^ 32 - 2001, 2 ^ 32 - 2000, 2 ^ 32 - 1],
    let s := calling (.read false) 4294965296 d
    (0 : Nat) < 2 ^ s.cfg.wTime ∧ d < 2 ^ s.cfg.wTime ∧ s.cfg.minInterval < 2 ^ s.cfg.wTime ∧
      s.host.lastTime = (HostSide.init s.cfg 0).lastTime ∧ s.host.now = (0 + d) % 2 ^ s.cfg.wTime ∧
      (d + s.cfg.minInterval < 2 ^ s.cfg.wTime ∨ 2 ^ s.cfg.wTime ≤ d + s.cfg.minInterval) := by decide

/-- Vector H3, for each of the two calls without force. -/
theorem witness_RateLimitedReadDoesNothing : ∀ c ∈ [HostCall.read false, .value], ∃ s t : State, step s = .next t ∧
    s.host.phase = .ready ∧ s.inp.call = some c ∧ (c = .read false ∨ c = .value) ∧
    elapsed s.cfg s.host.now s.host.lastTime < s.cfg.minInterval ∧
    s.st = St.IDLE ∧ s.inp.rst = false ∧ s.inp.startI = false := by
  intro c hc
  exact ⟨calling c 0xFFFFFF00 0x500, _, step_stepped (by revert c; decide), rfl, rfl, by simpa using hc, by revert c; decide,
    rfl, rfl, rfl⟩

/-- A state whose host stands at `p`, in a cycle with START at `b`. -/
def hosting (p : HostPhase) (c : StCode) (b : Bool) : State :=
  { at' c HIGH with
    inp := { quiet HIGH with startI := b }
    host := { lastTime := 0, now := 5000, phase := p, result := none } }

/-- Every clause: vector H4, a forced read (H7), a busy and an idle block, the START cycle. -/
theorem witness_AcquiringReadStartsAnAttempt :
    (∃ s t : State, step s = .next t ∧ s.host.phase = .ready ∧ s.inp.call = some (.read false) ∧
      s.cfg.minInterval ≤ elapsed s.cfg s.host.now s.host.lastTime) ∧
    (∃ s t : State, step s = .next t ∧ s.host.phase = .ready ∧ s.inp.call = some (.read true)) ∧
    (∃ s t : State, step s = .next t ∧ s.host.phase = .waitIdle .value ∧ s.st ≠ St.IDLE) ∧
    (∃ s t : State, step s = .next t ∧ s.host.phase = .waitIdle .value ∧ s.st = St.IDLE) ∧
    ∃ s t : State, step s = .next t ∧ s.host.phase = .drive .value ∧ s.st = St.IDLE ∧ s.inp.rst = false ∧
      s.inp.startI = true :=
  ⟨⟨calling (.read false) 0xFFFFFF00 0x700, _, step_stepped (by decide), rfl, rfl, by decide⟩,
    ⟨calling (.read true) 0 1999, _, step_stepped (by decide), rfl, rfl⟩,
    ⟨hosting (.waitIdle .value) St.RST_HIGH false, _, step_stepped (by decide), rfl, by decide⟩,
    ⟨hosting (.waitIdle .value) St.IDLE false, _, step_stepped (by decide), rfl, rfl⟩,
    hosting (.drive .value) St.IDLE true, _, step_stepped (by decide), rfl, rfl, rfl, rfl⟩

/-- Beside a busy block; beside an IDLE block with `done`, after `busy`, and with neither. -/
theorem witness_HostWaitEndsWithTheAttempt :
    (∃ s : State, RegInv s ∧ s.st ≠ St.IDLE ∧ s.host.phase = .waitDone .value true) ∧
    ∀ d seen : Bool, ∃ s t : State, step s = .next t ∧ s.st = St.IDLE ∧ s.host.phase = .waitDone .value seen ∧ s.done = d :=
  ⟨⟨hosting (.waitDone .value true) St.ACK_LOW false, regInv_of_check (by decide), by decide, rfl⟩,
    fun d seen => ⟨{ hosting (.waitDone .value seen) St.IDLE false with done := d }, _,
      step_stepped (by cases d <;> cases seen <;> decide), rfl, rfl, rfl⟩⟩

/-- Each of the three returns, with validity 1 and with validity 0: rate limited, on `done`, on `busy` having fallen. -/
theorem witness_HostValueIsTheScaledPayload : ∀ v : Bool,
    (∃ s t : State, step s = .next t ∧ s.host.phase = .ready ∧ s.inp.call = some .value ∧
      elapsed s.cfg s.host.now s.host.lastTime < s.cfg.minInterval ∧ s.valid = v) ∧
    (∃ s t : State, step s = .next t ∧ s.host.phase = .waitDone .value false ∧ s.done = true ∧ s.valid = v) ∧
    ∃ s t : State, step s = .next t ∧ s.host.phase = .waitDone .value true ∧ s.done = false ∧ s.st = St.IDLE ∧
      s.valid = v := fun v =>
  ⟨⟨{ calling .value 0 1999 with valid := v }, _, step_stepped (by cases v <;> decide), rfl, rfl,
      by cases v <;> decide, rfl⟩,
    ⟨{ hosting (.waitDone .value false) St.IDLE false with done := true, valid := v }, _,
      step_stepped (by cases v <;> decide), rfl, rfl, rfl⟩,
    { hosting (.waitDone .value true) St.IDLE false with valid := v }, _,
    step_stepped (by cases v <;> decide), rfl, rfl, rfl, rfl⟩

/-- A finite run at its first and last cycle (PRE's `L T_START`), a HOLD at its first, and a track that has ended. -/
theorem witness_LineTrackDrivesItsCycles :
    (([.pre, .hold LOW] : List Segment).flatMap (Segment.runs build ⟨5, 2, 7⟩) =
        [(HIGH, some 3)] ++ (LOW, some 3) :: [(HIGH, some 2), (LOW, none)] ∧
      ([(HIGH, some 3)].map fun r : LineRun => r.2.getD 0).sum ≤ 3 ∧
      5 < ([(HIGH, some 3)].map fun r : LineRun => r.2.getD 0).sum + 3) ∧
    (([.pre, .hold LOW] : List Segment).flatMap (Segment.runs build ⟨5, 2, 7⟩) =
        [(HIGH, some 3), (LOW, some 3), (HIGH, some 2)] ++ (LOW, none) :: [] ∧
      (∀ r ∈ [(HIGH, some 3), (LOW, some 3), (HIGH, some 2)], r.2 ≠ none) ∧
      ([(HIGH, some 3), (LOW, some 3), (HIGH, some 2)].map fun r : LineRun => r.2.getD 0).sum ≤ 8) ∧
    (∀ r ∈ ([.level HIGH 3] : List Segment).flatMap (Segment.runs build ⟨5, 2, 7⟩), r.2 ≠ none) ∧
    ((([.level HIGH 3] : List Segment).flatMap (Segment.runs build ⟨5, 2, 7⟩)).map fun r => r.2.getD 0).sum ≤ 3 := by
  decide

end Sys2Proof.Tests
end

/-! The build parameters (00_scope.md R6): what the constraints say, which builds a step refuses, and that the defaults
keep the constraints. -/

namespace Sys2Proof.Machine

/-! ### The constraints and the refusal -/

/-- The constraints of 00_scope.md R6 one by one, the one on `W_WAIT` for each of the three durations. -/
theorem build_ok_iff (b : Build) : b.ok = true ↔
    1000000 ≤ b.clkHz ∧ 2 ≤ b.wCnt ∧ 1 ≤ b.budget ∧ b.budget ≤ 2 ^ b.wCnt - 2 ∧ 1 ≤ b.tIdle ∧ 1 ≤ b.tStart ∧
      1 ≤ b.tPull ∧ b.tIdle ≤ 2 ^ b.wWait ∧ b.tStart ≤ 2 ^ b.wWait ∧ b.tPull ≤ 2 ^ b.wWait := by
  simp only [Build.ok, Bool.and_eq_true, decide_eq_true_eq, max_le_iff, and_assoc]

theorem outcomeOf_ne_refused (e : Except Fault State) (r : Refusal) : outcomeOf e ≠ .refused r := by
  cases e <;> simp [outcomeOf]

/-- Every operation has a meaning (40_control.md R100): an operation may fault, and none is refused. -/
theorem exec_ne_refused (i : Instr) (s : State) (r : Refusal) : exec i s ≠ .refused r := by
  cases i with
  | bitLow b =>
    change execBitLow s ≠ _
    unfold execBitLow
    split
    · exact outcomeOf_ne_refused _ r
    · nofun
  | bitHigh b =>
    change execBitHigh s ≠ _
    unfold execBitHigh
    split
    · exact outcomeOf_ne_refused _ r
    · nofun
  | decode b =>
    change execDecode s ≠ _
    unfold execDecode
    split
    · nofun
    · split
      · nofun
      · exact outcomeOf_ne_refused _ r
  | reset | start | idleWait | rstHigh | startLow | release | ackLow | ackHigh | validate | unused101x | unused11xx =>
    nofun

theorem endCycle_eq_refused {s : State} {o : Host.Outcome State Fault Refusal} {r : Refusal} :
    endCycle s o = .refused r ↔ o = .refused r := by
  cases o <;> simp [endCycle]

/-- A step refuses a build exactly if the build breaks a constraint (00_scope.md R6). -/
theorem step_eq_badBuild_iff (s : State) : step s = .refused .badBuild ↔ ¬ s.cfg.ok = true := by
  by_cases h : s.cfg.ok = true
  · simp [step_of_ok h, endCycle_eq_refused, exec_ne_refused, h]
  · simp [step, h]

/-- Settles O5: the step's own check is the conjunction of R6's constraints, and no operation refuses. -/
theorem badBuildIsRefused : Obligations.BadBuildIsRefused := by
  unfold Obligations.BadBuildIsRefused
  intro s
  rw [step_eq_badBuild_iff, build_ok_iff]

/-! ### The defaults -/

/-- `leastWidth n` is the least width that fits `n`: the widths that fit are those from it on. -/
theorem leastWidth_le_iff (n w : Nat) : leastWidth n ≤ w ↔ n ≤ 2 ^ w := by
  unfold leastWidth
  split
  · have := Nat.two_pow_pos w
    omega
  · have hlog := Nat.log2_lt (n := n - 1) (k := w) (by omega)
    omega

/-- The default durations are at least one cycle from 1 MHz on, where `T_PULL` is 55. -/
theorem defaults_durations_pos {hz : Nat} (h : 1000000 ≤ hz) :
    1 ≤ hz / 1000 ∧ 1 ≤ cyclesOfMicros 1100 hz ∧ 1 ≤ cyclesOfMicros 55 hz := by
  unfold cyclesOfMicros
  omega

/-- One millisecond in cycles, `CLK_HZ / 1000`, is R85's duration of 1000 microseconds. -/
theorem div_thousand_eq_cyclesOfMicros (hz : Nat) : hz / 1000 = cyclesOfMicros 1000 hz := by
  unfold cyclesOfMicros
  omega

/-- The default `W_WAIT` is the least width for the three default durations. -/
theorem defaults_wWait_le_iff (hz minInterval w : Nat) :
    let b := Build.defaults hz minInterval
    b.wWait ≤ w ↔ max b.tIdle (max b.tStart b.tPull) ≤ 2 ^ w :=
  leastWidth_le_iff _ w

/-- The defaults keep every constraint for every clock of R6 whose 1 ms fits a 32-bit count below the sentinel. -/
theorem defaults_ok {hz : Nat} (minInterval : Nat) (h : 1000000 ≤ hz) (hfit : hz / 1000 ≤ 2 ^ 32 - 2) :
    (Build.defaults hz minInterval).ok = true := by
  obtain ⟨hIdle, hStart, hPull⟩ := defaults_durations_pos h
  have hWait := (defaults_wWait_le_iff hz minInterval _).1 le_rfl
  rw [max_le_iff, max_le_iff] at hWait
  exact (build_ok_iff _).2 ⟨h, (by decide : 2 ≤ 32), hIdle, hfit, hIdle, hStart, hPull, hWait⟩

/-- Settles O6: the constraints, R85's durations, the sentinel of 32 bits, and the least `W_WAIT`. -/
theorem defaultBuildsAreSound : Obligations.DefaultBuildsAreSound := by
  unfold Obligations.DefaultBuildsAreSound
  intro hz minInterval h hfit
  have hMs := div_thousand_eq_cyclesOfMicros hz
  exact ⟨defaults_ok minInterval h hfit, hMs, hMs, rfl, rfl, rfl,
    fun w => (defaults_wWait_le_iff hz minInterval w).2⟩

end Sys2Proof.Machine

/-! The invariant of the registers (10_state.md R22 to R30): every move of the block and every edge keeps it. -/

namespace Sys2Proof.Machine

/-! ### The wait counter and the table in a state that meets the invariant -/

/-- Every state of a sound build lasts at least one cycle. -/
theorem waitLength_pos {s : State} (h : s.cfg.ok = true) : 0 < waitLength s := by
  have := build_bounds h
  unfold waitLength
  split_ifs <;> omega

/-- Outside the wait states the wait counter rests at 0 (10_state.md R23). -/
theorem RegInv.wcnt_eq_zero {s : State} (hI : RegInv s) (h : waitLength s = 1) : s.wcnt = 0 := by
  have := hI.waitCount
  omega

/-- A counter at 0 is a legal wait counter of every state. -/
theorem waitCount_of_eq_zero {s : State} (hok : s.cfg.ok = true) (h : s.wcnt = 0) : s.wcnt < waitLength s :=
  h ▸ waitLength_pos hok

theorem idx_succ_of_lt {i : BitIndex} (h : i.toNat < 39) : (i + 1).toNat = i.toNat + 1 :=
  (idx_succ (Nat.le_of_lt h) fun e => by simp [e, lastBit] at h).1

theorem written_bitLow {s : State} (h : s.st = St.BIT_LOW) : written s = 2 * s.idx.toNat := by simp [written, h]

theorem written_bitHigh {s : State} (h : s.st = St.BIT_HIGH) : written s = 2 * s.idx.toNat + 1 := by
  simp [written, h]

theorem written_complete {s : State} (h : s.st = St.DECODE ∨ s.st = St.VALIDATE) : written s = 80 := by
  rcases h with h | h <;> simp [written, h]

/-- A write of a legal value keeps every entry a legal value. -/
theorem Memory.get_set_forall {P : Nat → Prop} {m : Memory} (hm : ∀ k v, m.get k = some v → P v) {j w : Nat}
    (hw : P w) : ∀ k v, (m.set j w).get k = some v → P v := by
  intro k v h
  rw [Memory.get_set] at h
  split at h
  · exact Option.some.inj h ▸ hw
  · exact hm k v h

/-- A write at the end of the written entries makes one more of them. -/
theorem Memory.get_set_written {m : Memory} {n : Nat} (hm : ∀ k < n, ∃ v, m.get k = some v) (w : Nat) :
    ∀ k < n + 1, ∃ v, (m.set n w).get k = some v := by
  intro k hk
  rw [Memory.get_set]
  split
  · exact ⟨w, rfl⟩
  · exact hm k (by omega)

/-- What a measurement of bit acquisition records is a count up to BUDGET or the sentinel (30_encoding.md R79). -/
theorem RegInv.recorded_le {s : State} (hI : RegInv s) {v : Nat} {c d : Prop}
    (hv : (c ∧ v = s.pcnt) ∨ (d ∧ s.pcnt = s.cfg.budget ∧ v = s.cfg.timeout)) :
    v ≤ s.cfg.budget ∨ v = s.cfg.timeout := by
  rcases hv with ⟨-, rfl⟩ | ⟨-, -, rfl⟩
  · exact .inl hI.pulseCount
  · exact .inr rfl

/-! ### The shared operations keep the invariant -/

theorem RegInv.clearDone {s : State} (hI : RegInv s) : RegInv (clearDone s) :=
  { hI with
    inAttempt := fun h => ⟨(hI.inAttempt h).1, rfl⟩
    doneOutcome := nofun }

/-- A write of a legal value to an entry of the table. -/
theorem RegInv.record {s : State} (hI : RegInv s) {k v : Nat} (hk : k < rawEntries)
    (hv : v ≤ s.cfg.budget ∨ v = s.cfg.timeout) : RegInv { s with raw := s.raw.set k v } :=
  { hI with
    rawForm := Memory.wf_set hI.rawForm hk
    rawCounts := Memory.get_set_forall hI.rawCounts hv
    rawWritten := fun j hj => by
      rw [Memory.get_set]
      split
      · exact ⟨v, rfl⟩
      · exact hI.rawWritten j hj }

/-- The attempt goes on in another state, with both counters at 0 (10_state.md R23, R24). -/
theorem RegInv.enter {s : State} (hI : RegInv s) (hbusy : s.st ≠ St.IDLE) {c : StCode} {i : BitIndex} {w p : Nat}
    (hc : c.toNat ≤ 9) (hi : i.toNat ≤ 39) (hw : w = 0) (hp : p = 0)
    (hwr : ∀ k < written { s with st := c, idx := i }, ∃ v, s.raw.get k = some v) :
    RegInv { s with st := c, idx := i, wcnt := w, pcnt := p, done := false } :=
  { hI.clearDone with
    legalState := hc
    bitIndex := hi
    waitCount := waitCount_of_eq_zero hI.build hw
    pulseCount := hp ▸ Nat.zero_le _
    pulseIdle := fun _ => hp
    rawWritten := hwr
    inAttempt := fun _ => hI.clearDone.inAttempt hbusy }

/-- The end of an attempt outside the wait states, with the pulse counter at 0 (40_control.md R104). -/
theorem RegInv.endAttempt {s : State} (hI : RegInv s) (hw : waitLength s = 1) {p : Nat} (hp : p = 0) {valid : Bool}
    {code : StatusCode} (hv : valid = true ↔ code = Status.OK) (hc : code.toNat ≤ 4) (hn : code ≠ Status.NONE) :
    RegInv (endAttempt valid code { s with pcnt := p }) :=
  { hI with
    legalState := by simp
    waitCount := waitCount_of_eq_zero hI.build (hI.wcnt_eq_zero hw)
    pulseCount := hp ▸ Nat.zero_le _
    pulseIdle := fun _ => hp
    rawWritten := nofun
    validStatus := hv
    legalStatus := hc
    inAttempt := fun h => absurd rfl h
    doneOutcome := fun _ => hn }

/-- The reset of the block's registers (70_reset_and_hazards.md R260). -/
theorem RegInv.reset {s : State} (hI : RegInv s) : RegInv { s with
    st := St.IDLE, wcnt := 0, pcnt := 0, idx := 0, buf := Vector.replicate 5 0, valid := false,
    status := Status.NONE, done := false } :=
  { hI with
    legalState := by simp
    bitIndex := by simp
    waitCount := waitLength_pos hI.build
    pulseCount := Nat.zero_le _
    pulseIdle := fun _ => rfl
    rawWritten := nofun
    validStatus := by simp
    legalStatus := by simp
    inAttempt := fun h => absurd rfl h
    doneOutcome := nofun }

/-- The start of an attempt from IDLE (40_control.md R101). -/
theorem RegInv.start {s : State} (hI : RegInv s) (hst : s.st = St.IDLE) : RegInv { s with
    buf := Vector.replicate 5 0, valid := false, status := Status.NONE, wcnt := 0, st := St.RST_HIGH, done := false } :=
  { hI with
    legalState := by simp
    waitCount := waitLength_pos hI.build
    pulseIdle := fun _ => hI.pulseIdle (by simp [Measuring, hst])
    rawWritten := nofun
    validStatus := by simp
    legalStatus := by simp
    inAttempt := fun _ => ⟨rfl, rfl⟩
    doneOutcome := nofun }

/-! ### Every operation keeps the invariant -/

theorem moves_regInv {s u : State} (hI : RegInv s) (h : Moves s u) : RegInv u := by
  have hC := hI.clearDone
  have hlow := (indices_lt hI.bitIndex).1
  have hhigh := (indices_lt hI.bitIndex).2.1
  cases h with
  | start hst hs => exact hI.start hst
  | idleWait hst hs => exact hC
  | waitEarly hst hw => exact { hC with waitCount := hw }
  | rstHighLast hst hw | startLowLast hst hw =>
    exact hI.enter (by simp [hst]) (by decide) hI.bitIndex rfl (hI.pulseIdle (by simp [Measuring, hst])) nofun
  | releaseLast hst hw => exact hI.enter (by simp [hst]) (by decide) hI.bitIndex rfl rfl nofun
  | pollContinues hst hd hp => exact { hC with pulseCount := hp, pulseIdle := fun h => absurd hst h }
  | ackTimeout hst hd hp =>
    have hw : waitLength s = 1 := by rcases hst with h | h <;> simp [waitLength, h]
    exact hI.endAttempt hw rfl (by decide) (by decide) (by decide)
  | ackLowEnds hst hd =>
    have hw := hI.wcnt_eq_zero (by simp [waitLength, hst])
    exact hI.enter (by simp [hst]) (by decide) hI.bitIndex hw rfl nofun
  | ackHighEnds hst hd =>
    have hw := hI.wcnt_eq_zero (by simp [waitLength, hst])
    exact hI.enter (by simp [hst]) (by decide) (by decide) hw rfl nofun
  | bitLowEnds v hst hv =>
    have hw := hI.wcnt_eq_zero (by simp [waitLength, hst])
    have hwr := written_bitLow hst ▸ hI.rawWritten
    exact (hI.record hlow (hI.recorded_le hv)).enter (by simp [hst]) (by decide) hI.bitIndex hw rfl
      (Memory.get_set_written hwr v)
  | bitHighEnds v hst hi hv =>
    have hw := hI.wcnt_eq_zero (by simp [waitLength, hst])
    have hwr := written_bitHigh hst ▸ hI.rawWritten
    have hs := idx_succ_of_lt hi
    have hn : written { s with st := St.BIT_LOW, idx := s.idx + 1 } = 2 * s.idx.toNat + 1 + 1 := by
      rw [written_bitLow rfl, hs]
      omega
    exact (hI.record hhigh (hI.recorded_le hv)).enter (by simp [hst]) (by decide) (hs ▸ hi) hw rfl
      (hn ▸ Memory.get_set_written hwr v)
  | lastBitHighEnds v hst hi hv =>
    have hw := hI.wcnt_eq_zero (by simp [waitLength, hst])
    have hwr := written_bitHigh hst ▸ hI.rawWritten
    have hn : written { s with st := St.DECODE, idx := 0 } = 2 * s.idx.toNat + 1 + 1 := by
      rw [written_complete (.inl rfl), hi]
      rfl
    exact (hI.record hhigh (hI.recorded_le hv)).enter (by simp [hst]) (by decide) (by decide) hw rfl
      (hn ▸ Memory.get_set_written hwr v)
  | decodeTimeout hst ht | validateOk hst h | validateBad hst h =>
    exact hI.endAttempt (by simp [waitLength, hst]) (hI.pulseIdle (by simp [Measuring, hst])) (by decide) (by decide)
      (by decide)
  | decodeBit lo hi hst h39 hlo hhi ht =>
    have hwr := written_complete (.inl hst) ▸ hI.rawWritten
    exact { hC with
      bitIndex := idx_succ_of_lt h39 ▸ h39
      rawWritten := written_complete (s := { s with idx := s.idx + 1 }) (.inl hst) ▸ hwr }
  | decodeLast lo hi hst h39 hle hlo hhi ht =>
    have hw := hI.wcnt_eq_zero (by simp [waitLength, hst])
    have hwr := written_complete (.inl hst) ▸ hI.rawWritten
    exact { hI.enter (c := St.VALIDATE) (by simp [hst]) (by decide) hle hw
      (hI.pulseIdle (by simp [Measuring, hst])) hwr with }

/-! ### The edge keeps the invariant -/

/-- The host's move keeps its two times in the width of the timebase (45_host.md R200). -/
theorem hostMove_times {s : State} (h : s.host.lastTime < 2 ^ s.cfg.wTime) (hn : s.host.now < 2 ^ s.cfg.wTime) :
    (hostMove s).now < 2 ^ s.cfg.wTime ∧ (hostMove s).lastTime < 2 ^ s.cfg.wTime := by
  have hnow : (s.host.now + s.inp.dt) % 2 ^ s.cfg.wTime < 2 ^ s.cfg.wTime := Nat.mod_lt _ (Nat.two_pow_pos _)
  unfold hostMove hostClock
  split
  · split
    · exact ⟨hnow, h⟩
    · split
      · exact ⟨hnow, h⟩
      · exact ⟨hnow, hn⟩
  · split <;> exact ⟨hnow, h⟩
  · exact ⟨hnow, h⟩
  · split <;> exact ⟨hnow, h⟩

/-- The edge keeps the invariant after an operation that has left the surroundings of the block alone. -/
theorem edge_regInv {s u : State} (hI : RegInv s) (hu : RegInv u) (hcfg : u.cfg = s.cfg) : RegInv (edge s u) :=
  { hu with
    hostTimes := by simpa [hcfg] using hostMove_times hI.hostTimes.2 hI.hostTimes.1
    hostStart := fun h => by simpa using .inr h }

/-- Every step keeps the invariant of the registers. -/
theorem step_regInv {s t : State} (hI : RegInv s) (h : step s = .next t) : RegInv t := by
  cases hr : s.inp.rst with
  | true =>
    rw [step_reset hI.build hr] at h
    cases h
    exact edge_regInv hI hI.reset rfl
  | false =>
    obtain ⟨u, hu, rfl⟩ := step_moves hI hr h
    exact edge_regInv hI (moves_regInv hI hu) (moves_surroundings hu).1

/-- Settles O37: a step is a reset or one of the moves, and then the edge, and each keeps the invariant. -/
theorem stepKeepsInv : Obligations.StepKeepsInv := by
  unfold Obligations.StepKeepsInv
  exact fun _ _ => step_regInv

end Sys2Proof.Machine

/-! Stale entries of the Raw Pulse Table (10_state.md R26): an operation makes the same move whatever the entries hold that
the attempt has not written, and the outputs do not show them. -/

namespace Sys2Proof.Machine

/-! ### Waits and polls -/

theorem waitLength_rstHigh {s : State} (h : s.st = St.RST_HIGH) : waitLength s = s.cfg.tIdle := by
  simp [waitLength, h]

theorem waitLength_startLow {s : State} (h : s.st = St.START_LOW) : waitLength s = s.cfg.tStart := by
  simp [waitLength, h]

theorem waitLength_release {s : State} (h : s.st = St.RELEASE) : waitLength s = s.cfg.tPull := by
  simp [waitLength, h]

/-- The wait counter of a sound build has the width for every wait (00_scope.md R6). -/
theorem waitLength_le {s : State} (h : s.cfg.ok = true) : waitLength s ≤ 2 ^ s.cfg.wWait := by
  have := build_bounds h
  unfold waitLength
  split_ifs <;> omega

/-- A poll ends by the other level with the count, or by the budget with the sentinel (41_pulse_timer.md R121). -/
theorem poll_eq_ended {L : Level} {s : State} {v : Nat}
    (hv : (s.inp.dqI = !L ∧ v = s.pcnt) ∨ (s.inp.dqI = L ∧ s.pcnt = s.cfg.budget ∧ v = s.cfg.timeout)) :
    poll L s = .ended v := by
  rcases hv with ⟨hd, rfl⟩ | ⟨hd, hp, rfl⟩
  · exact poll_changed (by simp [hd])
  · exact poll_timeout hd hp.ge

/-! ### The moves are exactly what the operations do -/

/-- Without a reset the operation of the cycle is the one that `start_i` and the sequencer state select. -/
theorem exec_of_st {s : State} (hr : s.inp.rst = false) {c : StCode} (h : s.st = c) :
    exec (decodeSel (selector s)) s = exec (decodeState s.inp.startI c) s := by
  rw [selected_state hr, h]

/-- The converse of `exec_moves`: the operation of the cycle makes every move that `Moves` allows, so there is only one. -/
theorem moves_exec {s u : State} (hI : RegInv s) (hr : s.inp.rst = false) (h : Moves s u) :
    exec (decodeSel (selector s)) s = .next u := by
  have hbt := budget_lt_timeout hI.build
  have hp := hI.pulseCount
  cases h with
  | start hst hs => rw [exec_of_st hr hst, hs]; exact execStart_eq s
  | idleWait hst hs => rw [exec_of_st hr hst, hs]; exact execIdleWait_eq s
  | waitEarly hst hw =>
    have hmod := Nat.mod_eq_of_lt (hw.trans_le (waitLength_le hI.build))
    rcases hst with h | h | h
    · rw [waitLength_rstHigh h] at hw
      exact (exec_of_st hr h).trans (hmod ▸ execRstHigh_early (by omega))
    · rw [waitLength_startLow h] at hw
      exact (exec_of_st hr h).trans (hmod ▸ execStartLow_early (by omega))
    · rw [waitLength_release h] at hw
      exact (exec_of_st hr h).trans (hmod ▸ execRelease_early (by omega))
  | rstHighLast hst hw => exact (exec_of_st hr hst).trans (execRstHigh_last (by omega))
  | startLowLast hst hw => exact (exec_of_st hr hst).trans (execStartLow_last (by omega))
  | releaseLast hst hw => exact (exec_of_st hr hst).trans (execRelease_last (by omega))
  | pollContinues hst hd hp =>
    rcases hst with h | h | h | h <;> simp only [expected, h] at hd
    · exact (exec_of_st hr h).trans (execAckLow_continues hd hp)
    · exact (exec_of_st hr h).trans (execAckHigh_continues hd hp)
    · exact (exec_of_st hr h).trans (execBitLow_continues hd hp)
    · exact (exec_of_st hr h).trans (execBitHigh_continues hd hp)
  | ackTimeout hst hd hp =>
    rcases hst with h | h <;> simp only [expected, h] at hd
    · exact (exec_of_st hr h).trans (execAckLow_timeout hd hp.ge)
    · exact (exec_of_st hr h).trans (execAckHigh_timeout hd hp.ge)
  | ackLowEnds hst hd => exact (exec_of_st hr hst).trans (execAckLow_changed hd (by omega))
  | ackHighEnds hst hd => exact (exec_of_st hr hst).trans (execAckHigh_changed hd (by omega))
  | bitLowEnds v hst hv =>
    exact (exec_of_st hr hst).trans (execBitLow_ended (poll_eq_ended hv) hI.bitIndex)
  | bitHighEnds v hst hi hv =>
    exact (exec_of_st hr hst).trans (execBitHigh_more (poll_eq_ended hv) hi)
  | lastBitHighEnds v hst hi hv =>
    exact (exec_of_st hr hst).trans (execBitHigh_last (poll_eq_ended hv) hi)
  | decodeTimeout hst ht =>
    have hwr := written_complete (.inl hst) ▸ hI.rawWritten
    have hidx := hI.bitIndex
    obtain ⟨lo, hlo⟩ := hwr (2 * s.idx.toNat) (by omega)
    obtain ⟨hi, hhi⟩ := hwr (2 * s.idx.toNat + 1) (by omega)
    rw [PairTimedOut, hlo, hhi, Option.some_inj, Option.some_inj] at ht
    exact (exec_of_st hr hst).trans (execDecode_timeout hidx hlo hhi ht)
  | decodeBit lo hi hst h39 hlo hhi ht =>
    rw [PairTimedOut, hlo, hhi, Option.some_inj, Option.some_inj] at ht
    exact (exec_of_st hr hst).trans (execDecode_more h39 hlo hhi ht)
  | decodeLast lo hi hst h39 hle hlo hhi ht =>
    rw [PairTimedOut, hlo, hhi, Option.some_inj, Option.some_inj] at ht
    exact (exec_of_st hr hst).trans (execDecode_last hle h39 hlo hhi ht)
  | validateOk hst h => exact (exec_of_st hr hst).trans (execValidate_ok h)
  | validateBad hst h => exact (exec_of_st hr hst).trans (execValidate_bad h)

/-- A move of the block is a step of the machine. -/
theorem step_of_moves {s u : State} (hI : RegInv s) (hr : s.inp.rst = false) (h : Moves s u) :
    step s = .next (edge s u) := by
  rw [step_of_ok hI.build, moves_exec hI hr h, endCycle_next]

/-! ### States that differ in unwritten entries only -/

/-- The tables agree on every entry that the attempt in progress has written. -/
def AgreeOnWritten (s : State) (m : Memory) : Prop := ∀ k < written s, m.get k = s.raw.get k

/-- `SameButUnwrittenRaw` says that the other state is the same one with another table. -/
theorem sameButUnwrittenRaw_iff {s s' : State} :
    SameButUnwrittenRaw s s' ↔ ∃ m, s' = { s with raw := m } ∧ AgreeOnWritten s m := by
  constructor
  · rintro ⟨⟨hcfg, hhost, hinp, hstim, hcycle⟩, hst, hwcnt, hpcnt, hidx, hbuf, hvalid, hstatus, hdone, hraw⟩
    refine ⟨s'.raw, ?_, hraw⟩
    cases s'
    simp_all
  · rintro ⟨m, rfl, hm⟩
    exact ⟨⟨rfl, rfl, rfl, rfl, rfl⟩, rfl, rfl, rfl, rfl, rfl, rfl, rfl, rfl, hm⟩

/-- A write of the same value to the next entry of both tables leaves them in agreement on one entry more. -/
theorem AgreeOnWritten.set {s u : State} {m : Memory} (hm : AgreeOnWritten s m) {j v : Nat} (hj : written s = j)
    (hu : u.raw = s.raw.set j v) (hn : written u = j + 1) : AgreeOnWritten u (m.set j v) := by
  intro k hk
  rw [hu, Memory.get_set, Memory.get_set]
  split
  · rfl
  · exact hm k (by omega)

/-- From DECODE on the tables agree on the whole frame, and no operation writes them. -/
theorem AgreeOnWritten.decoding {s u : State} {m : Memory} (hm : AgreeOnWritten s m) (hst : s.st = St.DECODE)
    (hraw : u.raw = s.raw) (hu : u.st = St.DECODE ∨ u.st = St.VALIDATE) : AgreeOnWritten u m := by
  intro k hk
  rw [hraw]
  exact hm k (by rwa [written_complete (.inl hst), ← written_complete hu])

/-- In DECODE the tables agree on the pair that is decoded. -/
theorem AgreeOnWritten.pair {s : State} {m : Memory} (hm : AgreeOnWritten s m) (hidx : s.idx.toNat ≤ 39)
    (hst : s.st = St.DECODE) : m.get (2 * s.idx.toNat) = s.raw.get (2 * s.idx.toNat) ∧
      m.get (2 * s.idx.toNat + 1) = s.raw.get (2 * s.idx.toNat + 1) := by
  have h80 := written_complete (.inl hst)
  exact ⟨hm _ (by omega), hm _ (by omega)⟩

theorem AgreeOnWritten.pairTimedOut_iff {s : State} {m : Memory} (hm : AgreeOnWritten s m) (hidx : s.idx.toNat ≤ 39)
    (hst : s.st = St.DECODE) : PairTimedOut { s with raw := m } s.idx.toNat ↔ PairTimedOut s s.idx.toNat := by
  obtain ⟨hlo, hhi⟩ := hm.pair hidx hst
  simp only [PairTimedOut, hlo, hhi]

/-- The same move is made from a table that agrees on what is written, and the tables agree on what is written then. -/
theorem moves_withRaw {s u : State} (h : Moves s u) (hI : RegInv s) {m : Memory} (hm : AgreeOnWritten s m) :
    ∃ m', Moves { s with raw := m } { u with raw := m' } ∧ AgreeOnWritten u m' := by
  have hidx := hI.bitIndex
  cases h with
  | start hst hs => exact ⟨m, .start hst hs, nofun⟩
  | idleWait hst hs => exact ⟨m, .idleWait hst hs, hm⟩
  | waitEarly hst hw => exact ⟨m, .waitEarly hst hw, hm⟩
  | rstHighLast hst hw => exact ⟨m, .rstHighLast hst hw, nofun⟩
  | startLowLast hst hw => exact ⟨m, .startLowLast hst hw, nofun⟩
  | releaseLast hst hw => exact ⟨m, .releaseLast hst hw, nofun⟩
  | pollContinues hst hd hp => exact ⟨m, .pollContinues hst hd hp, hm⟩
  | ackTimeout hst hd hp => exact ⟨m, .ackTimeout hst hd hp, nofun⟩
  | ackLowEnds hst hd => exact ⟨m, .ackLowEnds hst hd, nofun⟩
  | ackHighEnds hst hd => exact ⟨m, .ackHighEnds hst hd, nofun⟩
  | bitLowEnds v hst hv =>
    exact ⟨_, .bitLowEnds v hst hv, hm.set (written_bitLow hst) rfl (written_bitHigh rfl)⟩
  | bitHighEnds v hst hi hv =>
    refine ⟨_, .bitHighEnds v hst hi hv, hm.set (written_bitHigh hst) rfl ?_⟩
    rw [written_bitLow rfl, idx_succ_of_lt hi, Nat.mul_add]
  | lastBitHighEnds v hst hi hv =>
    refine ⟨_, .lastBitHighEnds v hst hi hv, hm.set (written_bitHigh hst) rfl ?_⟩
    rw [written_complete (.inl rfl), hi]
    rfl
  | decodeTimeout hst ht =>
    exact ⟨m, .decodeTimeout hst ((hm.pairTimedOut_iff hidx hst).2 ht), nofun⟩
  | decodeBit lo hi hst h39 hlo hhi ht =>
    obtain ⟨el, eh⟩ := hm.pair hidx hst
    have hmove := Moves.decodeBit (s := { s with raw := m }) lo hi hst h39 (el.trans hlo) (eh.trans hhi)
      (mt (hm.pairTimedOut_iff hidx hst).1 ht)
    exact ⟨m, hmove, hm.decoding hst rfl (.inl hst)⟩
  | decodeLast lo hi hst h39 hle hlo hhi ht =>
    obtain ⟨el, eh⟩ := hm.pair hidx hst
    have hmove := Moves.decodeLast (s := { s with raw := m }) lo hi hst h39 hle (el.trans hlo) (eh.trans hhi)
      (mt (hm.pairTimedOut_iff hidx hst).1 ht)
    exact ⟨m, hmove, hm.decoding hst rfl (.inr rfl)⟩
  | validateOk hst h => exact ⟨m, .validateOk hst h, nofun⟩
  | validateBad hst h => exact ⟨m, .validateBad hst h, nofun⟩

/-! ### The step and the outputs -/

/-- The edge does not read the table. -/
theorem edge_withRaw (s t : State) (m m' : Memory) :
    edge { s with raw := m } { t with raw := m' } = { edge s t with raw := m' } := rfl

/-- A step from another table with the same written entries leads to the same state with another such table. -/
theorem step_withRaw {s t : State} (hI : RegInv s) {m : Memory} (hI' : RegInv { s with raw := m })
    (hm : AgreeOnWritten s m) (h : step s = .next t) :
    ∃ m', step { s with raw := m } = .next { t with raw := m' } ∧ AgreeOnWritten t m' := by
  cases hr : s.inp.rst with
  | true =>
    rw [step_reset hI.build hr] at h
    cases h
    exact ⟨m, step_reset hI'.build hr, nofun⟩
  | false =>
    obtain ⟨u, hu, rfl⟩ := step_moves hI hr h
    obtain ⟨m', hu', hm'⟩ := moves_withRaw hu hI hm
    exact ⟨m', (step_of_moves hI' hr hu').trans (congrArg _ (edge_withRaw s u m m')), hm'⟩

/-- Settles O40: both states make the same move, and what they then show does not depend on the table. -/
theorem staleEntriesAreNeverObserved : Obligations.StaleEntriesAreNeverObserved := by
  unfold Obligations.StaleEntriesAreNeverObserved
  intro s s' t hI hI' hs h
  obtain ⟨m, rfl, hm⟩ := sameButUnwrittenRaw_iff.1 hs
  obtain ⟨m', h', hm'⟩ := step_withRaw hI hI' hm h
  exact ⟨_, h', sameButUnwrittenRaw_iff.2 ⟨m', rfl, hm'⟩, rfl, rfl⟩

end Sys2Proof.Machine

/-! The bound of 10_state.md R35: every cycle of an attempt leaves fewer cycles to its end, whatever the inputs are. -/

namespace Sys2Proof.Machine

/-! ### How many cycles an attempt has left -/

/-- How many of the 82 measurements of an attempt come after the one in progress (42_frame_sync.md R140, 43_bit_pair.md
R160). -/
def measurementsAfter (s : State) : Nat :=
  if s.st = St.ACK_LOW then 81
  else if s.st = St.ACK_HIGH then 80
  else if s.st = St.BIT_LOW then 79 - 2 * s.idx.toNat
  else 78 - 2 * s.idx.toNat

/-- The most cycles that the attempt in progress has left, this one included: what is left of its waits, `BUDGET + 1`
cycles for every measurement, and the 41 cycles of DECODE and VALIDATE. -/
def cyclesLeft (s : State) : Nat :=
  if s.st = St.IDLE then 0
  else if s.st = St.RST_HIGH then
    s.cfg.tIdle - s.wcnt + s.cfg.tStart + s.cfg.tPull + 82 * (s.cfg.budget + 1) + 41
  else if s.st = St.START_LOW then s.cfg.tStart - s.wcnt + s.cfg.tPull + 82 * (s.cfg.budget + 1) + 41
  else if s.st = St.RELEASE then s.cfg.tPull - s.wcnt + 82 * (s.cfg.budget + 1) + 41
  else if s.st = St.DECODE then 41 - s.idx.toNat
  else if s.st = St.VALIDATE then 1
  else s.cfg.budget + 1 - s.pcnt + measurementsAfter s * (s.cfg.budget + 1) + 41

theorem cyclesLeft_idle {s : State} (h : s.st = St.IDLE) : cyclesLeft s = 0 := by simp [cyclesLeft, h]

theorem cyclesLeft_rstHigh {s : State} (h : s.st = St.RST_HIGH) : cyclesLeft s =
    s.cfg.tIdle - s.wcnt + s.cfg.tStart + s.cfg.tPull + 82 * (s.cfg.budget + 1) + 41 := by simp [cyclesLeft, h]

theorem cyclesLeft_startLow {s : State} (h : s.st = St.START_LOW) :
    cyclesLeft s = s.cfg.tStart - s.wcnt + s.cfg.tPull + 82 * (s.cfg.budget + 1) + 41 := by simp [cyclesLeft, h]

theorem cyclesLeft_release {s : State} (h : s.st = St.RELEASE) :
    cyclesLeft s = s.cfg.tPull - s.wcnt + 82 * (s.cfg.budget + 1) + 41 := by simp [cyclesLeft, h]

theorem cyclesLeft_measuring {s : State} (h : Measuring s) :
    cyclesLeft s = s.cfg.budget + 1 - s.pcnt + measurementsAfter s * (s.cfg.budget + 1) + 41 := by
  rcases h with h | h | h | h <;> simp [cyclesLeft, h]

theorem cyclesLeft_decode {s : State} (h : s.st = St.DECODE) : cyclesLeft s = 41 - s.idx.toNat := by
  simp [cyclesLeft, h]

theorem cyclesLeft_validate {s : State} (h : s.st = St.VALIDATE) : cyclesLeft s = 1 := by simp [cyclesLeft, h]

theorem measurementsAfter_ackLow {s : State} (h : s.st = St.ACK_LOW) : measurementsAfter s = 81 := by
  simp [measurementsAfter, h]

theorem measurementsAfter_ackHigh {s : State} (h : s.st = St.ACK_HIGH) : measurementsAfter s = 80 := by
  simp [measurementsAfter, h]

theorem measurementsAfter_bitLow {s : State} (h : s.st = St.BIT_LOW) : measurementsAfter s = 79 - 2 * s.idx.toNat := by
  simp [measurementsAfter, h]

theorem measurementsAfter_bitHigh {s : State} (h : s.st = St.BIT_HIGH) :
    measurementsAfter s = 78 - 2 * s.idx.toNat := by simp [measurementsAfter, h]

@[simp] theorem cyclesLeft_edge (s t : State) : cyclesLeft (edge s t) = cyclesLeft t := rfl

theorem cyclesLeft_pos {s : State} (hidx : s.idx.toNat ≤ 39) (h : s.st ≠ St.IDLE) : 0 < cyclesLeft s := by
  unfold cyclesLeft
  rw [if_neg h]
  split_ifs <;> omega

theorem measurementsAfter_le (s : State) : measurementsAfter s ≤ 81 := by
  unfold measurementsAfter
  split_ifs <;> omega

/-- R35's bound holds of every state. -/
theorem cyclesLeft_le (s : State) :
    cyclesLeft s ≤ s.cfg.tIdle + s.cfg.tStart + s.cfg.tPull + 82 * (s.cfg.budget + 1) + 41 := by
  have := Nat.mul_le_mul_right (s.cfg.budget + 1) (measurementsAfter_le s)
  unfold cyclesLeft
  split_ifs <;> omega

/-! ### Every step leaves fewer -/

/-- The next measurement begins at most `BUDGET` cycles before the one in progress would have timed out. -/
theorem cyclesLeft_lt_of_ended {s u : State} (hs : Measuring s) (hu : Measuring u) (hcfg : u.cfg = s.cfg)
    (hp : s.pcnt ≤ s.cfg.budget) (hu0 : u.pcnt = 0) (hn : measurementsAfter s = measurementsAfter u + 1) :
    cyclesLeft u < cyclesLeft s := by
  rw [cyclesLeft_measuring hs, cyclesLeft_measuring hu, hcfg, hu0, hn, Nat.succ_mul]
  omega

theorem moves_cyclesLeft_lt {s u : State} (hI : RegInv s) (hbusy : s.st ≠ St.IDLE) (h : Moves s u) :
    cyclesLeft u < cyclesLeft s := by
  have hp := hI.pulseCount
  have hidx := hI.bitIndex
  have hpos := cyclesLeft_pos hidx hbusy
  cases h with
  | start hst hs | idleWait hst hs => exact absurd hst hbusy
  | waitEarly hst hw =>
    rcases hst with h | h | h
    · rw [waitLength_rstHigh h] at hw
      refine lt_of_eq_of_lt (cyclesLeft_rstHigh h) ?_
      rw [cyclesLeft_rstHigh h]
      dsimp only
      omega
    · rw [waitLength_startLow h] at hw
      refine lt_of_eq_of_lt (cyclesLeft_startLow h) ?_
      rw [cyclesLeft_startLow h]
      dsimp only
      omega
    · rw [waitLength_release h] at hw
      refine lt_of_eq_of_lt (cyclesLeft_release h) ?_
      rw [cyclesLeft_release h]
      dsimp only
      omega
  | rstHighLast hst hw =>
    rw [cyclesLeft_startLow rfl, cyclesLeft_rstHigh hst]
    dsimp only
    omega
  | startLowLast hst hw =>
    rw [cyclesLeft_release rfl, cyclesLeft_startLow hst]
    dsimp only
    omega
  | releaseLast hst hw =>
    rw [cyclesLeft_measuring (.inl rfl), measurementsAfter_ackLow rfl, cyclesLeft_release hst]
    dsimp only
    omega
  | pollContinues hst hd hp =>
    have hn : measurementsAfter { s with pcnt := s.pcnt + 1, done := false } = measurementsAfter s := rfl
    refine lt_of_eq_of_lt (cyclesLeft_measuring hst) ?_
    rw [hn, cyclesLeft_measuring hst]
    dsimp only
    omega
  | ackLowEnds hst hd =>
    refine cyclesLeft_lt_of_ended (.inl hst) (.inr (.inl rfl)) rfl hp rfl ?_
    rw [measurementsAfter_ackLow hst, measurementsAfter_ackHigh rfl]
  | ackHighEnds hst hd =>
    refine cyclesLeft_lt_of_ended (.inr (.inl hst)) (.inr (.inr (.inl rfl))) rfl hp rfl ?_
    rw [measurementsAfter_ackHigh hst, measurementsAfter_bitLow rfl]
    rfl
  | bitLowEnds v hst hv =>
    refine cyclesLeft_lt_of_ended (.inr (.inr (.inl hst))) (.inr (.inr (.inr rfl))) rfl hp rfl ?_
    rw [measurementsAfter_bitLow hst, measurementsAfter_bitHigh rfl]
    dsimp only
    omega
  | bitHighEnds v hst hi hv =>
    refine cyclesLeft_lt_of_ended (.inr (.inr (.inr hst))) (.inr (.inr (.inl rfl))) rfl hp rfl ?_
    rw [measurementsAfter_bitHigh hst, measurementsAfter_bitLow rfl, idx_succ_of_lt hi]
    omega
  | lastBitHighEnds v hst hi hv =>
    rw [cyclesLeft_decode rfl, cyclesLeft_measuring (.inr (.inr (.inr hst)))]
    have h0 : (0 : BitIndex).toNat = 0 := rfl
    omega
  | decodeBit lo hi hst h39 hlo hhi ht =>
    refine lt_of_eq_of_lt (cyclesLeft_decode hst) ?_
    rw [cyclesLeft_decode hst, idx_succ_of_lt h39]
    omega
  | decodeLast lo hi hst h39 hle hlo hhi ht =>
    rw [cyclesLeft_validate rfl, cyclesLeft_decode hst]
    omega
  | ackTimeout _ _ _ | decodeTimeout _ _ | validateOk _ _ | validateBad _ _ => exact (cyclesLeft_idle rfl).trans_lt hpos

/-- The move that ends an attempt gives it an outcome (40_control.md R104). -/
theorem moves_ends_done {s u : State} (hbusy : s.st ≠ St.IDLE) (h : Moves s u) (hu : u.st = St.IDLE) :
    u.done = true := by
  cases h with
  | start hst _ | idleWait hst _ => exact absurd hst hbusy
  | ackTimeout _ _ _ | decodeTimeout _ _ | validateOk _ _ | validateBad _ _ => rfl
  | waitEarly _ _ | decodeBit _ _ _ _ _ _ _ | pollContinues _ _ _ => exact absurd hu hbusy
  | rstHighLast _ _ | startLowLast _ _ | releaseLast _ _ | ackLowEnds _ _ | ackHighEnds _ _ | bitLowEnds _ _ _
  | bitHighEnds _ _ _ _ | lastBitHighEnds _ _ _ _ | decodeLast _ _ _ _ _ _ _ _ => simp at hu

/-! ### Runs -/

/-- No step stops from a state that meets the invariant (60_exceptions.md R230). -/
theorem exists_step_of_regInv {s : State} (hI : RegInv s) : ∃ t, step s = .next t := by
  cases hr : s.inp.rst with
  | true => exact ⟨_, step_reset hI.build hr⟩
  | false =>
    obtain ⟨u, -, hu⟩ := exec_moves hI hr
    exact ⟨_, step_of_moves hI hr hu⟩

theorem step_cyclesLeft_lt {s t : State} (hI : RegInv s) (hbusy : s.st ≠ St.IDLE) (h : step s = .next t) :
    cyclesLeft t < cyclesLeft s := by
  cases hr : s.inp.rst with
  | true =>
    rw [step_reset hI.build hr] at h
    cases h
    exact (cyclesLeft_idle rfl).trans_lt (cyclesLeft_pos hI.bitIndex hbusy)
  | false =>
    obtain ⟨u, hu, rfl⟩ := step_moves hI hr h
    rw [cyclesLeft_edge]
    exact moves_cyclesLeft_lt hI hbusy hu

/-- From a busy state the block is in IDLE again within `cyclesLeft`, and without a reset it has an outcome then. -/
theorem run_reaches_idle (n : Nat) : ∀ s : State, RegInv s → s.st ≠ St.IDLE → cyclesLeft s ≤ n →
    ∃ k t, 1 ≤ k ∧ k ≤ n ∧ Sys2Proof.core.run k s = .next t ∧ t.st = St.IDLE ∧
      (NoReset s k → t.done = true ∧ t.status ≠ Status.NONE) := by
  induction n with
  | zero =>
    intro s hI hbusy hn
    exact absurd (cyclesLeft_pos hI.bitIndex hbusy) (by omega)
  | succ n ih =>
    intro s hI hbusy hn
    obtain ⟨t, ht⟩ := exists_step_of_regInv hI
    have hIt := step_regInv hI ht
    by_cases hidle : t.st = St.IDLE
    · refine ⟨1, t, le_rfl, by omega, run_one ht, hidle, fun hr => ?_⟩
      obtain ⟨u, hu, rfl⟩ := step_moves hI hr.now ht
      have hdone := moves_ends_done hbusy hu hidle
      exact ⟨hdone, hIt.doneOutcome hdone⟩
    · have hlt := step_cyclesLeft_lt hI hbusy ht
      obtain ⟨k, v, hk, hkn, hrun, hv, hout⟩ := ih t hIt hidle (by omega)
      refine ⟨k + 1, v, by omega, by omega, (run_succ k ht).trans hrun, hv, fun hr => hout ?_⟩
      exact NoReset.run (n := 1) (Nat.add_comm k 1 ▸ hr) (run_one ht)

/-- Settles O46: every step of an attempt leaves fewer cycles, and at most R35's bound are left to begin with. -/
theorem everyAttemptEndsInTime : Obligations.EveryAttemptEndsInTime := by
  unfold Obligations.EveryAttemptEndsInTime
  exact fun s hI hbusy => run_reaches_idle _ s hI hbusy (cyclesLeft_le s)

end Sys2Proof.Machine

/-! The faults of the operations (10_state.md R26, 20_memory.md R50): an index above 39 on a write of a measurement, and an
entry without a value under DECODE. -/

namespace Sys2Proof.Machine

/-! ### Which outcomes are faults -/

theorem outcomeOf_eq_fault {e : Except Fault State} {f : Fault} : outcomeOf e = .fault f ↔ e = .error f := by
  cases e <;> simp [outcomeOf]

theorem map_eq_error {ε α β : Type} {g : α → β} {e : Except ε α} {x : ε} : e.map g = .error x ↔ e = .error x := by
  cases e <;> simp [Except.map]

theorem rawWrite_eq_error {k v : Nat} {s : State} {f : Fault} :
    rawWrite k v s = .error f ↔ ¬ k < rawEntries ∧ f = .noSuchEntry .raw k := by
  unfold rawWrite
  split <;> simp [*, eq_comm]

/-- The indices of a bit lie in the table exactly for the bits of a frame (20_memory.md R50). -/
theorem indices_lt_iff (i : BitIndex) :
    (lowIndex i < rawEntries ↔ i.toNat ≤ 39) ∧ (highIndex i < rawEntries ↔ i.toNat ≤ 39) := by
  simp only [lowIndex, highIndex, rawEntries]
  omega

/-! ### Bit acquisition by the answer of its poll, whatever the index -/

theorem execBitLow_of_ended {s : State} {v : Nat} (h : poll LOW s = .ended v) : execBitLow s =
    outcomeOf ((rawWrite (lowIndex s.idx) v (counted LOW (clearDone s))).map (goto St.BIT_HIGH)) := by
  simp only [execBitLow, h]

theorem execBitLow_of_continues {s : State} (h : poll LOW s = .continues) :
    execBitLow s = .next (counted LOW (clearDone s)) := by simp only [execBitLow, h]

theorem execBitHigh_of_ended {s : State} {v : Nat} (h : poll HIGH s = .ended v) : execBitHigh s =
    outcomeOf ((rawWrite (highIndex s.idx) v (counted HIGH (clearDone s))).map afterPair) := by
  simp only [execBitHigh, h]

theorem execBitHigh_of_continues {s : State} (h : poll HIGH s = .continues) :
    execBitHigh s = .next (counted HIGH (clearDone s)) := by simp only [execBitHigh, h]

/-! ### The faults of each operation -/

/-- What BIT_LOW and BIT_HIGH share: an operation that records the result of an ended poll in entry `k` faults exactly if
the poll ends, by the other level or by the budget, and there is no entry `k`. -/
theorem record_eq_fault {L : Level} {s t : State} {k : Nat} {g : State → State} {f : Fault}
    {o : Host.Outcome State Fault Refusal}
    (hEnded : ∀ v, poll L s = .ended v → o = outcomeOf ((rawWrite k v t).map g))
    (hContinues : poll L s = .continues → o = .next t) :
    o = .fault f ↔ ¬ k < rawEntries ∧ (s.inp.dqI = !L ∨ s.cfg.budget ≤ s.pcnt) ∧ f = .noSuchEntry .raw k := by
  rcases poll_cases L s with ⟨hd, hpo⟩ | ⟨hd, hp, hpo⟩ | ⟨hd, hp, hpo⟩
  · rw [hEnded _ hpo, outcomeOf_eq_fault, map_eq_error, rawWrite_eq_error]
    simp [Bool.eq_not_of_ne hd]
  · rw [hEnded _ hpo, outcomeOf_eq_fault, map_eq_error, rawWrite_eq_error]
    simp [hp]
  · rw [hContinues hpo]
    simp [hd, hp]

theorem execBitLow_eq_fault {s : State} {f : Fault} : execBitLow s = .fault f ↔
    39 < s.idx.toNat ∧ (s.inp.dqI = HIGH ∨ s.cfg.budget ≤ s.pcnt) ∧ f = .noSuchEntry .raw (2 * s.idx.toNat) := by
  rw [← Nat.not_le, ← (indices_lt_iff s.idx).1]
  exact record_eq_fault (fun _ => execBitLow_of_ended) execBitLow_of_continues

theorem execBitHigh_eq_fault {s : State} {f : Fault} : execBitHigh s = .fault f ↔
    39 < s.idx.toNat ∧ (s.inp.dqI = LOW ∨ s.cfg.budget ≤ s.pcnt) ∧ f = .noSuchEntry .raw (2 * s.idx.toNat + 1) := by
  rw [← Nat.not_le, ← (indices_lt_iff s.idx).2]
  exact record_eq_fault (fun _ => execBitHigh_of_ended) execBitHigh_of_continues

/-- Every bit up to 39 has its byte, so decoding two counts never faults (43_bit_pair.md R171). -/
theorem decodePair_ne_error {lo hi : Nat} {s : State} {f : Fault} (h : s.idx.toNat ≤ 39) :
    decodePair lo hi s ≠ .error f := by
  by_cases ht : lo = s.cfg.timeout ∨ hi = s.cfg.timeout
  · simp [decodePair_timeout ht]
  · simp [decodePair_bit ht (indices_lt h).2.2]

/-- DECODE faults exactly where one of its two reads does, the low-phase entry first (43_bit_pair.md R170). -/
theorem execDecode_eq_fault_iff_rawRead {s : State} {f : Fault} : execDecode s = .fault f ↔
    rawRead (lowIndex s.idx) s = .error f ∨
      (∃ lo, rawRead (lowIndex s.idx) s = .ok lo) ∧ rawRead (highIndex s.idx) s = .error f := by
  cases hlo : rawRead (lowIndex s.idx) s with
  | error g => simp [execDecode, hlo]
  | ok lo =>
    cases hhi : rawRead (highIndex s.idx) s with
    | error g => simp [execDecode, hlo, hhi]
    | ok hi =>
      have hidx : s.idx.toNat ≤ 39 := (indices_lt_iff s.idx).1.1 (rawRead_eq_ok.1 hlo).1
      simp [execDecode, hlo, hhi, outcomeOf_eq_fault, decodePair_ne_error (s := clearDone s) hidx]

theorem execDecode_eq_fault {s : State} {f : Fault} : execDecode s = .fault f ↔
    (s.idx.toNat ≤ 39 ∧ s.raw.get (2 * s.idx.toNat) = none ∧ f = .rawNoValue (2 * s.idx.toNat)) ∨
      (s.idx.toNat ≤ 39 ∧ (∃ lo, s.raw.get (2 * s.idx.toNat) = some lo) ∧ s.raw.get (2 * s.idx.toNat + 1) = none ∧
        f = .rawNoValue (2 * s.idx.toNat + 1)) ∨
      (39 < s.idx.toNat ∧ f = .noSuchEntry .raw (2 * s.idx.toNat)) := by
  obtain ⟨hl, hh⟩ := indices_lt_iff s.idx
  simp only [execDecode_eq_fault_iff_rawRead, rawRead_eq_error, rawRead_eq_ok, hl, hh, exists_and_left]
  by_cases h : s.idx.toNat ≤ 39
  · simp [h, Nat.not_lt.2 h, lowIndex, highIndex]
  · simp [h, Nat.not_le.1 h, lowIndex]

/-- Settles O22: the three operations that read or write the table fault as stated, and the others answer a next state. -/
theorem operationFaultsExactlyOnMissingEntries : Obligations.OperationFaultsExactlyOnMissingEntries := by
  unfold Obligations.OperationFaultsExactlyOnMissingEntries
  intro s i f
  cases i with
  | bitLow b => exact execBitLow_eq_fault.trans (by simp)
  | bitHigh b => exact execBitHigh_eq_fault.trans (by simp)
  | decode b => exact execDecode_eq_fault.trans (by simp)
  | reset | start | idleWait | rstHigh | startLow | release | ackLow | ackHigh | validate | unused101x | unused11xx =>
    refine iff_of_false nofun ?_
    rintro (⟨_, h, -⟩ | ⟨_, h, -⟩ | ⟨_, h, -⟩) <;> cases h

end Sys2Proof.Machine

/-! What the line can reach (10_state.md R38): an operation that does not read it passes the inputs of the cycle through, and
the edge replaces them. -/

namespace Sys2Proof.Machine

/-- The operations that read `dq_i`, those of the four measurement states (10_state.md R38). -/
def readsLine : Instr → Bool
  | .ackLow _ => true
  | .ackHigh _ => true
  | .bitLow _ => true
  | .bitHigh _ => true
  | _ => false

/-- Only the four measurement states select an operation that reads the line. -/
theorem readsLine_selected {s : State} (h : readsLine (decodeSel (selector s)) = true) : Measuring s := by
  have all : ∀ r b : Bool, ∀ c : StCode, readsLine (decodeSel (selectorOf r b c)) = true →
      c = St.ACK_LOW ∨ c = St.ACK_HIGH ∨ c = St.BIT_LOW ∨ c = St.BIT_HIGH := by decide
  exact all _ _ _ h

/-- The state with other inputs in its cycle. -/
def withInputs (y : Inputs) (s : State) : State := { s with inp := y }

/-- The outcome with its next state changed by `g`. -/
def mapNext (g : State → State) : Host.Outcome State Fault Refusal → Host.Outcome State Fault Refusal
  | .next t => .next (g t)
  | .fault f => .fault f
  | .refused r => .refused r

theorem outcomeOf_map (g : State → State) (e : Except Fault State) :
    outcomeOf (e.map g) = mapNext g (outcomeOf e) := by
  cases e <;> rfl

/-! ### The operations with other inputs -/

section
variable (y : Inputs) (s : State)

theorem wait_withInputs (T : Nat) (S : StCode) : wait T S (withInputs y s) = withInputs y (wait T S s) := by
  by_cases h : s.wcnt = T - 1 <;> simp [wait, withInputs, h]

theorem execRelease_withInputs : execRelease (withInputs y s) = mapNext (withInputs y) (execRelease s) := by
  by_cases h : s.wcnt = s.cfg.tPull - 1
  · rw [execRelease_last h, execRelease_last (s := withInputs y s) h]
    rfl
  · rw [execRelease_early h, execRelease_early (s := withInputs y s) h]
    rfl

theorem afterBit_withInputs : afterBit (withInputs y s) = withInputs y (afterBit s) := by
  by_cases h : s.idx = lastBit <;> simp [afterBit, withInputs, h]

theorem decodePair_withInputs (lo hi : Nat) :
    decodePair lo hi (withInputs y s) = (decodePair lo hi s).map (withInputs y) := by
  by_cases ht : lo = s.cfg.timeout ∨ hi = s.cfg.timeout
  · rw [decodePair_timeout ht, decodePair_timeout (s := withInputs y s) ht]
    rfl
  · by_cases hb : byteIndex s.idx < 5
    · rw [decodePair_bit ht hb, decodePair_bit (s := withInputs y s) ht hb]
      exact congrArg Except.ok (afterBit_withInputs y { s with
        buf := s.buf.set (byteIndex s.idx) (shiftIn s.buf[byteIndex s.idx] (pairBit lo hi)) })
    · simp [decodePair, withInputs, ht, bufRead, hb, Except.map]

theorem execDecode_withInputs : execDecode (withInputs y s) = mapNext (withInputs y) (execDecode s) := by
  have hr : ∀ k, rawRead k (withInputs y s) = rawRead k s := fun _ => rfl
  have hp : ∀ lo hi, outcomeOf (decodePair lo hi (clearDone (withInputs y s))) =
      mapNext (withInputs y) (outcomeOf (decodePair lo hi (clearDone s))) := fun lo hi => by
    rw [← outcomeOf_map, ← decodePair_withInputs]
    rfl
  unfold execDecode
  simp only [hr, hp]
  have hi : (withInputs y s).idx = s.idx := rfl
  rw [hi]
  cases rawRead (lowIndex s.idx) s with
  | error f => rfl
  | ok lo => cases rawRead (highIndex s.idx) s <;> rfl

theorem execValidate_withInputs : execValidate (withInputs y s) = mapNext (withInputs y) (execValidate s) := by
  by_cases h : checksumOk s.buf = true <;> simp [execValidate, withInputs, mapNext, endAttempt, h]

end

/-- An operation that does not read the line does not read any input. -/
theorem exec_withInputs (y : Inputs) (s : State) {i : Instr} (hi : readsLine i = false) :
    exec i (withInputs y s) = mapNext (withInputs y) (exec i s) := by
  cases i with
  | reset | start | idleWait | unused101x | unused11xx => rfl
  | rstHigh b => exact congrArg Host.Outcome.next (wait_withInputs y (clearDone s) s.cfg.tIdle St.START_LOW)
  | startLow b => exact congrArg Host.Outcome.next (wait_withInputs y (clearDone s) s.cfg.tStart St.RELEASE)
  | release b => exact execRelease_withInputs y s
  | decode b => exact execDecode_withInputs y s
  | validate b => exact execValidate_withInputs y s
  | ackLow | ackHigh | bitLow | bitHigh => cases hi

/-! ### The edge and the step with other inputs -/

/-- Of the inputs of the ending cycle the edge reads only the call and the time that passes. -/
theorem edge_withInputs {y : Inputs} {s : State} (t : State) (hcall : y.call = s.inp.call) (hdt : y.dt = s.inp.dt) :
    edge (withInputs y s) (withInputs y t) = edge s t := by
  cases y
  subst hcall hdt
  rfl

theorem step_withInputs {y : Inputs} {s : State} (hcall : y.call = s.inp.call) (hdt : y.dt = s.inp.dt)
    (hsel : selector (withInputs y s) = selector s) (hi : readsLine (decodeSel (selector s)) = false) :
    step (withInputs y s) = step s := by
  have hend : ∀ o, endCycle (withInputs y s) (mapNext (withInputs y) o) = endCycle s o := by
    rintro (t | f | r)
    · exact congrArg Host.Outcome.next (edge_withInputs t hcall hdt)
    · rfl
    · rfl
  unfold step
  rw [hsel, exec_withInputs y s hi, hend]
  rfl

/-- Settles O27: the state selects an operation that reads no input, and the edge replaces the line's level. -/
theorem lineIgnoredOutsideMeasurements : Obligations.LineIgnoredOutsideMeasurements := by
  unfold Obligations.LineIgnoredOutsideMeasurements
  intro s x hs
  exact step_withInputs (y := { s.inp with dqI := x }) rfl rfl rfl (Bool.eq_false_iff.2 (mt readsLine_selected hs))

end Sys2Proof.Machine

/-! Where validity comes from and the order of the sequencer's states (10_state.md R28, R35). -/

namespace Sys2Proof.Machine

/-! ### `valid` rises only in VALIDATE -/

theorem outcomeOf_eq_next {e : Except Fault State} {t : State} : outcomeOf e = .next t ↔ e = .ok t := by
  cases e <;> simp [outcomeOf]

theorem map_eq_ok {ε α β : Type} {g : α → β} {e : Except ε α} {b : β} :
    e.map g = .ok b ↔ ∃ a, e = .ok a ∧ g a = b := by
  cases e <;> simp [Except.map]

@[simp] theorem wait_valid (T : Nat) (S : StCode) (s : State) : (wait T S s).valid = s.valid := by
  rcases wait_cases T S s with ⟨-, h⟩ | ⟨-, h⟩ <;> rw [h]

@[simp] theorem afterPair_valid (s : State) : (afterPair s).valid = s.valid := by
  unfold afterPair
  split <;> rfl

@[simp] theorem afterBit_valid (s : State) : (afterBit s).valid = s.valid := by
  unfold afterBit
  split <;> rfl

theorem handshake_valid {L : Level} {g : State → State} {s : State} (h : (handshake L g s).valid = true)
    (hg : ∀ t, (g t).valid = t.valid) : s.valid = true := by
  unfold handshake at h
  split at h
  · split at h
    · cases h
    · simpa [hg] using h
  · exact h

/-- Recording a count keeps `valid`, as its successor state does. -/
theorem record_valid {k v : Nat} {g : State → State} {s u : State}
    (h : outcomeOf ((rawWrite k v s).map g) = .next u) (hg : ∀ t, (g t).valid = t.valid) : u.valid = s.valid := by
  obtain ⟨t, ht, rfl⟩ := map_eq_ok.1 (outcomeOf_eq_next.1 h)
  rw [hg, (rawWrite_eq_ok.1 ht).2]

theorem decodePair_valid {lo hi : Nat} {s u : State} (h : decodePair lo hi s = .ok u) (hv : u.valid = true) :
    s.valid = true := by
  unfold decodePair at h
  split at h
  · cases h
    cases hv
  · split at h
    · cases h
    · obtain ⟨t, ht, rfl⟩ := map_eq_ok.1 h
      unfold bufWrite at ht
      split at ht
      · cases ht
        simpa using hv
      · cases ht

theorem execDecode_valid {s u : State} (h : execDecode s = .next u) (hv : u.valid = true) : s.valid = true := by
  unfold execDecode at h
  split at h
  · cases h
  · split at h
    · cases h
    · exact decodePair_valid (s := clearDone s) (outcomeOf_eq_next.1 h) hv

/-- Every operation but VALIDATE keeps `valid` or clears it (10_state.md R28). -/
theorem exec_valid {i : Instr} {s u : State} (hi : ∀ b, i ≠ .validate b) (h : exec i s = .next u)
    (hv : u.valid = true) : s.valid = true := by
  cases i with
  | reset | start => cases h; cases hv
  | idleWait | unused101x | unused11xx => cases h; exact hv
  | rstHigh | startLow => cases h; simpa using hv
  | release =>
    by_cases hw : s.wcnt = s.cfg.tPull - 1
    · cases (execRelease_last hw).symm.trans h
      exact hv
    · cases (execRelease_early hw).symm.trans h
      exact hv
  | ackLow | ackHigh => cases h; exact handshake_valid hv fun _ => rfl
  | bitLow =>
    cases hpo : poll LOW s with
    | ended v => exact (record_valid ((execBitLow_of_ended hpo).symm.trans h) fun _ => rfl).symm.trans hv
    | continues =>
      cases (execBitLow_of_continues hpo).symm.trans h
      exact hv
  | bitHigh =>
    cases hpo : poll HIGH s with
    | ended v => exact (record_valid ((execBitHigh_of_ended hpo).symm.trans h) afterPair_valid).symm.trans hv
    | continues =>
      cases (execBitHigh_of_continues hpo).symm.trans h
      exact hv
  | decode => exact execDecode_valid h hv
  | validate b => exact absurd rfl (hi b)

/-- VALIDATE is selected in its own state only, and not under reset (30_encoding.md R71). -/
theorem selected_validate {s : State} {b : Bool} (h : decodeSel (selector s) = .validate b) :
    s.inp.rst = false ∧ s.st = St.VALIDATE := by
  have all : ∀ r a b : Bool, ∀ c : StCode, decodeSel (selectorOf r a c) = .validate b → r = false ∧ c = St.VALIDATE := by
    decide
  exact all _ _ _ _ h

/-- Settles O29: only VALIDATE raises `valid`, and it does so exactly for a matching sum. -/
theorem validComesOnlyFromAPassingChecksum : Obligations.ValidComesOnlyFromAPassingChecksum := by
  unfold Obligations.ValidComesOnlyFromAPassingChecksum
  intro s t h hs ht
  obtain ⟨-, u, hu, rfl⟩ := step_eq_next.1 h
  obtain ⟨b, hb⟩ : ∃ b, decodeSel (selector s) = .validate b := by
    by_contra hno
    exact absurd (exec_valid (not_exists.1 hno) hu ht) (by simp [hs])
  obtain ⟨hr, hst⟩ := selected_validate hb
  rw [hb] at hu
  by_cases hc : s.buf[4].toNat = (s.buf[0].toNat + s.buf[1].toNat + s.buf[2].toNat + s.buf[3].toNat) % 256
  · cases (execValidate_ok hc).symm.trans hu
    exact ⟨hr, hst, hc, rfl, rfl, rfl, rfl⟩
  · cases (execValidate_bad hc).symm.trans hu
    cases ht

/-! ### The order of the states -/

/-- Settles O33: one transition of R35 for each thing an operation can do. -/
theorem sequencerKeepsItsOrder : Obligations.SequencerKeepsItsOrder := by
  unfold Obligations.SequencerKeepsItsOrder
  intro s t hI h hr
  obtain ⟨u, hu, rfl⟩ := step_moves hI hr h
  rw [edge_st]
  cases hu with
  | waitEarly hst => rcases hst with hst | hst | hst <;> simp [hst]
  | pollContinues hst => rcases hst with hst | hst | hst | hst <;> simp [hst]
  | ackTimeout hst => rcases hst with hst | hst <;> simp [hst]
  | start hst | idleWait hst | rstHighLast hst | startLowLast hst | releaseLast hst | ackLowEnds hst | ackHighEnds hst
  | bitLowEnds _ hst | bitHighEnds _ hst | lastBitHighEnds _ hst | decodeTimeout hst | decodeBit _ _ hst
  | decodeLast _ _ hst | validateOk hst | validateBad hst => simp [hst]

end Sys2Proof.Machine

/-! The reset state of every build (10_state.md R39) and the outputs as functions of the registers (R36, R37). -/

namespace Sys2Proof.Machine

/-! ### The reset state -/

/-- The reset state is that of its own build, booted with the inputs of its first cycle. -/
theorem reset_eq_boot : State.reset = State.boot resetBuild [State.reset.inp] := rfl

theorem resetBuild_ok : resetBuild.ok = true := defaults_ok 2000 le_rfl (by decide)

/-- Settles O9: every booted state, the reset state among them, holds the reset values, and the outputs read them. -/
theorem resetStateIsAsStated : Obligations.ResetStateIsAsStated := by
  unfold Obligations.ResetStateIsAsStated
  intro s hs
  obtain ⟨b, script, rfl⟩ : ∃ b script, s = State.boot b script := hs.elim (fun h => ⟨_, _, h.trans reset_eq_boot⟩) id
  have hdata : dataO State.reset = 0 := by decide
  exact ⟨⟨rfl, rfl, rfl, rfl, rfl, rfl, rfl, rfl⟩, fun _ => rfl, rfl, rfl, rfl, rfl, hdata, rfl, rfl, rfl⟩

/-! ### The reset state meets the invariants -/

theorem subMod_lt (w a b : Nat) : subMod w a b < 2 ^ w := by
  have hpos : (0 : Int) < 2 ^ w := by positivity
  have hlt := Int.emod_lt_of_pos ((a : Int) - b) hpos
  have hnn := Int.emod_nonneg ((a : Int) - b) hpos.ne'
  unfold subMod
  zify
  rwa [Int.toNat_of_nonneg hnn]

theorem boot_regInv {b : Build} (script : List Inputs) (hb : b.ok = true) : RegInv (State.boot b script) where
  build := hb
  legalState := by simp [State.boot, State.reset]
  bitIndex := by simp [State.boot, State.reset]
  waitCount := waitLength_pos hb
  pulseCount := Nat.zero_le _
  pulseIdle := fun _ => rfl
  rawForm := Memory.wf_nil
  rawCounts := nofun
  rawWritten := nofun
  validStatus := by simp [State.boot, State.reset]
  legalStatus := by simp [State.boot, State.reset]
  inAttempt := fun h => absurd rfl h
  doneOutcome := nofun
  hostTimes := ⟨Nat.two_pow_pos _, subMod_lt _ _ _⟩
  hostStart := nofun

theorem boot_payloadInv (b : Build) (script : List Inputs) : PayloadInv (State.boot b script) where
  payload := fun k hk => by
    have h0 : decodedCount (State.boot b script) = 0 := by simp [decodedCount, State.boot, State.reset]
    rw [h0, decodedByte_zero]
    simp [State.boot, State.reset]
  noTimeout := nofun
  bitTimeout := nofun
  okSum := nofun
  badSum := nofun

/-- Settles O36: the reset state is a booted one, and no attempt has written or decoded anything in those. -/
theorem resetMeetsTheInvariants : Obligations.ResetMeetsTheInvariants := by
  unfold Obligations.ResetMeetsTheInvariants
  refine ⟨?_, fun b script hb => ⟨boot_regInv script hb, boot_payloadInv b script⟩⟩
  rw [reset_eq_boot]
  exact ⟨boot_regInv _ resetBuild_ok, boot_payloadInv _ _⟩

/-! ### The outputs -/

/-- Two words side by side are a number in base `2 ^ m`. -/
theorem toNat_append_eq_add {n m : Nat} (x : BitVec n) (y : BitVec m) :
    (x ++ y).toNat = x.toNat * 2 ^ m + y.toNat := by
  rw [BitVec.toNat_append, ← Nat.shiftLeft_add_eq_or_of_lt y.isLt, Nat.shiftLeft_eq]

/-- `data_o` holds byte 0 in its highest bits (30_encoding.md R76). -/
theorem dataO_toNat (s : State) : (dataO s).toNat =
    (((s.buf[0].toNat * 256 + s.buf[1].toNat) * 256 + s.buf[2].toNat) * 256 + s.buf[3].toNat) * 256 +
      s.buf[4].toNat := by
  simp only [dataO, toNat_append_eq_add, Nat.reducePow]

/-- The line is LOW exactly where the block or the sensor pulls it (10_state.md R37). -/
theorem lineLevel_eq_low_iff (s : State) (pulls : Bool) :
    lineLevel s pulls = LOW ↔ s.st = St.START_LOW ∨ pulls = true := by
  simp only [lineLevel, dqDriveLowO, LOW, Bool.not_eq_false', Bool.or_eq_true, decide_eq_true_eq]

/-- Settles O23: each output is its register or a test of it. -/
theorem outputsFollowRegisters : Obligations.OutputsFollowRegisters := by
  unfold Obligations.OutputsFollowRegisters
  intro s
  exact ⟨decide_eq_true_iff, Iff.rfl, Iff.rfl, rfl, rfl, decide_eq_true_iff, by simp [critO], dataO_toNat s,
    lineLevel_eq_low_iff s⟩

end Sys2Proof.Machine

/-! The memories of the block (20_memory.md): the order of `data_o`, its observation, and which operations write what. -/

namespace Sys2Proof.Machine

/-! ### The payload on `data_o` -/

/-- Byte `k` stands in the bits of `data_o` from `8 * (4 - k)` on (20_memory.md R55). -/
theorem dataO_getLsbD (s : State) {k j : Nat} (hk : k < 5) (hj : j < 8) :
    (dataO s).getLsbD (8 * (4 - k) + j) = s.buf[k].getLsbD j := by
  simp only [dataO, BitVec.getLsbD_append]
  interval_cases k <;> grind

/-- Settles O24: frame bit `i` is bit `7 - i % 8` of byte `i / 8`, and bit `39 - i` is that bit's place. -/
theorem dataOutIsInArrivalOrder : Obligations.DataOutIsInArrivalOrder := by
  unfold Obligations.DataOutIsInArrivalOrder
  intro s i h
  have hplace : 39 - i = 8 * (4 - i / 8) + (7 - i % 8) := by omega
  rw [hplace]
  exact dataO_getLsbD s (by omega) (by omega)

/-- Settles O25: the observation tests `valid_o`. -/
theorem observedDataIsFreeWhenInvalid : Obligations.ObservedDataIsFreeWhenInvalid := by
  unfold Obligations.ObservedDataIsFreeWhenInvalid
  intro s
  exact ⟨fun h => if_pos h, fun h => if_neg (Bool.eq_false_iff.1 h)⟩

/-- Settles O31: in IDLE without START and reset the operation is IDLE_WAIT, which clears `done` only. -/
theorem resultsHoldWhileIdle : Obligations.ResultsHoldWhileIdle := by
  unfold Obligations.ResultsHoldWhileIdle
  intro s t hst hr hs h
  obtain ⟨-, u, hu, rfl⟩ := step_eq_next.1 h
  rw [exec_of_st hr hst, hs] at hu
  cases (execIdleWait_eq s).symm.trans hu
  exact ⟨hst, rfl, rfl, rfl, rfl, rfl, rfl⟩

/-! ### The writers of the two memories -/

/-- The operations that write the Raw Pulse Table (20_memory.md R50). -/
def writesRaw : Instr → Bool
  | .bitLow _ => true
  | .bitHigh _ => true
  | _ => false

/-- The operations that write the Payload Buffer (20_memory.md R50). -/
def writesBuf : Instr → Bool
  | .reset _ _ => true
  | .start => true
  | .decode _ => true
  | _ => false

/-- From `s` to `u` operation `i` has left the build, and each memory that it is no writer of, as they were. -/
structure WritesOnly (i : Instr) (s u : State) : Prop where
  raw : writesRaw i = false → u.raw = s.raw
  buf : writesBuf i = false → u.buf = s.buf
  cfg : u.cfg = s.cfg

theorem WritesOnly.of_same {i : Instr} {s u : State} (hraw : u.raw = s.raw) (hbuf : u.buf = s.buf)
    (hcfg : u.cfg = s.cfg) : WritesOnly i s u := ⟨fun _ => hraw, fun _ => hbuf, hcfg⟩

theorem wait_writesOnly (i : Instr) (T : Nat) (S : StCode) (s : State) : WritesOnly i s (wait T S (clearDone s)) := by
  rcases wait_cases T S (clearDone s) with ⟨-, h⟩ | ⟨-, h⟩ <;> rw [h] <;> exact .of_same rfl rfl rfl

theorem handshake_writesOnly {i : Instr} {L : Level} {g : State → State} {s : State}
    (hg : ∀ t, WritesOnly i t (g t)) : WritesOnly i s (handshake L g s) := by
  unfold handshake
  split
  · split
    · exact .of_same rfl rfl rfl
    · have h := hg (counted L (clearDone s))
      exact ⟨h.raw, h.buf, h.cfg⟩
  · exact .of_same rfl rfl rfl

@[simp] theorem afterPair_buf (s : State) : (afterPair s).buf = s.buf := by
  unfold afterPair
  split <;> rfl

@[simp] theorem afterPair_cfg (s : State) : (afterPair s).cfg = s.cfg := by
  unfold afterPair
  split <;> rfl

/-- What BIT_LOW and BIT_HIGH share: recording the result of an ended poll keeps the buffer and the build. -/
theorem record_keeps {L : Level} {s u : State} {k : Nat} {g : State → State} {o : Host.Outcome State Fault Refusal}
    (hEnded : ∀ v, poll L s = .ended v → o = outcomeOf ((rawWrite k v (counted L (clearDone s))).map g))
    (hContinues : poll L s = .continues → o = .next (counted L (clearDone s)))
    (hgb : ∀ t, (g t).buf = t.buf) (hgc : ∀ t, (g t).cfg = t.cfg) (h : o = .next u) :
    u.buf = s.buf ∧ u.cfg = s.cfg := by
  cases hpo : poll L s with
  | ended v =>
    obtain ⟨t, ht, rfl⟩ := map_eq_ok.1 (outcomeOf_eq_next.1 ((hEnded v hpo).symm.trans h))
    obtain ⟨-, rfl⟩ := rawWrite_eq_ok.1 ht
    exact ⟨hgb _, hgc _⟩
  | continues =>
    cases (hContinues hpo).symm.trans h
    exact ⟨rfl, rfl⟩

/-- DECODE answers a next state only for a bit of the frame whose two counts are in the table (43_bit_pair.md R170). -/
theorem execDecode_reads {s u : State} (h : execDecode s = .next u) : s.idx.toNat ≤ 39 ∧
    ∃ lo hi, s.raw.get (2 * s.idx.toNat) = some lo ∧ s.raw.get (2 * s.idx.toNat + 1) = some hi := by
  unfold execDecode at h
  split at h
  · cases h
  · next lo hlo =>
    split at h
    · cases h
    · next hi hhi =>
      obtain ⟨hlt, hlo⟩ := rawRead_eq_ok.1 hlo
      exact ⟨(indices_lt_iff s.idx).1.1 hlt, lo, hi, hlo, (rawRead_eq_ok.1 hhi).2⟩

/-- Decoding a bit and failing on one both leave the table alone (43_bit_pair.md R170). -/
theorem execDecode_keeps {s u : State} (h : execDecode s = .next u) : u.raw = s.raw ∧ u.cfg = s.cfg := by
  obtain ⟨hidx, lo, hi, hlo, hhi⟩ := execDecode_reads h
  by_cases ht : lo = s.cfg.timeout ∨ hi = s.cfg.timeout
  · cases (execDecode_timeout hidx hlo hhi ht).symm.trans h
    exact ⟨rfl, rfl⟩
  · by_cases h39 : s.idx.toNat < 39
    · cases (execDecode_more h39 hlo hhi ht).symm.trans h
      exact ⟨rfl, rfl⟩
    · cases (execDecode_last hidx (idx_eq_39 h39 hidx) hlo hhi ht).symm.trans h
      exact ⟨rfl, rfl⟩

/-- Every operation keeps to its own memories (20_memory.md R50, 70_reset_and_hazards.md R260). -/
theorem exec_writesOnly {i : Instr} {s u : State} (h : exec i s = .next u) : WritesOnly i s u := by
  cases i with
  | reset | start => cases h; exact ⟨fun _ => rfl, nofun, rfl⟩
  | idleWait | unused101x | unused11xx => cases h; exact .of_same rfl rfl rfl
  | rstHigh | startLow => cases h; exact wait_writesOnly _ _ _ s
  | release =>
    by_cases hw : s.wcnt = s.cfg.tPull - 1
    · cases (execRelease_last hw).symm.trans h
      exact .of_same rfl rfl rfl
    · cases (execRelease_early hw).symm.trans h
      exact .of_same rfl rfl rfl
  | ackLow | ackHigh => cases h; exact handshake_writesOnly fun _ => .of_same rfl rfl rfl
  | bitLow =>
    obtain ⟨hbuf, hcfg⟩ :=
      record_keeps (fun _ => execBitLow_of_ended) execBitLow_of_continues (goto_buf _) (goto_cfg _) h
    exact ⟨nofun, fun _ => hbuf, hcfg⟩
  | bitHigh =>
    obtain ⟨hbuf, hcfg⟩ :=
      record_keeps (fun _ => execBitHigh_of_ended) execBitHigh_of_continues afterPair_buf afterPair_cfg h
    exact ⟨nofun, fun _ => hbuf, hcfg⟩
  | decode =>
    obtain ⟨hraw, hcfg⟩ := execDecode_keeps h
    exact ⟨fun _ => hraw, nofun, hcfg⟩
  | validate =>
    cases h
    split <;> exact .of_same rfl rfl rfl

/-- Which selectors pick a writer of the table (30_encoding.md R71). -/
theorem writesRaw_selected {s : State} (h : writesRaw (decodeSel (selector s)) = true) :
    s.inp.rst = false ∧ (s.st = St.BIT_LOW ∨ s.st = St.BIT_HIGH) := by
  have all : ∀ r b : Bool, ∀ c : StCode, writesRaw (decodeSel (selectorOf r b c)) = true →
      r = false ∧ (c = St.BIT_LOW ∨ c = St.BIT_HIGH) := by decide
  exact all _ _ _ h

/-- Which selectors pick a writer of the buffer (30_encoding.md R71). -/
theorem writesBuf_selected {s : State} (h : writesBuf (decodeSel (selector s)) = true) :
    s.inp.rst = true ∨ (s.st = St.IDLE ∧ s.inp.startI = true) ∨ s.st = St.DECODE := by
  have all : ∀ r b : Bool, ∀ c : StCode, writesBuf (decodeSel (selectorOf r b c)) = true →
      r = true ∨ (c = St.IDLE ∧ b = true) ∨ c = St.DECODE := by decide
  exact all _ _ _ h

/-- Settles O28: a memory that changes is one that the selected operation writes, and no edge writes either. -/
theorem memoriesHaveTheirWriters : Obligations.MemoriesHaveTheirWriters := by
  unfold Obligations.MemoriesHaveTheirWriters
  intro s t h
  obtain ⟨-, u, hu, rfl⟩ := step_eq_next.1 h
  have hw := exec_writesOnly hu
  exact ⟨fun hne => writesRaw_selected (Bool.eq_true_of_not_eq_false (mt hw.raw hne)),
    fun hne => writesBuf_selected (Bool.eq_true_of_not_eq_false (mt hw.buf hne)), hw.cfg⟩

end Sys2Proof.Machine

/-! The encoding (30_encoding.md): decode and encode are inverse, and a word placed on the selector runs in the next step. -/

namespace Sys2Proof.Machine

/-! ### Selectors and operations -/

/-- The three fields of a selector are all of it (30_encoding.md R71). -/
@[simp] theorem selectorOf_fields (w : Sel) : selectorOf (Sel.rst w) (Sel.start w) (Sel.st w) = w := by
  revert w; decide

/-- The field `rst` selects RESET, and the other two an operation without it (30_encoding.md R71). -/
theorem decodeSel_selectorOf (r b : Bool) (c : StCode) :
    decodeSel (selectorOf r b c) = if r then .reset b c else decodeState b c := by
  simp only [decodeSel, Sel.rst_selectorOf, Sel.start_selectorOf, Sel.st_selectorOf]

/-- What a state code selects without `rst` is encoded by that code (30_encoding.md R72). -/
theorem encode_decodeState (b : Bool) (c : StCode) : encode (decodeState b c) = selectorOf false b c := by
  revert b c; decide

theorem decodeState_wf (b : Bool) (c : StCode) : (decodeState b c).wf = true := by
  revert b c; decide

theorem encode_decodeSel (w : Sel) : encode (decodeSel w) = w := by
  rw [← selectorOf_fields w, decodeSel_selectorOf]
  split
  · next h => rw [h]; rfl
  · next h => rw [encode_decodeState, Bool.eq_false_iff.2 h]

theorem decodeSel_wf (w : Sel) : (decodeSel w).wf = true := by
  unfold decodeSel
  split
  · rfl
  · exact decodeState_wf _ _

/-- A reserved code of row UNUSED_101x selects that row (30_encoding.md R73). -/
theorem decodeState_of_codeIn101x (b : Bool) {c : StCode} (h : codeIn101x c = true) :
    decodeState b c = .unused101x b c := by
  revert b c; decide

/-- A reserved code of row UNUSED_11xx selects that row (30_encoding.md R73). -/
theorem decodeState_of_codeIn11xx (b : Bool) {c : StCode} (h : codeIn11xx c = true) :
    decodeState b c = .unused11xx b c := by
  revert b c; decide

theorem decodeSel_encode {i : Instr} (hi : i.wf = true) : decodeSel (encode i) = i := by
  cases i with
  | start | idleWait => rfl
  | unused101x b c => exact (decodeSel_selectorOf false b c).trans (decodeState_of_codeIn101x b hi)
  | unused11xx b c => exact (decodeSel_selectorOf false b c).trans (decodeState_of_codeIn11xx b hi)
  | reset b c => exact decodeSel_selectorOf true b c
  | rstHigh b | startLow b | release b | ackLow b | ackHigh b | bitLow b | bitHigh b | decode b | validate b =>
    exact decodeSel_selectorOf false b _

/-- Settles O2: the fields of each word are its bits. -/
theorem selectorWordsDecodeRight : Obligations.SelectorWordsDecodeRight := by
  unfold Obligations.SelectorWordsDecodeRight
  decide

/-! ### The byte form -/

/-- A selector in the low six bits of a byte is read back from it. -/
theorem decodeBytes_setWidth_cons (w : Sel) (rest : List Byte) :
    decodeBytes (w.setWidth 8 :: rest) = .ok (decodeSel w, rest) := by
  have hw : (w.setWidth 8).toNat = w.toNat := BitVec.toNat_setWidth_of_le (by decide)
  simp only [decodeBytes, hw, if_pos w.isLt, BitVec.ofNat_toNat, BitVec.setWidth_eq]

/-- Settles O3: `decodeSel` and `encode` are inverse, and the byte carries the selector. -/
theorem encodingIsABijection : Obligations.EncodingIsABijection := by
  unfold Obligations.EncodingIsABijection
  refine ⟨fun i hi => ⟨decodeSel_encode hi, fun rest => ?_⟩, fun w => ⟨decodeSel_wf w, encode_decodeSel w⟩⟩
  have hbytes := decodeBytes_setWidth_cons (encode i) rest
  rwa [decodeSel_encode hi] at hbytes

/-! ### The placed word -/

theorem decodeTableWord_of_lt {w : Nat} (h : w < 64) : decodeTableWord 8 w = some (decodeSel (BitVec.ofNat 6 w)) := by
  have hbyte : BitVec.ofNat 8 w = (BitVec.ofNat 6 w).setWidth 8 := by
    apply BitVec.eq_of_toNat_eq
    simp only [BitVec.toNat_ofNat, BitVec.toNat_setWidth]
    omega
  rw [decodeTableWord, if_pos (by omega), hbyte, decodeBytes_setWidth_cons]

/-- The bits of a placed word are the selector of the cycle (30_encoding.md R71). -/
theorem selector_placeWord (w : Nat) (s : State) : selector (placeWord w s) = BitVec.ofNat 6 w := by
  have hrst : Sel.rst (BitVec.ofNat 6 w) = w.testBit 5 := BitVec.getLsbD_ofNat 6 w 5
  have hstart : Sel.start (BitVec.ofNat 6 w) = w.testBit 4 := BitVec.getLsbD_ofNat 6 w 4
  have hst : Sel.st (BitVec.ofNat 6 w) = BitVec.ofNat 4 w := by
    apply BitVec.eq_of_toNat_eq
    simp only [Sel.st, BitVec.extractLsb'_toNat, BitVec.toNat_ofNat, Nat.shiftRight_zero]
    omega
  rw [← selectorOf_fields (BitVec.ofNat 6 w), hrst, hstart, hst]
  rfl

/-- The edge writes no register of the block. -/
theorem sameBlock_edge (s t : State) : SameBlock t (edge s t) := ⟨rfl, rfl, rfl, rfl, rfl, rfl, rfl, rfl, rfl⟩

/-- Settles O4: the decoder and the step both read the word's six bits. -/
theorem placedWordRunsNext : Obligations.PlacedWordRunsNext := by
  unfold Obligations.PlacedWordRunsNext
  intro s w hw hok
  have hsel : selector (s.withFetchWord 8 w) = BitVec.ofNat 6 w := selector_placeWord w s
  refine ⟨_, decodeTableWord_of_lt hw, hsel, fun t ht => ⟨edge (s.withFetchWord 8 w) t, ?_, sameBlock_edge _ t⟩⟩
  rw [step_of_ok (s := s.withFetchWord 8 w) hok, hsel, ht, endCycle_next]

end Sys2Proof.Machine

/-! Stimulus programs (30_encoding.md R96, R97): the levels that the runs of a line track give, and the inputs of a run
in which no host makes a call. -/

namespace Sys2Proof.Machine

/-! ### The line track -/

/-- How many cycles finite runs of the line take together. -/
def runsLength (rs : List LineRun) : Nat := (rs.map fun r => r.2.getD 0).sum

/-- From the end of finite runs on, a line track gives the levels of the rest of the track. -/
theorem lineLevels_append_getElem? {before : List LineRun} (hfin : ∀ r ∈ before, r.2 ≠ none) (rs : List LineRun) :
    ∀ {n t : Nat}, t < n → runsLength before ≤ t →
      (lineLevels (before ++ rs) n)[t]? = (lineLevels rs (n - runsLength before))[t - runsLength before]? := by
  induction before with
  | nil => intros; rfl
  | cons r before ih =>
    intro n t ht hle
    obtain ⟨l, _ | m⟩ := r
    · exact absurd rfl (hfin _ List.mem_cons_self)
    · have hsum : runsLength ((l, some m) :: before) = m + runsLength before := rfl
      rw [hsum] at hle ⊢
      rw [List.cons_append, lineLevels_run_getElem? ht, if_neg (by omega),
        ih (fun r hr => hfin r (List.mem_cons_of_mem _ hr)) (by omega) (by omega), Nat.sub_sub, Nat.sub_sub]

/-- The level a run gives the cycles it lasts. -/
theorem lineLevels_cons_getElem? {l : Level} {len : Option Nat} (rs : List LineRun) {n t : Nat} (ht : t < n)
    (hlen : ∀ m, len = some m → t < m) : (lineLevels ((l, len) :: rs) n)[t]? = some (some l) := by
  cases len with
  | none => exact lineLevels_hold_getElem? ht
  | some m => rw [lineLevels_run_getElem? ht, if_pos (hlen m rfl)]

/-- The line input of a cycle is the level its track gives it, or a free value. -/
theorem Program.encoding_dqI {q : Program} {n t : Nat} {l : Option Level} (h : (lineLevels q.runs n)[t]? = some l) :
    ∃ i, (q.encoding n)[t]? = some i ∧ i.dqI = l.getD (Config.freeInputs t).dqI :=
  ⟨cycleInputs q.cmds t l, by rw [q.encoding_getElem?, h]; rfl, rfl⟩

/-- BYTE is its eight bits, bit 7 first (30_encoding.md R97). -/
theorem byteRuns_eq (m : Timing) (v : Byte) : byteRuns m v =
    [7, 6, 5, 4, 3, 2, 1, 0].flatMap fun k => bitRuns m (decide (v.toNat / 2 ^ k % 2 = 1)) := by
  simp only [byteRuns, BitVec.getLsbD, Nat.testBit_eq_decide_div_mod_eq]

/-- Settles O57: the runs before a run are skipped cycle by cycle, and the run or the end of the track comes next. -/
theorem lineTrackDrivesItsCycles : Obligations.LineTrackDrivesItsCycles := by
  unfold Obligations.LineTrackDrivesItsCycles
  refine ⟨fun b m => ⟨fun _ _ => rfl, fun _ => rfl, rfl, fun _ _ => rfl, rfl, rfl, byteRuns_eq m,
    fun _ _ _ _ _ => rfl, fun _ => rfl⟩, ?_, ?_⟩
  · intro q before rest l len n t hruns hfin hle hlen ht
    have hruns' : q.runs = before ++ (l, len) :: rest := hruns
    refine Program.encoding_dqI (l := some l) ?_
    rw [hruns', lineLevels_append_getElem? hfin _ ht hle]
    exact lineLevels_cons_getElem? rest (Nat.sub_lt_sub_right hle ht) fun m hm => Nat.sub_lt_left_of_lt_add hle (hlen m hm)
  · intro q n t hfin hle ht
    refine Program.encoding_dqI (l := none) ?_
    have hskip := lineLevels_append_getElem? hfin [] ht hle
    rw [List.append_nil] at hskip
    exact hskip.trans (lineLevels_nil_getElem? (Nat.sub_lt_sub_right hle ht))

/-! ### A run without calls of the host -/

/-- A host that no call reaches stays ready and drives nothing; only its timebase moves (45_host.md R200, R202). -/
theorem hostMove_of_no_call {s : State} (hready : s.host.phase = .ready) (hcall : s.inp.call = none) :
    hostMove s = hostClock s := by
  simp only [hostMove, hready, hcall]

/-- A step beside a ready host without a call leaves the host ready and the inputs of the coming cycles as they are. -/
theorem step_of_no_call {s t : State} (h : step s = .next t) (hready : s.host.phase = .ready)
    (hcall : s.inp.call = none) : t.host.phase = .ready ∧ ∀ j, inputAt t j = inputAt s (j + 1) := by
  obtain ⟨-, u, -, rfl⟩ := step_eq_next.1 h
  have hmove := hostMove_of_no_call hready hcall
  have hphase : (hostMove s).phase = .ready := by rw [hmove]; exact hready
  refine ⟨hphase, fun j => ?_⟩
  cases j with
  | zero =>
    have hdrive : hostDrives (hostMove s) = false := by simp only [hostDrives, hphase]
    rw [inputAt_one]
    simp only [inputAt, edge, hdrive, Bool.or_false]
  | succ j =>
    simp only [inputAt, edge_stim, edge_cycle, List.getElem?_tail]
    congr 2
    omega

/-- A run in whose cycles no host makes a call has the scripted or free inputs on the pins. -/
theorem run_inp_of_no_call (n : Nat) : ∀ s : State, RegInv s → s.host.phase = .ready →
    (∀ j < n, (inputAt s j).call = none) → ∃ u, Sys2Proof.core.run n s = .next u ∧ u.inp = inputAt s n := by
  induction n with
  | zero => exact fun s _ _ _ => ⟨s, rfl, rfl⟩
  | succ n ih =>
    intro s hI hready hcall
    obtain ⟨t, ht⟩ := exists_step_of_regInv hI
    obtain ⟨hreadyt, hinp⟩ := step_of_no_call ht hready (hcall 0 (by omega))
    obtain ⟨u, hu, hui⟩ := ih t (step_regInv hI ht) hreadyt fun j hj => by
      rw [hinp]; exact hcall (j + 1) (by omega)
    exact ⟨u, (run_succ n ht).trans hu, hui.trans (hinp n)⟩

/-! ### The command track -/

/-- The inputs of a machine booted with a script are the script's. -/
theorem inputAt_boot {b : Build} {script : List Inputs} {t : Nat} {i : Inputs} (h : script[t]? = some i) :
    inputAt (State.boot b script) t = i := by
  cases t with
  | zero => simp [inputAt, State.boot, List.headD_eq_head?_getD, List.head?_eq_getElem?, h]
  | succ t => simp [inputAt, State.boot, List.getElem?_tail, h]

/-- Every cycle of an encoding has the inputs of `cycleInputs`, whatever its line track says. -/
theorem Program.encoding_eq_cycleInputs (q : Program) {n t : Nat} (h : t < n) :
    ∃ l, (q.encoding n)[t]? = some (cycleInputs q.cmds t l) := by
  have hlt : t < (lineLevels q.runs n).length := by rwa [lineLevels_length]
  exact ⟨(lineLevels q.runs n)[t], by rw [q.encoding_getElem?, List.getElem?_eq_getElem hlt]; rfl⟩

/-- Settles O50: every cycle's entry is the `cmd` track's, and a run without calls has it on the pins. -/
theorem commandTrackDrivesItsCycles : Obligations.CommandTrackDrivesItsCycles := by
  unfold Obligations.CommandTrackDrivesItsCycles
  intro q n t ht
  obtain ⟨l, hl⟩ := q.encoding_eq_cycleInputs ht
  refine ⟨q.encoding_length n, cycleInputs q.cmds t l, hl, cmdStart_iff, cmdReset_iff, rfl, rfl, fun hok => ?_⟩
  rw [← inputAt_boot (b := q.cfg) hl]
  refine run_inp_of_no_call t _ (boot_regInv _ hok) rfl fun j hj => ?_
  obtain ⟨k, hk⟩ := q.encoding_eq_cycleInputs (hj.trans ht)
  rw [inputAt_boot hk]
  rfl

end Sys2Proof.Machine

/-! The control rules (40_control.md): the operation of a cycle, START, IDLE_WAIT and UNUSED, the START that is ignored,
the `done` pulse, and how long a wait lasts. -/

namespace Sys2Proof.Machine

/-! ### The operations of control -/

theorem step_of_exec {s : State} {o : Host.Outcome State Fault Refusal} (hok : s.cfg.ok = true)
    (h : exec (decodeSel (selector s)) s = o) : step s = endCycle s o := by
  rw [step_of_ok hok, h]

/-- Settles O1: `step` is `exec` of the selected operation and then the edge, and no operation refuses. -/
theorem stepRunsSelectedOperation : Obligations.StepRunsSelectedOperation := by
  unfold Obligations.StepRunsSelectedOperation
  rintro s i hok rfl
  refine ⟨fun t ht => ⟨edge s t, step_of_exec hok ht, sameBlock_edge s t, rfl, rfl, ?_⟩,
    fun f hf => step_of_exec hok hf, exec_ne_refused _ s⟩
  rw [inputAt_one]
  exact ⟨rfl, rfl, rfl, rfl, rfl, rfl, rfl⟩

/-- Settles O10: the next state of START, field by field. -/
theorem startOperation : Obligations.StartOperation := by
  unfold Obligations.StartOperation
  intro s
  exact ⟨decodeSel_selectorOf false true St.IDLE, _, execStart_eq s, fun k hk => Vector.getElem_replicate hk,
    rfl, rfl, rfl, rfl, rfl, rfl, rfl, rfl, rfl, rfl, rfl, rfl, rfl⟩

/-- Settles O11: the next state of IDLE_WAIT, field by field; the line is driven in START_LOW only. -/
theorem idleWaitOperation : Obligations.IdleWaitOperation := by
  unfold Obligations.IdleWaitOperation
  intro s
  refine ⟨decodeSel_selectorOf false false St.IDLE, fun h => by simp [dqDriveLowO, h], _, execIdleWait_eq s, ?_⟩
  exact ⟨rfl, rfl, rfl, rfl, rfl, rfl, rfl, rfl, rfl, rfl, rfl, rfl, rfl, rfl⟩

/-- Both rows of UNUSED have one meaning (40_control.md R105). -/
theorem exec_unused {s : State} {b : Bool} {c : StCode} {i : Instr} (h : i = .unused101x b c ∨ i = .unused11xx b c) :
    exec i s = .next { s with st := St.IDLE, done := false } := by
  rcases h with rfl | rfl
  · exact (execUnused_eq s).1
  · exact (execUnused_eq s).2

/-- Settles O12: each reserved code lies in its row, and the next state of both rows, field by field. -/
theorem unusedOperation : Obligations.UnusedOperation := by
  unfold Obligations.UnusedOperation
  intro s b c i hi
  have h101x : c = 10 ∨ c = 11 → codeIn101x c = true := by rintro (rfl | rfl) <;> decide
  have h11xx : 12 ≤ c.toNat → codeIn11xx c = true := fun h => decide_eq_true (by omega)
  refine ⟨fun h => ?_, fun h => ?_, _, exec_unused hi, ?_⟩
  · exact (decodeSel_selectorOf false b c).trans (decodeState_of_codeIn101x b (h101x h))
  · exact (decodeSel_selectorOf false b c).trans (decodeState_of_codeIn11xx b (h11xx h))
  · exact ⟨rfl, rfl, rfl, rfl, rfl, rfl, rfl, rfl, rfl, rfl, rfl, rfl, rfl, rfl⟩

/-! ### The ignored START -/

/-- Outside IDLE the state code alone selects the meaning: no operation reads the start bit of its selector
(40_control.md R103). -/
theorem exec_decodeState_start (a b : Bool) {c : StCode} (hc : c ≠ St.IDLE) :
    exec (decodeState a c) = exec (decodeState b c) := by
  unfold decodeState
  split
  · next h0 => exact absurd (BitVec.eq_of_toNat_eq h0) hc
  all_goals rfl

theorem poll_withInputs {y : Inputs} {s : State} (L : Level) (hd : y.dqI = s.inp.dqI) :
    poll L (withInputs y s) = poll L s := by
  have hs : sample (withInputs y s) = sample s := hd
  simp only [poll, hs]
  rfl

theorem counted_withInputs {y : Inputs} {s : State} (L : Level) (hd : y.dqI = s.inp.dqI) :
    counted L (clearDone (withInputs y s)) = withInputs y (counted L (clearDone s)) := by
  have hp : pollCount L (clearDone (withInputs y s)) = pollCount L (clearDone s) := by
    rw [pollCount_clearDone, pollCount_clearDone, pollCount, pollCount, poll_withInputs L hd]
    rfl
  rw [counted, hp]
  rfl

theorem handshake_withInputs {y : Inputs} {s : State} (L : Level) {g : State → State} (hd : y.dqI = s.inp.dqI)
    (hg : ∀ t, g (withInputs y t) = withInputs y (g t)) :
    handshake L g (withInputs y s) = withInputs y (handshake L g s) := by
  have hp := poll_withInputs L hd
  have hc := counted_withInputs L hd
  cases h : poll L s with
  | continues => rw [handshake_continues h, handshake_continues (hp.trans h), hc]
  | ended v =>
    by_cases hv : v = s.cfg.timeout
    · subst hv
      rw [handshake_timeout h, handshake_timeout (s := withInputs y s) (hp.trans h), hc]
      rfl
    · rw [handshake_ended h hv, handshake_ended (s := withInputs y s) (hp.trans h) hv, hc, hg]

/-- Recording a count and the state after it do not read the inputs. -/
theorem record_withInputs (y : Inputs) (k v : Nat) (t : State) {g : State → State}
    (hg : ∀ t, g (withInputs y t) = withInputs y (g t)) :
    outcomeOf ((rawWrite k v (withInputs y t)).map g) =
      mapNext (withInputs y) (outcomeOf ((rawWrite k v t).map g)) := by
  by_cases hk : k < rawEntries
  · rw [rawWrite_of_lt v _ hk, rawWrite_of_lt v _ hk]
    exact congrArg Host.Outcome.next (hg { t with raw := t.raw.set k v })
  · rw [rawWrite_of_not_lt v _ hk, rawWrite_of_not_lt v _ hk]
    rfl

theorem afterPair_withInputs (y : Inputs) (s : State) : afterPair (withInputs y s) = withInputs y (afterPair s) := by
  by_cases h : s.idx = lastBit <;> simp [afterPair, withInputs, h]

theorem execBitLow_withInputs {y : Inputs} {s : State} (hd : y.dqI = s.inp.dqI) :
    execBitLow (withInputs y s) = mapNext (withInputs y) (execBitLow s) := by
  simp only [execBitLow, poll_withInputs LOW hd, counted_withInputs LOW hd]
  cases poll LOW s with
  | continues => rfl
  | ended v => exact record_withInputs y _ v _ fun _ => rfl

theorem execBitHigh_withInputs {y : Inputs} {s : State} (hd : y.dqI = s.inp.dqI) :
    execBitHigh (withInputs y s) = mapNext (withInputs y) (execBitHigh s) := by
  simp only [execBitHigh, poll_withInputs HIGH hd, counted_withInputs HIGH hd]
  cases poll HIGH s with
  | continues => rfl
  | ended v => exact record_withInputs y _ v _ (afterPair_withInputs y)

/-- Of the inputs of its cycle an operation reads the level of the line at most (10_state.md R38). -/
theorem exec_withInputs_of_dqI_eq {y : Inputs} {s : State} (hd : y.dqI = s.inp.dqI) (i : Instr) :
    exec i (withInputs y s) = mapNext (withInputs y) (exec i s) := by
  cases i with
  | ackLow b => exact congrArg Host.Outcome.next (handshake_withInputs LOW hd fun _ => rfl)
  | ackHigh b => exact congrArg Host.Outcome.next (handshake_withInputs HIGH hd fun _ => rfl)
  | bitLow b => exact execBitLow_withInputs hd
  | bitHigh b => exact execBitHigh_withInputs hd
  | reset | start | idleWait | rstHigh | startLow | release | decode | validate | unused101x | unused11xx =>
    exact exec_withInputs y s rfl

/-- The meaning of a cycle's operation outside IDLE does not depend on `start_i` (40_control.md R103). -/
theorem exec_selected_start {y : Inputs} {s : State} (hst : s.st ≠ St.IDLE) (hrst : y.rst = s.inp.rst) :
    exec (decodeSel (selector (withInputs y s))) = exec (decodeSel (selector s)) := by
  cases hr : s.inp.rst with
  | true => rw [selected_reset hr, selected_reset (s := withInputs y s) (hrst.trans hr)]; rfl
  | false =>
    rw [selected_state hr, selected_state (s := withInputs y s) (hrst.trans hr)]
    exact exec_decodeState_start _ _ hst

theorem endCycle_withInputs {y : Inputs} {s : State} (hcall : y.call = s.inp.call) (hdt : y.dt = s.inp.dt)
    (o : Host.Outcome State Fault Refusal) :
    endCycle (withInputs y s) (mapNext (withInputs y) o) = endCycle s o := by
  cases o with
  | next t => exact congrArg Host.Outcome.next (edge_withInputs t hcall hdt)
  | fault f => rfl
  | refused r => rfl

/-- A step outside IDLE reads of its inputs all but `start_i` at most (40_control.md R103). -/
theorem step_withInputs_of_busy {y : Inputs} {s : State} (hst : s.st ≠ St.IDLE) (hrst : y.rst = s.inp.rst)
    (hd : y.dqI = s.inp.dqI) (hcall : y.call = s.inp.call) (hdt : y.dt = s.inp.dt) :
    step (withInputs y s) = step s := by
  unfold step
  rw [exec_selected_start hst hrst, exec_withInputs_of_dqI_eq hd, endCycle_withInputs hcall hdt]
  rfl

/-- Settles O26: outside IDLE neither the selected meaning nor the operation nor the edge reads `start_i`. -/
theorem ignoredStartHasNoEffect : Obligations.IgnoredStartHasNoEffect := by
  unfold Obligations.IgnoredStartHasNoEffect
  intro s x hst
  exact step_withInputs_of_busy (y := { s.inp with startI := x }) hst rfl rfl rfl rfl

/-! ### The `done` pulse -/

/-- The moves that set `done` are those that go from another state to IDLE (40_control.md R104). -/
theorem moves_done_iff {s u : State} (h : Moves s u) : u.done = true ↔ s.st ≠ St.IDLE ∧ u.st = St.IDLE := by
  refine ⟨fun hd => ?_, fun ⟨hbusy, hu⟩ => moves_ends_done hbusy h hu⟩
  cases h with
  | ackTimeout hst _ _ => exact ⟨by rcases hst with hst | hst <;> simp [hst], rfl⟩
  | decodeTimeout hst _ | validateOk hst _ | validateBad hst _ => exact ⟨by simp [hst], rfl⟩
  | start | idleWait | waitEarly | rstHighLast | startLowLast | releaseLast | pollContinues | ackLowEnds | ackHighEnds
  | bitLowEnds | bitHighEnds | lastBitHighEnds | decodeBit | decodeLast => cases hd

theorem step_done_iff {s t : State} (hI : RegInv s) (h : step s = .next t) :
    t.done = true ↔ s.inp.rst = false ∧ s.st ≠ St.IDLE ∧ t.st = St.IDLE := by
  cases hr : s.inp.rst with
  | true =>
    rw [step_reset hI.build hr] at h
    cases h
    simp
  | false =>
    obtain ⟨u, hu, rfl⟩ := step_moves hI hr h
    simpa using moves_done_iff hu

/-- Settles O30: `done` rises exactly on the way to IDLE, and from IDLE no step raises it. -/
theorem donePulsesWhenAnAttemptEnds : Obligations.DonePulsesWhenAnAttemptEnds := by
  unfold Obligations.DonePulsesWhenAnAttemptEnds
  intro s t hI h
  refine ⟨step_done_iff hI h, fun hd u hu => Bool.eq_false_iff.2 fun hdu => ?_⟩
  obtain ⟨-, -, hidle⟩ := (step_done_iff hI h).1 hd
  obtain ⟨-, hbusy, -⟩ := (step_done_iff (step_regInv hI h) hu).1 hdu
  exact hbusy hidle

/-! ### The length of a wait -/

/-- `st` is one of the three wait states (40_control.md R102). -/
def Waiting (s : State) : Prop := s.st = St.RST_HIGH ∨ s.st = St.START_LOW ∨ s.st = St.RELEASE

theorem Waiting.of_st_eq {s t : State} (h : Waiting s) (hst : t.st = s.st) : Waiting t := by
  unfold Waiting
  rwa [hst]

/-- In every cycle of a wait but the last the state lasts and the counter counts (40_control.md R102). -/
theorem step_wait_early {s : State} (hI : RegInv s) (hr : s.inp.rst = false) (hst : Waiting s)
    (hw : s.wcnt + 1 < waitLength s) :
    ∃ t, step s = .next t ∧ waitLength t = waitLength s ∧ t.st = s.st ∧ t.wcnt = s.wcnt + 1 :=
  ⟨_, step_of_moves hI hr (.waitEarly hst hw), rfl, rfl, rfl⟩

/-- The last cycle of a wait leads to the next state with both counters at 0 (40_control.md R102, 42_frame_sync.md
R143). -/
theorem step_wait_last {s : State} (hI : RegInv s) (hr : s.inp.rst = false) (hst : Waiting s)
    (hw : s.wcnt + 1 = waitLength s) : ∃ t, step s = .next t ∧ t.st = s.st + 1 ∧ t.wcnt = 0 ∧ t.pcnt = 0 := by
  rcases hst with h | h | h
  · rw [waitLength_rstHigh h] at hw
    exact ⟨_, step_of_moves hI hr (.rstHighLast h hw), by simp [h], rfl, hI.pulseIdle (by simp [Measuring, h])⟩
  · rw [waitLength_startLow h] at hw
    exact ⟨_, step_of_moves hI hr (.startLowLast h hw), by simp [h], rfl, hI.pulseIdle (by simp [Measuring, h])⟩
  · rw [waitLength_release h] at hw
    exact ⟨_, step_of_moves hI hr (.releaseLast h hw), by simp [h], rfl, rfl⟩

/-- `j` cycles after the start of a wait, fewer than it lasts, the state is the same and the counter is `j`. -/
theorem run_wait {s : State} (hI : RegInv s) (h0 : s.wcnt = 0) (hst : Waiting s) (hr : NoReset s (waitLength s))
    (j : Nat) (hj : j < waitLength s) : ∃ t, Sys2Proof.core.run j s = .next t ∧ RegInv t ∧ t.inp.rst = false ∧
      waitLength t = waitLength s ∧ t.st = s.st ∧ t.wcnt = j := by
  induction j with
  | zero => exact ⟨s, rfl, hI, hr 0 hj, rfl, rfl, h0⟩
  | succ j ih =>
    obtain ⟨t, ht, hIt, hrt, hlen, hstt, hw⟩ := ih (by omega)
    obtain ⟨u, hu, hlenu, hstu, hwu⟩ := step_wait_early hIt hrt (hst.of_st_eq hstt) (by omega)
    have hrun := run_snoc ht hu
    have hru : u.inp.rst = false := (run_inputs hrun 0).1.trans (hr _ hj)
    exact ⟨u, hrun, step_regInv hIt hu, hru, hlenu.trans hlen, hstu.trans hstt, hw ▸ hwu⟩

/-- Settles O41: the counter counts the cycles of the wait, and the cycle with `T - 1` is its last. -/
theorem waitStatesLastTheirParameter : Obligations.WaitStatesLastTheirParameter := by
  unfold Obligations.WaitStatesLastTheirParameter
  intro s hI h0 hst hr
  refine ⟨fun j hj => ?_, ?_⟩
  · obtain ⟨t, ht, -, -, -, hstt, hw⟩ := run_wait hI h0 hst hr j hj
    exact ⟨t, ht, hstt, hw⟩
  · obtain ⟨n, hn⟩ := Nat.exists_eq_add_one_of_ne_zero (waitLength_pos hI.build).ne'
    obtain ⟨t, ht, hIt, hrt, hlen, hstt, hw⟩ := run_wait hI h0 hst hr n (by omega)
    obtain ⟨u, hu, hstu, hcounters⟩ := step_wait_last hIt hrt (.of_st_eq hst hstt) (by omega)
    exact ⟨u, hn ▸ run_snoc ht hu, hstt ▸ hstu, hcounters⟩

end Sys2Proof.Machine

/-! The pulse-duration timer (41_pulse_timer.md): the cycles of a measurement, and what its operation does with the count
or with TIMEOUT. -/

namespace Sys2Proof.Machine

/-! ### The polls of one measurement -/

/-- The build and the registers that a poll which continues leaves alone (41_pulse_timer.md R121). -/
structure SameButCount (s t : State) : Prop where
  cfg : t.cfg = s.cfg
  st  : t.st = s.st
  idx : t.idx = s.idx
  raw : t.raw = s.raw
  buf : t.buf = s.buf

theorem SameButCount.trans {s t u : State} (h : SameButCount s t) (h' : SameButCount t u) : SameButCount s u :=
  ⟨h'.cfg.trans h.cfg, h'.st.trans h.st, h'.idx.trans h.idx, h'.raw.trans h.raw, h'.buf.trans h.buf⟩

theorem SameButCount.measuring {s t : State} (h : SameButCount s t) (hst : Measuring s) : Measuring t := by
  simpa only [Measuring, h.st] using hst

theorem SameButCount.expected_eq {s t : State} (h : SameButCount s t) : expected t = expected s := by
  simp only [expected, h.st]

/-- A poll that reads its level below BUDGET counts, and the measurement goes on (41_pulse_timer.md R121). -/
theorem step_poll_continues {s : State} (hI : RegInv s) (hr : s.inp.rst = false) (hst : Measuring s)
    (hd : s.inp.dqI = expected s) (hp : s.pcnt < s.cfg.budget) :
    ∃ t, step s = .next t ∧ SameButCount s t ∧ t.pcnt = s.pcnt + 1 :=
  ⟨_, step_of_moves hI hr (.pollContinues hst hd hp), ⟨rfl, rfl, rfl, rfl, rfl⟩, rfl⟩

/-- A measurement whose first `k` polls read its level has counted `j` after `j` of them (41_pulse_timer.md R122). -/
theorem run_polls {s : State} {k : Nat} (hI : RegInv s) (hst : Measuring s) (h0 : s.pcnt = 0) (hk : k ≤ s.cfg.budget)
    (hr : NoReset s k) (hl : LineHolds s (expected s) k) (j : Nat) (hj : j ≤ k) :
    ∃ t, Sys2Proof.core.run j s = .next t ∧ RegInv t ∧ SameButCount s t ∧ t.pcnt = j := by
  induction j with
  | zero => exact ⟨s, rfl, hI, ⟨rfl, rfl, rfl, rfl, rfl⟩, h0⟩
  | succ j ih =>
    obtain ⟨t, ht, hIt, hs, hp⟩ := ih (by omega)
    obtain ⟨hrst, hdq⟩ := run_inputs ht 0
    have hd : t.inp.dqI = expected t := (hdq.trans (hl j hj)).trans hs.expected_eq.symm
    have hb : t.pcnt < t.cfg.budget := by rw [hp, hs.cfg]; omega
    obtain ⟨u, hu, hsu, hpu⟩ := step_poll_continues hIt (hrst.trans (hr j hj)) (hs.measuring hst) hd hb
    exact ⟨u, run_snoc ht hu, step_regInv hIt hu, hs.trans hsu, hp ▸ hpu⟩

/-! ### What the last poll leads to -/

/-- `t` is what bit acquisition makes of the result `v` of a measurement in `s`: the entry it records and the state it goes
to (43_bit_pair.md R163, R164). -/
def Records (s : State) (v : Nat) (t : State) : Prop :=
  (s.st = St.BIT_LOW → t.st = St.BIT_HIGH ∧ t.idx = s.idx ∧ t.raw = s.raw.set (2 * s.idx.toNat) v) ∧
  (s.st = St.BIT_HIGH → t.raw = s.raw.set (2 * s.idx.toNat + 1) v ∧
    (s.idx.toNat = 39 → t.st = St.DECODE ∧ t.idx = 0) ∧
    (s.idx.toNat < 39 → t.st = St.BIT_LOW ∧ t.idx.toNat = s.idx.toNat + 1))

/-- `t` is what the operation of `s` makes of a count `v`: the handshake discards it (42_frame_sync.md R144, R145). -/
def Counts (s : State) (v : Nat) (t : State) : Prop :=
  (s.st = St.ACK_LOW → t.st = St.ACK_HIGH ∧ t.raw = s.raw) ∧
  (s.st = St.ACK_HIGH → t.st = St.BIT_LOW ∧ t.idx = 0 ∧ t.raw = s.raw) ∧
  Records s v t

/-- `t` is what the operation of `s` makes of TIMEOUT: it is fatal in the handshake only (42_frame_sync.md R147,
43_bit_pair.md R165). -/
def TimesOut (s t : State) : Prop :=
  (s.st = St.ACK_LOW ∨ s.st = St.ACK_HIGH → t.st = St.IDLE ∧ t.status = Status.TIMEOUT_ACK ∧ t.valid = false ∧
    t.done = true ∧ t.raw = s.raw ∧ t.buf = s.buf) ∧
  Records s s.cfg.timeout t

/-- What is made of a result does not depend on the polls before it. -/
theorem SameButCount.counts {s t u : State} {v : Nat} (h : SameButCount s t) (hc : Counts t v u) : Counts s v u := by
  simpa only [Counts, Records, h.st, h.idx, h.raw] using hc

theorem SameButCount.timesOut {s t u : State} (h : SameButCount s t) (ht : TimesOut t u) : TimesOut s u := by
  simpa only [TimesOut, Records, h.cfg, h.st, h.idx, h.raw, h.buf] using ht

theorem records_of_handshake {s : State} (h : s.st = St.ACK_LOW ∨ s.st = St.ACK_HIGH) (v : Nat) (t : State) :
    Records s v t := by
  rcases h with h | h <;> simp [Records, h]

theorem not_handshake_of_bit {s : State} (h : s.st = St.BIT_LOW ∨ s.st = St.BIT_HIGH) :
    s.st ≠ St.ACK_LOW ∧ s.st ≠ St.ACK_HIGH := by
  rcases h with h | h <;> simp [h]

/-- The poll that ends a measurement of bit acquisition, with a count or with TIMEOUT (41_pulse_timer.md R121). -/
theorem step_records {s : State} {v : Nat} (hI : RegInv s) (hr : s.inp.rst = false)
    (hst : s.st = St.BIT_LOW ∨ s.st = St.BIT_HIGH)
    (hv : (s.inp.dqI ≠ expected s ∧ v = s.pcnt) ∨
      (s.inp.dqI = expected s ∧ s.pcnt = s.cfg.budget ∧ v = s.cfg.timeout)) :
    ∃ t, step s = .next t ∧ t.pcnt = 0 ∧ Records s v t := by
  rcases hst with h | h
  · have hv' : (s.inp.dqI = HIGH ∧ v = s.pcnt) ∨ (s.inp.dqI = LOW ∧ s.pcnt = s.cfg.budget ∧ v = s.cfg.timeout) := by
      simpa [expected, h] using hv
    exact ⟨_, step_of_moves hI hr (.bitLowEnds v h hv'), rfl, fun _ => ⟨rfl, rfl, rfl⟩, by simp [h]⟩
  · have hv' : (s.inp.dqI = LOW ∧ v = s.pcnt) ∨ (s.inp.dqI = HIGH ∧ s.pcnt = s.cfg.budget ∧ v = s.cfg.timeout) := by
      simpa [expected, h] using hv
    by_cases hi : s.idx.toNat < 39
    · exact ⟨_, step_of_moves hI hr (.bitHighEnds v h hi hv'), rfl, by simp [h],
        fun _ => ⟨rfl, fun h39 => absurd h39 hi.ne, fun _ => ⟨rfl, idx_succ_of_lt hi⟩⟩⟩
    · exact ⟨_, step_of_moves hI hr (.lastBitHighEnds v h (idx_eq_39 hi hI.bitIndex) hv'), rfl, by simp [h],
        fun _ => ⟨rfl, fun _ => ⟨rfl, rfl⟩, fun hlt => absurd hlt hi⟩⟩

/-- A poll that reads the other level ends the measurement with the count so far (41_pulse_timer.md R121). -/
theorem step_counts {s : State} (hI : RegInv s) (hr : s.inp.rst = false) (hst : Measuring s)
    (hd : s.inp.dqI ≠ expected s) : ∃ t, step s = .next t ∧ t.pcnt = 0 ∧ Counts s s.pcnt t := by
  rcases hst with h | h | h
  · have hHigh : s.inp.dqI = HIGH := by simpa [expected, h] using hd
    exact ⟨_, step_of_moves hI hr (.ackLowEnds h hHigh), rfl, fun _ => ⟨rfl, rfl⟩, by simp [h],
      records_of_handshake (.inl h) _ _⟩
  · have hLow : s.inp.dqI = LOW := by simpa [expected, h] using hd
    exact ⟨_, step_of_moves hI hr (.ackHighEnds h hLow), rfl, by simp [h], fun _ => ⟨rfl, rfl, rfl⟩,
      records_of_handshake (.inr h) _ _⟩
  · obtain ⟨t, ht, hp, hrec⟩ := step_records hI hr h (.inl ⟨hd, rfl⟩)
    obtain ⟨hlow, hhigh⟩ := not_handshake_of_bit h
    exact ⟨t, ht, hp, fun e => absurd e hlow, fun e => absurd e hhigh, hrec⟩

/-- A poll that reads its level at BUDGET ends the measurement with TIMEOUT (41_pulse_timer.md R121). -/
theorem step_timesOut {s : State} (hI : RegInv s) (hr : s.inp.rst = false) (hst : Measuring s)
    (hd : s.inp.dqI = expected s) (hp : s.pcnt = s.cfg.budget) :
    ∃ t, step s = .next t ∧ t.pcnt = 0 ∧ TimesOut s t := by
  rcases or_assoc.2 hst with h | h
  · exact ⟨_, step_of_moves hI hr (.ackTimeout h hd hp), rfl, fun _ => ⟨rfl, rfl, rfl, rfl, rfl, rfl⟩,
      records_of_handshake h _ _⟩
  · obtain ⟨t, ht, hpt, hrec⟩ := step_records hI hr h (.inr ⟨hd, hp, rfl⟩)
    obtain ⟨hlow, hhigh⟩ := not_handshake_of_bit h
    exact ⟨t, ht, hpt, fun e => absurd e (not_or.2 ⟨hlow, hhigh⟩), hrec⟩

/-! ### Whole measurements -/

/-- Settles O43: `k` polls count to `k`, and the poll that reads the other level returns it. -/
theorem measurementCountsItsPolls : Obligations.MeasurementCountsItsPolls := by
  unfold Obligations.MeasurementCountsItsPolls
  intro s k hI hst h0 hk hr hl hd
  have hpolls := run_polls hI hst h0 hk (hr.mono k.le_succ) hl
  refine ⟨fun j hj => ?_, ?_⟩
  · obtain ⟨t, ht, -, hs, hp⟩ := hpolls j hj
    exact ⟨t, ht, hs.st, hp, hs.raw⟩
  · obtain ⟨t, ht, hIt, hs, rfl⟩ := hpolls k le_rfl
    obtain ⟨hrst, hdq⟩ := run_inputs ht 0
    have hdt : t.inp.dqI ≠ expected t := by rw [hs.expected_eq]; exact fun e => hd (hdq.symm.trans e)
    obtain ⟨u, hu, hpu, hc⟩ := step_counts hIt (hrst.trans (hr _ (Nat.lt_succ_self _))) (hs.measuring hst) hdt
    exact ⟨u, run_snoc ht hu, hpu, hs.counts hc⟩

/-- Settles O44: BUDGET polls count to BUDGET, and one more poll at the level times out. -/
theorem measurementTimesOut : Obligations.MeasurementTimesOut := by
  unfold Obligations.MeasurementTimesOut
  intro s hI hst h0 hr hl
  have hpolls := run_polls hI hst h0 le_rfl (hr.mono (Nat.le_succ _)) fun j hj => hl j (Nat.lt_succ_of_lt hj)
  refine ⟨fun j hj => ?_, ?_⟩
  · obtain ⟨t, ht, -, hs, hp⟩ := hpolls j hj
    exact ⟨t, ht, hs.st, hp⟩
  · obtain ⟨t, ht, hIt, hs, hp⟩ := hpolls _ le_rfl
    obtain ⟨hrst, hdq⟩ := run_inputs ht 0
    have hlast := Nat.lt_succ_self s.cfg.budget
    have hdt : t.inp.dqI = expected t := (hdq.trans (hl _ hlast)).trans hs.expected_eq.symm
    obtain ⟨u, hu, hpu, hout⟩ :=
      step_timesOut hIt (hrst.trans (hr _ hlast)) (hs.measuring hst) hdt (hs.cfg ▸ hp)
    exact ⟨u, run_snoc ht hu, hpu, hs.timesOut hout⟩

end Sys2Proof.Machine

/-! Frame synchronisation (42_frame_sync.md): the three waits and the two handshake measurements as single operations, the
state of every cycle from an accepted START to the first ACK_LOW poll, and the attempt that no sensor answers. -/

namespace Sys2Proof.Machine

/-! ### The operations of the waits -/

/-- `t` is what one cycle of `Wait(T, S)` makes of `s`, with its frame; of `pcnt` nothing is said, which RELEASE clears. -/
structure Waits (T : Nat) (S : StCode) (s t : State) : Prop where
  last : s.wcnt + 1 = T → t.wcnt = 0 ∧ t.st = S
  early : s.wcnt + 1 ≠ T → t.st = s.st ∧ (s.wcnt + 1 < 2 ^ s.cfg.wWait → t.wcnt = s.wcnt + 1)
  done : t.done = false
  idx : t.idx = s.idx
  raw : t.raw = s.raw
  buf : t.buf = s.buf
  valid : t.valid = s.valid
  status : t.status = s.status
  surroundings : SameSurroundings s t

theorem wait_waits {T : Nat} (hT : 1 ≤ T) (S : StCode) (s : State) : Waits T S s (wait T S (clearDone s)) := by
  rcases wait_cases T S (clearDone s) with ⟨hw, h⟩ | ⟨hw, h⟩ <;> rw [clearDone_wcnt] at hw <;> rw [h]
  · exact ⟨fun _ => ⟨rfl, rfl⟩, fun hne => absurd hw (by omega), rfl, rfl, rfl, rfl, rfl, rfl, rfl, rfl, rfl, rfl, rfl⟩
  · exact ⟨fun he => absurd hw (by omega), fun _ => ⟨rfl, Nat.mod_eq_of_lt⟩, rfl, rfl, rfl, rfl, rfl, rfl,
      rfl, rfl, rfl, rfl, rfl⟩

@[simp] theorem wait_pcnt (T : Nat) (S : StCode) (s : State) : (wait T S s).pcnt = s.pcnt := by
  rcases wait_cases T S s with ⟨-, h⟩ | ⟨-, h⟩ <;> rw [h]

/-- Settles O13: the wait of T_IDLE; the line is driven in START_LOW only. -/
theorem rstHighOperation : Obligations.RstHighOperation := by
  unfold Obligations.RstHighOperation
  intro s b hok
  obtain ⟨-, -, hT, -⟩ := build_bounds hok
  have h := wait_waits hT St.START_LOW s
  exact ⟨decodeSel_selectorOf false b St.RST_HIGH, _, rfl, h.last, h.early, fun hst => by simp [dqDriveLowO, hst],
    h.done, wait_pcnt _ _ _, h.idx, h.raw, h.buf, h.valid, h.status, h.surroundings⟩

/-- Settles O14: the wait of T_START. -/
theorem startLowOperation : Obligations.StartLowOperation := by
  unfold Obligations.StartLowOperation
  intro s b hok
  obtain ⟨-, -, -, hT, -⟩ := build_bounds hok
  have h := wait_waits hT St.RELEASE s
  exact ⟨decodeSel_selectorOf false b St.START_LOW, _, rfl, h.last, h.early, fun hst => by simp [dqDriveLowO, hst],
    h.done, wait_pcnt _ _ _, h.idx, h.raw, h.buf, h.valid, h.status, h.surroundings⟩

/-- Settles O15: the wait of T_PULL, whose last cycle also clears `pcnt`. -/
theorem releaseOperation : Obligations.ReleaseOperation := by
  unfold Obligations.ReleaseOperation
  intro s b hok
  obtain ⟨-, -, -, -, hT, -⟩ := build_bounds hok
  have h := wait_waits hT St.ACK_LOW s
  refine ⟨decodeSel_selectorOf false b St.RELEASE, _, rfl, ?_⟩
  have hline : s.st = St.RELEASE → dqDriveLowO s = false := fun hst => by simp [dqDriveLowO, hst]
  by_cases hw : s.wcnt + 1 = s.cfg.tPull
  · obtain ⟨hwcnt, hst⟩ := h.last hw
    rw [if_pos (by omega)]
    exact ⟨fun _ => ⟨hwcnt, rfl, hst⟩, fun hne => absurd hw hne, hline, h.done, h.idx, h.raw, h.buf, h.valid, h.status,
      h.surroundings⟩
  · obtain ⟨hst, hwcnt⟩ := h.early hw
    rw [if_neg (by omega)]
    exact ⟨fun he => absurd he hw, fun _ => ⟨hst, wait_pcnt _ _ _, hwcnt⟩, hline, h.done, h.idx, h.raw, h.buf, h.valid,
      h.status, h.surroundings⟩

/-! ### The operations of the handshake -/

/-- Settles O16: the poll reads HIGH, or LOW with the budget spent, or LOW below the budget. -/
theorem ackLowOperation : Obligations.AckLowOperation := by
  unfold Obligations.AckLowOperation
  intro s b hok hp
  have hbt := budget_lt_timeout hok
  refine ⟨decodeSel_selectorOf false b St.ACK_LOW, ?_⟩
  rcases poll_cases LOW s with ⟨hd, -⟩ | ⟨hd, hb, -⟩ | ⟨hd, hb, -⟩
  · have hHigh : s.inp.dqI = HIGH := Bool.eq_true_of_not_eq_false hd
    exact ⟨_, execAckLow_changed hHigh (by omega), fun _ => ⟨rfl, rfl, rfl, rfl, rfl⟩, fun h => absurd h hd,
      fun h => absurd h hd, rfl, rfl, rfl, rfl, rfl, rfl, rfl, rfl, rfl⟩
  · exact ⟨_, execAckLow_timeout hd hb, fun h => absurd (hd.symm.trans h) (by decide),
      fun _ _ => ⟨rfl, rfl, rfl, rfl, rfl⟩, fun _ h => absurd h hb.not_gt, rfl, rfl, rfl, rfl, rfl, rfl, rfl, rfl, rfl⟩
  · exact ⟨_, execAckLow_continues hd hb, fun h => absurd (hd.symm.trans h) (by decide), fun _ h => absurd h hb.ne,
      fun _ _ => ⟨rfl, rfl, rfl, rfl, rfl⟩, rfl, rfl, rfl, rfl, rfl, rfl, rfl, rfl, rfl⟩

/-- Settles O17: the poll reads LOW, or HIGH with the budget spent, or HIGH below the budget. -/
theorem ackHighOperation : Obligations.AckHighOperation := by
  unfold Obligations.AckHighOperation
  intro s b hok hp
  have hbt := budget_lt_timeout hok
  refine ⟨decodeSel_selectorOf false b St.ACK_HIGH, ?_⟩
  rcases poll_cases HIGH s with ⟨hd, -⟩ | ⟨hd, hb, -⟩ | ⟨hd, hb, -⟩
  · have hLow : s.inp.dqI = LOW := Bool.eq_false_of_not_eq_true hd
    exact ⟨_, execAckHigh_changed hLow (by omega), fun _ => ⟨rfl, rfl, rfl, rfl, rfl, rfl⟩, fun h => absurd h hd,
      fun h => absurd h hd, rfl, rfl, rfl, rfl, rfl, rfl, rfl, rfl⟩
  · exact ⟨_, execAckHigh_timeout hd hb, fun h => absurd (hd.symm.trans h) (by decide),
      fun _ _ => ⟨rfl, rfl, rfl, rfl, rfl, rfl⟩, fun _ h => absurd h hb.not_gt, rfl, rfl, rfl, rfl, rfl, rfl, rfl, rfl⟩
  · exact ⟨_, execAckHigh_continues hd hb, fun h => absurd (hd.symm.trans h) (by decide), fun _ h => absurd h hb.ne,
      fun _ _ => ⟨rfl, rfl, rfl, rfl, rfl, rfl⟩, rfl, rfl, rfl, rfl, rfl, rfl, rfl, rfl⟩

/-! ### From an accepted START to the first ACK_LOW poll -/

theorem Waiting.st_ne_idle {s : State} (h : Waiting s) : s.st ≠ St.IDLE := by
  rcases h with h | h | h <;> simp [h]

theorem Waiting.not_measuring {s : State} (h : Waiting s) : ¬ Measuring s := by
  rcases h with h | h | h <;> simp [Measuring, h]

/-- A wait leaves the build and both memories as they are (20_memory.md R50). -/
theorem step_wait_keeps_memories {s t : State} (h : step s = .next t) (hr : s.inp.rst = false) (hst : Waiting s) :
    t.cfg = s.cfg ∧ t.raw = s.raw ∧ t.buf = s.buf := by
  obtain ⟨hraw, hbuf, hcfg⟩ := memoriesHaveTheirWriters s t h
  refine ⟨hcfg, by_contra fun hne => ?_, by_contra fun hne => ?_⟩
  · obtain ⟨-, hwriter⟩ := hraw hne
    rcases hst with hst | hst | hst <;> simp [hst] at hwriter
  · have hwriter := hbuf hne
    rcases hst with hst | hst | hst <;> simp [hr, hst] at hwriter

/-- The cycle of frame synchronisation that `s` stands in, counted from the cycle of the accepted START: how far the
waits have come (42_frame_sync.md R148). -/
def syncCycle (s : State) : Nat :=
  if s.st = St.RST_HIGH then 1 + s.wcnt
  else if s.st = St.START_LOW then 1 + s.cfg.tIdle + s.wcnt
  else if s.st = St.RELEASE then 1 + s.cfg.tIdle + s.cfg.tStart + s.wcnt
  else 1 + s.cfg.tIdle + s.cfg.tStart + s.cfg.tPull

theorem syncCycle_rstHigh {s : State} (h : s.st = St.RST_HIGH) : syncCycle s = 1 + s.wcnt := by simp [syncCycle, h]

theorem syncCycle_startLow {s : State} (h : s.st = St.START_LOW) : syncCycle s = 1 + s.cfg.tIdle + s.wcnt := by
  simp [syncCycle, h]

theorem syncCycle_release {s : State} (h : s.st = St.RELEASE) :
    syncCycle s = 1 + s.cfg.tIdle + s.cfg.tStart + s.wcnt := by simp [syncCycle, h]

theorem syncCycle_ackLow {s : State} (h : s.st = St.ACK_LOW) :
    syncCycle s = 1 + s.cfg.tIdle + s.cfg.tStart + s.cfg.tPull := by simp [syncCycle, h]

/-- A wait that counts on is one cycle further. -/
theorem syncCycle_early {s t : State} (hst : Waiting s) (hcfg : t.cfg = s.cfg) (h : t.st = s.st)
    (hw : t.wcnt = s.wcnt + 1) : syncCycle t = syncCycle s + 1 := by
  rcases hst with hs | hs | hs <;> simp only [syncCycle, h, hs, hcfg, hw] <;> rfl

/-- The state after the last cycle of a wait is one cycle further. -/
theorem syncCycle_last {s t : State} (hst : Waiting s) (hlast : s.wcnt + 1 = waitLength s) (hcfg : t.cfg = s.cfg)
    (h : t.st = s.st + 1) (hw : t.wcnt = 0) :
    (Waiting t ∨ t.st = St.ACK_LOW) ∧ syncCycle t = syncCycle s + 1 := by
  rcases hst with hs | hs | hs <;> rw [hs] at h
  · rw [waitLength_rstHigh hs] at hlast
    have ht : t.st = St.START_LOW := h
    rw [syncCycle_startLow ht, syncCycle_rstHigh hs, hcfg, hw]
    exact ⟨.inl (.inr (.inl ht)), by omega⟩
  · rw [waitLength_startLow hs] at hlast
    have ht : t.st = St.RELEASE := h
    rw [syncCycle_release ht, syncCycle_startLow hs, hcfg, hw]
    exact ⟨.inl (.inr (.inr ht)), by omega⟩
  · rw [waitLength_release hs] at hlast
    have ht : t.st = St.ACK_LOW := h
    rw [syncCycle_ackLow ht, syncCycle_release hs, hcfg]
    exact ⟨.inr ht, by omega⟩

/-- `t` is a state of frame synchronisation, up to the first ACK_LOW poll, in cycle `j` of the attempt accepted in `s`. -/
structure Synchronising (s : State) (j : Nat) (t : State) : Prop where
  inv : RegInv t
  phase : Waiting t ∨ t.st = St.ACK_LOW
  cycle : syncCycle t = j
  pcnt : t.pcnt = 0
  cfg : t.cfg = s.cfg
  raw : t.raw = s.raw
  buf : t.buf = Vector.replicate 5 0

/-- The accepted START leads to the first cycle of RST_HIGH (40_control.md R101). -/
theorem step_start_synchronising {s : State} (hI : RegInv s) (hr : s.inp.rst = false) (hst : s.st = St.IDLE)
    (hs : s.inp.startI = true) : ∃ t, step s = .next t ∧ Synchronising s 1 t := by
  have hstep := step_of_moves hI hr (.start hst hs)
  exact ⟨_, hstep, step_regInv hI hstep, .inl (.inl rfl), syncCycle_rstHigh rfl,
    hI.pulseIdle (by simp [Measuring, hst]), rfl, rfl, rfl⟩

/-- Every cycle of a wait leads to the next cycle of frame synchronisation. -/
theorem Synchronising.exists_next {s t : State} {j : Nat} (h : Synchronising s j t) (hst : Waiting t)
    (hr : t.inp.rst = false) : ∃ u, step t = .next u ∧ Synchronising s (j + 1) u := by
  rcases Nat.lt_or_eq_of_le (Nat.succ_le_of_lt h.inv.waitCount) with hw | hw
  · obtain ⟨u, hu, -, hstu, hwu⟩ := step_wait_early h.inv hr hst hw
    obtain ⟨hcfg, hraw, hbuf⟩ := step_wait_keeps_memories hu hr hst
    have hwait := hst.of_st_eq hstu
    have hIu := step_regInv h.inv hu
    exact ⟨u, hu, hIu, .inl hwait, h.cycle ▸ syncCycle_early hst hcfg hstu hwu, hIu.pulseIdle hwait.not_measuring,
      hcfg.trans h.cfg, hraw.trans h.raw, hbuf.trans h.buf⟩
  · obtain ⟨u, hu, hstu, hwu, hpu⟩ := step_wait_last h.inv hr hst hw
    obtain ⟨hcfg, hraw, hbuf⟩ := step_wait_keeps_memories hu hr hst
    obtain ⟨hphase, hcycle⟩ := syncCycle_last hst hw hcfg hstu hwu
    exact ⟨u, hu, step_regInv h.inv hu, hphase, h.cycle ▸ hcycle, hpu, hcfg.trans h.cfg, hraw.trans h.raw,
      hbuf.trans h.buf⟩

/-- The cycle tells the state: each wait is below its own length (42_frame_sync.md R148). -/
theorem Synchronising.st_eq {s t : State} {j : Nat} (h : Synchronising s j t) : t.st =
    if j ≤ s.cfg.tIdle then St.RST_HIGH
    else if j ≤ s.cfg.tIdle + s.cfg.tStart then St.START_LOW
    else if j ≤ s.cfg.tIdle + s.cfg.tStart + s.cfg.tPull then St.RELEASE
    else St.ACK_LOW := by
  have hw := h.inv.waitCount
  have hj := h.cycle
  rcases h.phase with (hst | hst | hst) | hst
  · rw [waitLength_rstHigh hst, h.cfg] at hw
    rw [syncCycle_rstHigh hst] at hj
    rw [if_pos (by omega), hst]
  · rw [waitLength_startLow hst, h.cfg] at hw
    rw [syncCycle_startLow hst, h.cfg] at hj
    rw [if_neg (by omega), if_pos (by omega), hst]
  · rw [waitLength_release hst, h.cfg] at hw
    rw [syncCycle_release hst, h.cfg] at hj
    rw [if_neg (by omega), if_neg (by omega), if_pos (by omega), hst]
  · rw [syncCycle_ackLow hst, h.cfg] at hj
    rw [if_neg (by omega), if_neg (by omega), if_neg (by omega), hst]

/-- Before the cycle of the first ACK_LOW poll the block waits. -/
theorem Synchronising.waiting {s t : State} {j : Nat} (h : Synchronising s j t)
    (hj : j < 1 + s.cfg.tIdle + s.cfg.tStart + s.cfg.tPull) : Waiting t := by
  refine h.phase.resolve_right fun hst => ?_
  have hcycle := h.cycle
  rw [syncCycle_ackLow hst, h.cfg] at hcycle
  omega

/-- In the cycle of the first ACK_LOW poll the block is in ACK_LOW. -/
theorem Synchronising.st_eq_ackLow {s t : State}
    (h : Synchronising s (1 + s.cfg.tIdle + s.cfg.tStart + s.cfg.tPull) t) : t.st = St.ACK_LOW := by
  rw [h.st_eq, if_neg (by omega), if_neg (by omega), if_neg (by omega)]

/-- During an attempt there is no outcome yet (30_encoding.md R74). -/
theorem Synchronising.no_outcome {s t : State} {j : Nat} (h : Synchronising s j t) :
    t.valid = false ∧ t.status = Status.NONE := by
  have hbusy : t.st ≠ St.IDLE := h.phase.elim Waiting.st_ne_idle fun hst => by simp [hst]
  obtain ⟨hstatus, -⟩ := h.inv.inAttempt hbusy
  exact ⟨Bool.eq_false_iff.2 fun hv => absurd (hstatus.symm.trans (h.inv.validStatus.1 hv)) (by decide), hstatus⟩

/-- Every cycle from an accepted START to the first ACK_LOW poll is one of frame synchronisation. -/
theorem run_synchronising {s : State} (hI : RegInv s) (hst : s.st = St.IDLE) (hs : s.inp.startI = true)
    (hr : NoReset s (1 + s.cfg.tIdle + s.cfg.tStart + s.cfg.tPull)) (j : Nat) (hj1 : 1 ≤ j)
    (hj : j ≤ 1 + s.cfg.tIdle + s.cfg.tStart + s.cfg.tPull) :
    ∃ t, Sys2Proof.core.run j s = .next t ∧ Synchronising s j t := by
  induction j, hj1 using Nat.le_induction with
  | base =>
    obtain ⟨t, ht, hsync⟩ := step_start_synchronising hI (hr 0 (by omega)) hst hs
    exact ⟨t, run_one ht, hsync⟩
  | succ j hj1 ih =>
    obtain ⟨t, ht, hsync⟩ := ih (by omega)
    obtain ⟨hrst, -⟩ := run_inputs ht 0
    obtain ⟨u, hu, hsyncu⟩ := hsync.exists_next (hsync.waiting (by omega)) (hrst.trans (hr j (by omega)))
    exact ⟨u, run_snoc ht hu, hsyncu⟩

/-- Settles O42: each cycle is one of frame synchronisation, and its number tells the state. -/
theorem frameSyncHasItsDuration : Obligations.FrameSyncHasItsDuration := by
  unfold Obligations.FrameSyncHasItsDuration
  intro s hI hst hs hr j hj1 hj
  obtain ⟨t, ht, hsync⟩ := run_synchronising hI hst hs hr j hj1 hj
  exact ⟨t, ht, hsync.st_eq, hsync.pcnt, fun k hk => by simp [hsync.buf], hsync.no_outcome⟩

/-! ### No sensor -/

/-- `t` is the end of the attempt accepted in `s` that nothing has answered, with the table untouched (42_frame_sync.md
R149). -/
def EndsUnanswered (s t : State) : Prop :=
  t.st = St.IDLE ∧ t.done = true ∧ t.status = Status.TIMEOUT_ACK ∧ t.valid = false ∧ t.raw = s.raw ∧
    ∀ (k : Nat) (h : k < 5), t.buf[k] = 0

/-- A handshake measurement whose level stays ends the attempt after `BUDGET + 1` polls (42_frame_sync.md R147). -/
theorem run_handshake_timesOut {s t : State} (hI : RegInv t) (hst : t.st = St.ACK_LOW ∨ t.st = St.ACK_HIGH)
    (hp : t.pcnt = 0) (hr : NoReset t (t.cfg.budget + 1)) (hl : LineHolds t (expected t) (t.cfg.budget + 1))
    (hraw : t.raw = s.raw) (hbuf : t.buf = Vector.replicate 5 0) :
    ∃ u, Sys2Proof.core.run (t.cfg.budget + 1) t = .next u ∧ EndsUnanswered s u := by
  obtain ⟨-, u, hu, -, hack, -⟩ := measurementTimesOut t hI (hst.elim .inl (.inr ∘ .inl)) hp hr hl
  obtain ⟨hstu, hstatus, hvalid, hdone, hrawu, hbufu⟩ := hack hst
  exact ⟨u, hu, hstu, hdone, hstatus, hvalid, hrawu.trans hraw, fun k hk => by simp [hbufu, hbuf]⟩

/-- An ACK_LOW poll that reads HIGH leads to ACK_HIGH with the memories as they were (42_frame_sync.md R144). -/
theorem step_ackLow_high {t : State} (hI : RegInv t) (hr : t.inp.rst = false) (hst : t.st = St.ACK_LOW)
    (hd : t.inp.dqI = HIGH) : ∃ u, step t = .next u ∧ RegInv u ∧ u.st = St.ACK_HIGH ∧ u.pcnt = 0 ∧ u.cfg = t.cfg ∧
      u.raw = t.raw ∧ u.buf = t.buf :=
  have hstep := step_of_moves hI hr (.ackLowEnds hst hd)
  ⟨_, hstep, step_regInv hI hstep, rfl, rfl, rfl, rfl, rfl⟩

/-- Settles O45: the first ACK_LOW poll of a HIGH line moves on to ACK_HIGH, which times out; a LOW line times out in
ACK_LOW. -/
theorem noSensorEndsTheAttempt : Obligations.NoSensorEndsTheAttempt := by
  unfold Obligations.NoSensorEndsTheAttempt
  intro s hI hst hs
  refine ⟨fun hr hl => ?_, fun hr hl => ?_⟩
  · obtain ⟨t, ht, hsync⟩ := run_synchronising hI hst hs (hr.mono (by omega)) _ (by omega) le_rfl
    rw [Nat.add_assoc] at hr hl ⊢
    have hrt := hr.run ht
    have hlt := hl.run ht
    obtain ⟨u, hu, hIu, hstu, hpu, hcfg, hraw, hbuf⟩ :=
      step_ackLow_high hsync.inv (hrt 0 (by omega)) hsync.st_eq_ackLow (hlt 0 (by omega))
    have hbudget : u.cfg.budget = s.cfg.budget := by rw [hcfg, hsync.cfg]
    have hexpected : expected u = HIGH := by simp [expected, hstu]
    obtain ⟨v, hv, hend⟩ := run_handshake_timesOut (s := s) hIu (.inr hstu) hpu
      (hbudget ▸ hrt.run (run_one hu)) (hexpected ▸ hbudget ▸ hlt.run (run_one hu)) (hraw.trans hsync.raw)
      (hbuf.trans hsync.buf)
    exact ⟨v, by rw [run_add _ _ ht, run_add 1 _ (run_one hu), ← hbudget, hv], hend⟩
  · obtain ⟨t, ht, hsync⟩ := run_synchronising hI hst hs (hr.mono (by omega)) _ (by omega) le_rfl
    have hexpected : expected t = LOW := by simp [expected, hsync.st_eq_ackLow]
    obtain ⟨v, hv, hend⟩ := run_handshake_timesOut hsync.inv (.inl hsync.st_eq_ackLow) hsync.pcnt
      (hsync.cfg ▸ hr.run ht) (hexpected ▸ hsync.cfg ▸ hl.run ht) hsync.raw hsync.buf
    exact ⟨v, by rw [run_add _ _ ht, ← hsync.cfg, hv], hend⟩

end Sys2Proof.Machine

/-! The payload (43_bit_pair.md R174, R175): every step keeps the buffer equal to the table decoded so far, and from its first
DECODE cycle a frame is decoded in one cycle a bit. -/

namespace Sys2Proof.Machine

/-! ### How many bits are decoded -/

theorem decodedCount_decode {s : State} (h : s.st = St.DECODE) : decodedCount s = s.idx.toNat := by
  simp [decodedCount, h]

theorem decodedCount_validate {s : State} (h : s.st = St.VALIDATE) : decodedCount s = 40 := by simp [decodedCount, h]

/-- Before DECODE no bit of the attempt in progress is decoded. -/
theorem decodedCount_beforeDecode {s : State} (hbusy : s.st ≠ St.IDLE) (h : s.st.toNat < 8) : decodedCount s = 0 := by
  have hd : s.st ≠ St.DECODE := fun e => by simp [e] at h
  have hv : s.st ≠ St.VALIDATE := fun e => by simp [e] at h
  rw [decodedCount, if_neg hd, if_neg hv, if_neg hbusy]

theorem decodedCount_unanswered {s : State} (h : s.st = St.IDLE)
    (hs : s.status = Status.NONE ∨ s.status = Status.TIMEOUT_ACK) : decodedCount s = 0 := by
  rcases hs with hs | hs <;> simp [decodedCount, h, hs]

theorem decodedCount_bitTimeout {s : State} (h : s.st = St.IDLE) (hs : s.status = Status.TIMEOUT_BIT) :
    decodedCount s = s.idx.toNat := by simp [decodedCount, h, hs]

theorem decodedCount_judged {s : State} (h : s.st = St.IDLE) (hs : s.status = Status.OK ∨ s.status = Status.CHECKSUM) :
    decodedCount s = 40 := by
  rcases hs with hs | hs <;> simp [decodedCount, h, hs]

/-! ### The payload before, during and after DECODE -/

theorem payloadIs_zero {s : State} : PayloadIs s 0 ↔ ∀ (k : Nat) (h : k < 5), s.buf[k].toNat = 0 := by
  simp only [PayloadIs, decodedByte_zero]

theorem ratioBit_of_get {m : Memory} {i lo hi : Nat} (hlo : m.get (2 * i) = some lo)
    (hhi : m.get (2 * i + 1) = some hi) : ratioBit m i = decide (lo < hi) := by
  simp only [ratioBit, hlo, hhi]

/-- A state with nothing decoded and no outcome of a decoded frame meets the payload invariant if its buffer is empty. -/
theorem PayloadInv.of_undecoded {s : State} (h0 : decodedCount s = 0) (hbuf : PayloadIs s 0)
    (hout : s.st = St.IDLE → s.status = Status.NONE ∨ s.status = Status.TIMEOUT_ACK) : PayloadInv s where
  payload := h0.symm ▸ hbuf
  noTimeout := fun i hi => absurd hi (by omega)
  bitTimeout := fun hst hs => by simpa [hs] using hout hst
  okSum := fun hst hs => by simpa [hs] using hout hst
  badSum := fun hst hs => by simpa [hs] using hout hst

/-- During an attempt only the buffer has something to say about the table. -/
theorem PayloadInv.of_busy {s : State} (hbusy : s.st ≠ St.IDLE) {n : Nat} (hn : decodedCount s = n)
    (hbuf : PayloadIs s n) (hno : ∀ i < n, ¬ PairTimedOut s i) : PayloadInv s where
  payload := hn.symm ▸ hbuf
  noTimeout := hn.symm ▸ hno
  bitTimeout := fun h => absurd h hbusy
  okSum := fun h => absurd h hbusy
  badSum := fun h => absurd h hbusy

/-- The decoded bit is shifted into its byte: the buffer holds one bit of the table more (43_bit_pair.md R171, R174). -/
theorem PayloadIs.shift {s t : State} (h : PayloadIs s s.idx.toNat) (hle : s.idx.toNat ≤ 39) {lo hi : Nat}
    (hlo : s.raw.get (2 * s.idx.toNat) = some lo) (hhi : s.raw.get (2 * s.idx.toNat + 1) = some hi)
    (hbuf : t.buf = bufAfter s.buf s.idx hle (decide (lo < hi))) (hraw : t.raw = s.raw) :
    PayloadIs t (s.idx.toNat + 1) := by
  intro k hk
  have hlt := decodedByte_lt s.raw (s.idx.toNat + 1) k
  simp only [hbuf, hraw]
  by_cases e : k = s.idx.toNat / 8
  · rw [decodedByte_succ_same _ _ _ e, ratioBit_of_get hlo hhi] at hlt ⊢
    rw [bufAfter_same hle _ hk e, h k hk, Nat.mod_eq_of_lt hlt]
  · rw [bufAfter_other hle _ hk e, decodedByte_succ_other _ _ _ e, h k hk]

/-- No operation before DECODE writes the buffer or reports an outcome of a decoded frame. -/
theorem PayloadInv.beforeDecode {s u : State} (hP : PayloadInv s) (hbusy : s.st ≠ St.IDLE) (hs : s.st.toNat < 8)
    (hu : decodedCount u = 0) (hbuf : u.buf = s.buf)
    (hout : u.st = St.IDLE → u.status = Status.NONE ∨ u.status = Status.TIMEOUT_ACK) : PayloadInv u := by
  have h0 := decodedCount_beforeDecode hbusy hs ▸ hP.payload
  exact .of_undecoded hu (payloadIs_zero.2 (hbuf ▸ payloadIs_zero.1 h0)) hout

/-- An accepted START and a reset clear the buffer (40_control.md R101, 70_reset_and_hazards.md R260). -/
theorem PayloadInv.of_cleared {s : State} (h0 : decodedCount s = 0) (hbuf : s.buf = Vector.replicate 5 0)
    (hout : s.st = St.IDLE → s.status = Status.NONE ∨ s.status = Status.TIMEOUT_ACK) : PayloadInv s :=
  .of_undecoded h0 (payloadIs_zero.2 fun k hk => by simp [hbuf]) hout

/-- The end of an attempt keeps the buffer and what it holds, and the outcome has to be true of it. -/
theorem PayloadInv.endAttempt {s : State} (hP : PayloadInv s) {valid : Bool} {code : StatusCode}
    (hn : decodedCount (endAttempt valid code s) = decodedCount s)
    (hbit : code = Status.TIMEOUT_BIT → PairTimedOut s s.idx.toNat)
    (hok : code = Status.OK →
      s.buf[4].toNat = (s.buf[0].toNat + s.buf[1].toNat + s.buf[2].toNat + s.buf[3].toNat) % 256)
    (hbad : code = Status.CHECKSUM →
      s.buf[4].toNat ≠ (s.buf[0].toNat + s.buf[1].toNat + s.buf[2].toNat + s.buf[3].toNat) % 256) :
    PayloadInv (endAttempt valid code s) :=
  ⟨hn.symm ▸ hP.payload, hn.symm ▸ hP.noTimeout, fun _ => hbit, fun _ => hok, fun _ => hbad⟩

/-! ### Every step keeps the payload -/

theorem moves_payloadInv {s u : State} (hP : PayloadInv s) (h : Moves s u) : PayloadInv u := by
  have hpay := hP.payload
  have hno := hP.noTimeout
  cases h with
  | start hst hs => exact .of_cleared (decodedCount_beforeDecode (by simp) (by simp)) rfl (by simp)
  | idleWait hst hs => exact { hP with }
  | waitEarly hst hw =>
    have ⟨hbusy, hlt⟩ : s.st ≠ St.IDLE ∧ s.st.toNat < 8 := by rcases hst with h | h | h <;> simp [h]
    exact hP.beforeDecode hbusy hlt (decodedCount_beforeDecode hbusy hlt) rfl fun h => absurd h hbusy
  | pollContinues hst hd hp =>
    have ⟨hbusy, hlt⟩ : s.st ≠ St.IDLE ∧ s.st.toNat < 8 := by rcases hst with h | h | h | h <;> simp [h]
    exact hP.beforeDecode hbusy hlt (decodedCount_beforeDecode hbusy hlt) rfl fun h => absurd h hbusy
  | ackTimeout hst hd hp =>
    have ⟨hbusy, hlt⟩ : s.st ≠ St.IDLE ∧ s.st.toNat < 8 := by rcases hst with h | h <;> simp [h]
    exact hP.beforeDecode hbusy hlt (decodedCount_unanswered rfl (.inr rfl)) rfl fun _ => .inr rfl
  | rstHighLast hst _ | startLowLast hst _ | releaseLast hst _ | ackLowEnds hst _ | ackHighEnds hst _
  | bitLowEnds _ hst _ | bitHighEnds _ hst _ _ =>
    exact hP.beforeDecode (by simp [hst]) (by simp [hst]) (decodedCount_beforeDecode (by simp) (by simp)) rfl (by simp)
  | lastBitHighEnds v hst hi hv =>
    exact hP.beforeDecode (by simp [hst]) (by simp [hst]) (decodedCount_decode rfl) rfl (by simp)
  | decodeTimeout hst ht =>
    exact hP.endAttempt ((decodedCount_bitTimeout rfl rfl).trans (decodedCount_decode hst).symm) (fun _ => ht) nofun nofun
  | decodeBit lo hi hst h39 hlo hhi ht =>
    have hn : decodedCount { s with idx := s.idx + 1 } = s.idx.toNat + 1 :=
      (decodedCount_decode (s := { s with idx := s.idx + 1 }) hst).trans (idx_succ_of_lt h39)
    rw [decodedCount_decode hst] at hpay hno
    exact .of_busy (by simp [hst]) hn (hpay.shift h39.le hlo hhi rfl rfl) (Nat.forall_lt_succ_right.2 ⟨hno, ht⟩)
  | decodeLast lo hi hst h39 hle hlo hhi ht =>
    have hn : 40 = s.idx.toNat + 1 := by rw [h39]; rfl
    rw [decodedCount_decode hst] at hpay hno
    exact .of_busy (by simp) ((decodedCount_validate rfl).trans hn) (hpay.shift hle hlo hhi rfl rfl)
      (Nat.forall_lt_succ_right.2 ⟨hno, ht⟩)
  | validateOk hst h =>
    exact hP.endAttempt ((decodedCount_judged rfl (.inl rfl)).trans (decodedCount_validate hst).symm) nofun (fun _ => h)
      nofun
  | validateBad hst h =>
    exact hP.endAttempt ((decodedCount_judged rfl (.inr rfl)).trans (decodedCount_validate hst).symm) nofun nofun
      fun _ => h

theorem step_payloadInv {s t : State} (hI : RegInv s) (hP : PayloadInv s) (h : step s = .next t) : PayloadInv t := by
  cases hr : s.inp.rst with
  | true =>
    rw [step_reset hI.build hr] at h
    cases h
    exact .of_cleared (decodedCount_unanswered rfl (.inl rfl)) rfl fun _ => .inl rfl
  | false =>
    obtain ⟨u, hu, rfl⟩ := step_moves hI hr h
    exact { moves_payloadInv hP hu with }

/-- Settles O39: a step is a reset, which clears the buffer, or one of the moves, of which only DECODE writes it. -/
theorem stepKeepsThePayload : Obligations.StepKeepsThePayload := by
  unfold Obligations.StepKeepsThePayload
  exact fun _ _ => step_payloadInv

/-! ### The DECODE phase -/

/-- In DECODE the pair of the bit holds two values (10_state.md R26). -/
theorem RegInv.exists_pair {s : State} (hI : RegInv s) (hst : s.st = St.DECODE) :
    ∃ lo hi, s.raw.get (2 * s.idx.toNat) = some lo ∧ s.raw.get (2 * s.idx.toNat + 1) = some hi := by
  have hidx := hI.bitIndex
  have hwr := written_complete (.inl hst) ▸ hI.rawWritten
  obtain ⟨lo, hlo⟩ := hwr (2 * s.idx.toNat) (by omega)
  obtain ⟨hi, hhi⟩ := hwr (2 * s.idx.toNat + 1) (by omega)
  exact ⟨lo, hi, hlo, hhi⟩

/-- `t` is the DECODE cycle of bit `j` in the attempt whose first DECODE cycle is `s`. -/
structure Decoding (s : State) (j : Nat) (t : State) : Prop where
  inv : RegInv t
  payload : PayloadInv t
  cfg : t.cfg = s.cfg
  raw : t.raw = s.raw
  st : t.st = St.DECODE
  idx : t.idx.toNat = j

theorem Decoding.pairTimedOut_iff {s t : State} {j : Nat} (h : Decoding s j t) :
    PairTimedOut t t.idx.toNat ↔ PairTimedOut s j := by
  simp only [PairTimedOut, h.raw, h.cfg, h.idx]

/-- A bit before the last one whose pair has no TIMEOUT leads to the DECODE cycle of the next bit (43_bit_pair.md R170). -/
theorem Decoding.exists_next {s t : State} {j : Nat} (h : Decoding s j t) (hr : t.inp.rst = false) (hj : j < 39)
    (ht : ¬ PairTimedOut s j) : ∃ u, step t = .next u ∧ Decoding s (j + 1) u := by
  obtain ⟨lo, hi, hlo, hhi⟩ := h.inv.exists_pair h.st
  have hlt : t.idx.toNat < 39 := h.idx ▸ hj
  have hstep := step_of_moves h.inv hr (.decodeBit lo hi h.st hlt hlo hhi (mt h.pairTimedOut_iff.1 ht))
  exact ⟨_, hstep, step_regInv h.inv hstep, step_payloadInv h.inv h.payload hstep, h.cfg, h.raw, h.st,
    (idx_succ_of_lt hlt).trans (congrArg (· + 1) h.idx)⟩

/-- The last bit leads to VALIDATE if its pair has no TIMEOUT (43_bit_pair.md R170). -/
theorem Decoding.exists_validate {s t : State} (h : Decoding s 39 t) (hr : t.inp.rst = false)
    (ht : ¬ PairTimedOut s 39) : ∃ u, step t = .next u ∧ u.st = St.VALIDATE ∧ u.raw = s.raw := by
  obtain ⟨lo, hi, hlo, hhi⟩ := h.inv.exists_pair h.st
  have h39 : t.idx = 39 := idx_eq_39 h.idx.not_lt h.idx.le
  exact ⟨_, step_of_moves h.inv hr (.decodeLast lo hi h.st h39 h.idx.le hlo hhi (mt h.pairTimedOut_iff.1 ht)), rfl, h.raw⟩

/-- The pairs before `j` without a TIMEOUT take one DECODE cycle each (43_bit_pair.md R176). -/
theorem run_decoding {s : State} (h : Decoding s 0 s) (j : Nat) :
    j < 40 → (∀ i < j, ¬ PairTimedOut s i) → NoReset s j → ∃ t, Sys2Proof.core.run j s = .next t ∧ Decoding s j t := by
  induction j with
  | zero => exact fun _ _ _ => ⟨s, rfl, h⟩
  | succ j ih =>
    intro hj hno hr
    obtain ⟨hno, hpair⟩ := Nat.forall_lt_succ_right.1 hno
    obtain ⟨t, ht, hd⟩ := ih (by omega) hno (hr.mono j.le_succ)
    obtain ⟨u, hu, hdu⟩ := hd.exists_next (hr.run ht).now (by omega) hpair
    exact ⟨u, run_snoc ht hu, hdu⟩

/-- With all 40 bits decoded a byte is its eight bits, most significant first (43_bit_pair.md R174). -/
theorem decodedByte_complete (m : Memory) {k : Nat} (hk : k < 5) :
    decodedByte m 40 k = ∑ j ∈ Finset.range 8, (ratioBit m (8 * k + j)).toNat * 2 ^ (7 - j) := by
  have h8 : bitsInByte 40 k = 8 := by unfold bitsInByte; omega
  rw [decodedByte, h8]

/-- VALIDATE ends the attempt with the buffer as it is, valid exactly if the checksum matches (44_checksum.md R190). -/
theorem step_validate {s : State} (hI : RegInv s) (hr : s.inp.rst = false) (hst : s.st = St.VALIDATE) :
    ∃ t, step s = .next t ∧ t.st = St.IDLE ∧ t.done = true ∧ t.buf = s.buf ∧ (t.valid = true ↔
      s.buf[4].toNat = (s.buf[0].toNat + s.buf[1].toNat + s.buf[2].toNat + s.buf[3].toNat) % 256) := by
  by_cases hsum : s.buf[4].toNat = (s.buf[0].toNat + s.buf[1].toNat + s.buf[2].toNat + s.buf[3].toNat) % 256
  · exact ⟨_, step_of_moves hI hr (.validateOk hst hsum), rfl, rfl, rfl, iff_of_true rfl hsum⟩
  · exact ⟨_, step_of_moves hI hr (.validateBad hst hsum), rfl, rfl, rfl, iff_of_false Bool.false_ne_true hsum⟩

/-- A table without a TIMEOUT is decoded into VALIDATE in 40 cycles (43_bit_pair.md R174, R176). -/
theorem run_to_validate {s : State} (h : Decoding s 0 s) (hno : ∀ i < 40, ¬ PairTimedOut s i)
    (hr : NoReset s 40) :
    ∃ t, Sys2Proof.core.run 40 s = .next t ∧ RegInv t ∧ t.st = St.VALIDATE ∧ t.raw = s.raw ∧
      ∀ (k : Nat) (h : k < 5), t.buf[k].toNat =
        ∑ j ∈ Finset.range 8, (ratioBit s.raw (8 * k + j)).toNat * 2 ^ (7 - j) := by
  obtain ⟨hno, hpair⟩ := Nat.forall_lt_succ_right.1 hno
  obtain ⟨t, ht, hd⟩ := run_decoding h 39 (by omega) hno (hr.mono (by omega))
  obtain ⟨u, hu, hstu, hraw⟩ := hd.exists_validate (hr.run (m := 1) ht).now hpair
  have hpay := (step_payloadInv hd.inv hd.payload hu).payload
  rw [decodedCount_validate hstu] at hpay
  refine ⟨u, run_snoc ht hu, step_regInv hd.inv hu, hstu, hraw, fun k hk => ?_⟩
  rw [hpay k hk, decodedByte_complete _ hk, hraw]

/-- A table whose lowest timed-out pair is `n` fails in the DECODE cycle of bit `n` (43_bit_pair.md R175, R176). -/
theorem run_to_bitTimeout {s : State} (h : Decoding s 0 s) {n : Nat} (hn : n < 40) (htn : PairTimedOut s n)
    (hno : ∀ i < n, ¬ PairTimedOut s i) (hr : NoReset s (n + 1)) :
    ∃ t, Sys2Proof.core.run (n + 1) s = .next t ∧ t.st = St.IDLE ∧ t.done = true ∧ t.valid = false ∧
      t.status = Status.TIMEOUT_BIT ∧ t.raw = s.raw ∧ PayloadIs t n := by
  obtain ⟨t, ht, hd⟩ := run_decoding h n hn hno (hr.mono n.le_succ)
  have hu := step_of_moves hd.inv (hr.run ht).now (.decodeTimeout hd.st (hd.pairTimedOut_iff.2 htn))
  have hpay := (step_payloadInv hd.inv hd.payload hu).payload
  rw [decodedCount_bitTimeout rfl rfl] at hpay
  exact ⟨_, run_snoc ht hu, rfl, rfl, rfl, rfl, hd.raw, hd.idx ▸ hpay⟩

/-- Settles O47: a DECODE cycle for every bit and then VALIDATE, or a failure in the cycle of the first timed-out pair. -/
theorem decodePhaseYieldsTheFrame : Obligations.DecodePhaseYieldsTheFrame := by
  unfold Obligations.DecodePhaseYieldsTheFrame
  intro s hI hP hst h0
  have h : Decoding s 0 s := ⟨hI, hP, rfl, rfl, hst, congrArg BitVec.toNat h0⟩
  refine ⟨fun hno hr => ?_, fun n hn => run_to_bitTimeout h hn⟩
  obtain ⟨t, ht, hIt, hstt, hraw, hbytes⟩ := run_to_validate h hno (hr.mono (by omega))
  obtain ⟨u, hu, hstu, hdone, hbuf, hvalid⟩ := step_validate hIt (hr.run (m := 1) ht).now hstt
  exact ⟨⟨t, ht, hstt, hraw, hbytes⟩, u, run_snoc ht hu, hstu, hdone, hbuf ▸ hvalid, hbuf ▸ hbytes⟩

end Sys2Proof.Machine

/-! The bit-pair processor (43_bit_pair.md): how long bit acquisition lasts, and BIT_LOW, BIT_HIGH and DECODE as single
operations. -/

namespace Sys2Proof.Machine

/-! ### The end of bit acquisition -/

/-- While `crit_o` is 1 the 41 cycles of DECODE and VALIDATE and at least one poll are left (43_bit_pair.md R162). -/
theorem cyclesLeft_of_crit {s : State} (hI : RegInv s) (hc : critO s = true) :
    41 < cyclesLeft s ∧ cyclesLeft s ≤ 80 * (s.cfg.budget + 1) + 41 := by
  have hst : s.st = St.BIT_LOW ∨ s.st = St.BIT_HIGH := by simpa [critO] using hc
  have hp := hI.pulseCount
  have hn : measurementsAfter s ≤ 79 := by
    rcases hst with h | h
    · rw [measurementsAfter_bitLow h]; omega
    · rw [measurementsAfter_bitHigh h]; omega
  have := Nat.mul_le_mul_right (s.cfg.budget + 1) hn
  rw [cyclesLeft_measuring (.inr (.inr hst))]
  omega

/-- From a state with `crit_o` = 1 the attempt leaves bit acquisition at the latest when 41 cycles of it are left. -/
theorem run_crit_falls (n : Nat) : ∀ s : State, RegInv s → critO s = true → cyclesLeft s ≤ n + 41 →
    ∃ k t, 1 ≤ k ∧ k ≤ n ∧ Sys2Proof.core.run k s = .next t ∧ critO t = false := by
  induction n with
  | zero =>
    intro s hI hc hn
    exact absurd (cyclesLeft_of_crit hI hc).1 (by omega)
  | succ n ih =>
    intro s hI hc hn
    have hbusy : s.st ≠ St.IDLE := fun h => by simp [critO, h] at hc
    obtain ⟨t, ht⟩ := exists_step_of_regInv hI
    cases hct : critO t with
    | false => exact ⟨1, t, le_rfl, by omega, run_one ht, hct⟩
    | true =>
      have hlt := step_cyclesLeft_lt hI hbusy ht
      obtain ⟨k, u, hk, hkn, hrun, hu⟩ := ih t (step_regInv hI ht) hct (by omega)
      exact ⟨k + 1, u, by omega, by omega, (run_succ k ht).trans hrun, hu⟩

/-- Settles O48: every step leaves fewer cycles of the attempt, and bit acquisition has at most 80 (BUDGET + 1) of them. -/
theorem critAlwaysFalls : Obligations.CritAlwaysFalls := by
  unfold Obligations.CritAlwaysFalls
  exact fun s hI hc => run_crit_falls _ s hI hc (cyclesLeft_of_crit hI hc).2

/-! ### The operations of bit acquisition -/

/-- Settles O18: the poll reads HIGH, or LOW with the budget spent, or LOW below the budget. -/
theorem bitLowOperation : Obligations.BitLowOperation := by
  unfold Obligations.BitLowOperation
  intro s b hidx
  refine ⟨decodeSel_selectorOf false b St.BIT_LOW, ?_⟩
  rcases poll_cases LOW s with ⟨hd, hpo⟩ | ⟨hd, hb, hpo⟩ | ⟨hd, hb, -⟩
  · exact ⟨_, execBitLow_ended hpo hidx, fun _ => ⟨rfl, rfl, Memory.get_set_same _ _ _⟩, fun h => absurd h hd,
      fun h => absurd h hd, fun _ => Memory.get_set_other _ _, rfl, rfl, rfl, rfl, rfl, rfl, rfl, rfl, rfl, rfl, rfl⟩
  · exact ⟨_, execBitLow_ended hpo hidx, fun h => absurd (hd.symm.trans h) (by decide),
      fun _ _ => ⟨rfl, rfl, Memory.get_set_same _ _ _⟩, fun _ h => absurd h hb.not_gt,
      fun _ => Memory.get_set_other _ _, rfl, rfl, rfl, rfl, rfl, rfl, rfl, rfl, rfl, rfl, rfl⟩
  · exact ⟨_, execBitLow_continues hd hb, fun h => absurd (hd.symm.trans h) (by decide), fun _ h => absurd hb h.not_gt,
      fun _ _ => ⟨rfl, rfl, rfl⟩, fun _ _ => rfl, rfl, rfl, rfl, rfl, rfl, rfl, rfl, rfl, rfl, rfl, rfl⟩

/-- `t` is what BIT_HIGH makes of the result `v` of its measurement, with its frame (43_bit_pair.md R164). -/
structure BitHighRecords (s : State) (v : Nat) (t : State) : Prop where
  raw : t.raw = s.raw.set (2 * s.idx.toNat + 1) v
  pcnt : t.pcnt = 0
  last : s.idx.toNat = 39 → t.idx = 0 ∧ t.st = St.DECODE
  more : s.idx.toNat < 39 → t.idx.toNat = s.idx.toNat + 1 ∧ t.st = St.BIT_LOW
  frame : t.done = false ∧ t.wcnt = s.wcnt ∧ t.buf = s.buf ∧ t.valid = s.valid ∧ t.status = s.status ∧
    SameSurroundings s t

theorem execBitHigh_records {s : State} {v : Nat} (h : poll HIGH s = .ended v) (hidx : s.idx.toNat ≤ 39) :
    ∃ t, execBitHigh s = .next t ∧ BitHighRecords s v t := by
  by_cases hi : s.idx.toNat < 39
  · exact ⟨_, execBitHigh_more h hi, rfl, rfl, fun he => absurd he hi.ne, fun _ => ⟨idx_succ_of_lt hi, rfl⟩,
      rfl, rfl, rfl, rfl, rfl, rfl, rfl, rfl, rfl, rfl⟩
  · exact ⟨_, execBitHigh_last h (idx_eq_39 hi hidx), rfl, rfl, fun _ => ⟨rfl, rfl⟩, fun hlt => absurd hlt hi,
      rfl, rfl, rfl, rfl, rfl, rfl, rfl, rfl, rfl, rfl⟩

/-- Settles O19: the poll reads LOW, or HIGH with the budget spent, or HIGH below the budget. -/
theorem bitHighOperation : Obligations.BitHighOperation := by
  unfold Obligations.BitHighOperation
  intro s b hidx
  refine ⟨decodeSel_selectorOf false b St.BIT_HIGH, ?_⟩
  rcases poll_cases HIGH s with ⟨hd, hpo⟩ | ⟨hd, hb, hpo⟩ | ⟨hd, hb, -⟩
  · obtain ⟨t, ht, hrec⟩ := execBitHigh_records hpo hidx
    exact ⟨t, ht, fun _ => hrec.raw ▸ Memory.get_set_same _ _ _, fun h => absurd h hd,
      fun _ => ⟨hrec.pcnt, hrec.last, hrec.more⟩, fun h => absurd h hd,
      fun _ hk => hrec.raw ▸ Memory.get_set_other _ _ hk, hrec.frame⟩
  · obtain ⟨t, ht, hrec⟩ := execBitHigh_records hpo hidx
    exact ⟨t, ht, fun h => absurd (hd.symm.trans h) (by decide), fun _ _ => hrec.raw ▸ Memory.get_set_same _ _ _,
      fun _ => ⟨hrec.pcnt, hrec.last, hrec.more⟩, fun _ h => absurd h hb.not_gt,
      fun _ hk => hrec.raw ▸ Memory.get_set_other _ _ hk, hrec.frame⟩
  · have hgoesOn : ¬ (s.inp.dqI = LOW ∨ s.cfg.budget ≤ s.pcnt) :=
      not_or.2 ⟨fun h => absurd (hd.symm.trans h) (by decide), hb.not_ge⟩
    exact ⟨_, execBitHigh_continues hd hb, fun h => absurd (.inl h) hgoesOn, fun _ h => absurd (.inr h) hgoesOn,
      fun h => absurd h hgoesOn, fun _ _ => ⟨rfl, rfl, rfl, rfl⟩, fun _ _ => rfl, rfl, rfl, rfl, rfl, rfl, rfl, rfl,
      rfl, rfl, rfl⟩

/-! ### The operation DECODE -/

/-- `t` is what DECODE makes of a pair without TIMEOUT that decodes to `bit`, with its frame (43_bit_pair.md R170,
R171). -/
structure ShiftsIn (s : State) (hidx : s.idx.toNat ≤ 39) (bit : Bool) (t : State) : Prop where
  buf : t.buf = bufAfter s.buf s.idx hidx bit
  last : s.idx.toNat = 39 → t.idx = s.idx ∧ t.st = St.VALIDATE
  more : s.idx.toNat < 39 → t.idx.toNat = s.idx.toNat + 1 ∧ t.st = s.st
  flags : t.valid = s.valid ∧ t.status = s.status ∧ t.done = false
  frame : t.wcnt = s.wcnt ∧ t.pcnt = s.pcnt ∧ t.raw = s.raw ∧ SameSurroundings s t

theorem execDecode_shiftsIn {s : State} {lo hi : Nat} (hidx : s.idx.toNat ≤ 39)
    (hlo : s.raw.get (2 * s.idx.toNat) = some lo) (hhi : s.raw.get (2 * s.idx.toNat + 1) = some hi)
    (ht : ¬ (lo = s.cfg.timeout ∨ hi = s.cfg.timeout)) :
    ∃ t, execDecode s = .next t ∧ ShiftsIn s hidx (decide (lo < hi)) t := by
  by_cases h39 : s.idx.toNat < 39
  · exact ⟨_, execDecode_more h39 hlo hhi ht, rfl, fun he => absurd he h39.ne, fun _ => ⟨idx_succ_of_lt h39, rfl⟩,
      ⟨rfl, rfl, rfl⟩, rfl, rfl, rfl, rfl, rfl, rfl, rfl, rfl⟩
  · exact ⟨_, execDecode_last hidx (idx_eq_39 h39 hidx) hlo hhi ht, rfl, fun _ => ⟨rfl, rfl⟩,
      fun hlt => absurd hlt h39, ⟨rfl, rfl, rfl⟩, rfl, rfl, rfl, rfl, rfl, rfl, rfl, rfl⟩

/-- Settles O20: a pair with TIMEOUT fails the attempt, any other shifts its bit in. -/
theorem decodeOperation : Obligations.DecodeOperation := by
  unfold Obligations.DecodeOperation
  intro s b lo hi hidx hlo hhi
  refine ⟨decodeSel_selectorOf false b St.DECODE, ?_⟩
  by_cases ht : lo = s.cfg.timeout ∨ hi = s.cfg.timeout
  · exact ⟨_, execDecode_timeout hidx hlo hhi ht, fun _ => ⟨rfl, rfl, rfl, rfl, rfl, rfl⟩,
      fun hl hh => absurd ht (not_or.2 ⟨hl, hh⟩), rfl, rfl, rfl, rfl, rfl, rfl, rfl, rfl⟩
  · obtain ⟨t, hdec, hshift⟩ := execDecode_shiftsIn hidx hlo hhi ht
    refine ⟨t, hdec, fun h => absurd h ht, fun _ _ => ⟨fun k hk e => ?_, fun k hk e => ?_, hshift.last, hshift.more,
      hshift.flags⟩, hshift.frame⟩
    · simp only [hshift.buf, bufAfter_same hidx _ hk e, Bool.toNat, Bool.cond_decide]
    · simp only [hshift.buf, bufAfter_other hidx _ hk e]

/-- Scaling both counts by a positive factor or adding the same to both keeps their order (43_bit_pair.md R173). -/
theorem lt_iff_of_scaled_or_shifted {lo hi lo' hi' c d : Nat} (hc : 0 < c)
    (h : (lo' = c * lo ∧ hi' = c * hi) ∨ (lo' = lo + d ∧ hi' = hi + d)) : lo' < hi' ↔ lo < hi := by
  rcases h with ⟨rfl, rfl⟩ | ⟨rfl, rfl⟩
  · exact Nat.mul_lt_mul_left hc
  · exact Nat.add_lt_add_iff_right

/-- What DECODE makes of a pair that has just been written. -/
theorem execDecode_written_pair (s : State) {lo hi : Nat} (hidx : s.idx.toNat ≤ 39) (hlo : lo ≠ s.cfg.timeout)
    (hhi : hi ≠ s.cfg.timeout) (b : Bool) :
    let u := { s with raw := (s.raw.set (2 * s.idx.toNat) lo).set (2 * s.idx.toNat + 1) hi }
    ∃ t, exec (.decode b) u = .next t ∧ ShiftsIn u hidx (decide (lo < hi)) t := by
  intro u
  have hget : u.raw.get (2 * s.idx.toNat) = some lo := by
    rw [Memory.get_set_other _ _ (by omega), Memory.get_set_same]
  exact execDecode_shiftsIn (s := u) hidx hget (Memory.get_set_same _ _ _) (not_or.2 ⟨hlo, hhi⟩)

/-- Settles O34: both pairs decode to the same bit, and nothing else of the counts reaches buffer, index and state. -/
theorem bitDependsOnTheRatioOnly : Obligations.BitDependsOnTheRatioOnly := by
  unfold Obligations.BitDependsOnTheRatioOnly
  intro s b lo hi lo' hi' c d hidx hc h hlo hhi hlo' hhi'
  obtain ⟨t, ht, hs⟩ := execDecode_written_pair s hidx hlo hhi b
  obtain ⟨t', ht', hs'⟩ := execDecode_written_pair s hidx hlo' hhi' b
  have hbuf : t'.buf = t.buf := by rw [hs'.buf, hs.buf, decide_eq_decide.2 (lt_iff_of_scaled_or_shifted hc h)]
  refine ⟨t, t', ht, ht', hbuf, ?_⟩
  rcases Nat.lt_or_eq_of_le hidx with hlt | heq
  · obtain ⟨hidx₁, hst₁⟩ := hs.more hlt
    obtain ⟨hidx₂, hst₂⟩ := hs'.more hlt
    exact ⟨BitVec.eq_of_toNat_eq (hidx₂.trans hidx₁.symm), hst₂.trans hst₁.symm⟩
  · obtain ⟨hidx₁, hst₁⟩ := hs.last heq
    obtain ⟨hidx₂, hst₂⟩ := hs'.last heq
    exact ⟨hidx₂.trans hidx₁.symm, hst₂.trans hst₁.symm⟩

end Sys2Proof.Machine

/-! The checksum validator (44_checksum.md): the operation VALIDATE, and which changes of the payload it detects. -/

namespace Sys2Proof.Machine

/-! ### The operation VALIDATE -/

/-- Settles O21: the checksum matches, or it does not. -/
theorem validateOperation : Obligations.ValidateOperation := by
  unfold Obligations.ValidateOperation
  intro s b
  refine ⟨decodeSel_selectorOf false b St.VALIDATE, ?_⟩
  by_cases hsum : s.buf[4].toNat = (s.buf[0].toNat + s.buf[1].toNat + s.buf[2].toNat + s.buf[3].toNat) % 256
  · exact ⟨_, execValidate_ok hsum, fun _ => ⟨rfl, rfl⟩, fun h => absurd hsum h,
      rfl, rfl, rfl, rfl, rfl, rfl, rfl, rfl, rfl, rfl, rfl, rfl⟩
  · exact ⟨_, execValidate_bad hsum, fun h => absurd h hsum, fun _ => ⟨rfl, rfl⟩,
      rfl, rfl, rfl, rfl, rfl, rfl, rfl, rfl, rfl, rfl, rfl, rfl⟩

/-! ### Changes of a data byte -/

/-- Putting `x` in data byte `k` moves the exact sum by the difference of the two bytes (44_checksum.md R192). -/
theorem dataSum_set (buf : Vector Byte 5) (x : Byte) {k : Nat} (hk : k < 4) :
    dataSum (buf.set k x) + buf[k].toNat = dataSum buf + x.toNat := by
  interval_cases k <;> simp [dataSum] <;> omega

/-- The checksum of a payload that has it holds no more once one data byte is another (44_checksum.md R193). -/
theorem checksum_fails_of_byte_changed {buf : Vector Byte 5} {x : Byte} {k : Nat} (hk : k < 4)
    (hsum : buf[4].toNat = dataSum buf % 256) (hx : x ≠ buf[k]) :
    (buf.set k x)[4].toNat ≠ dataSum (buf.set k x) % 256 := by
  have hmove := dataSum_set buf x hk
  have hne : x.toNat ≠ buf[k].toNat := mt BitVec.eq_of_toNat_eq hx
  rw [Vector.getElem_set_ne _ _ (by omega), hsum]
  omega

/-- +1 in byte 0 and -1 in byte 1, neither of which wraps, keep the exact sum and so the checksum (44_checksum.md R193). -/
theorem checksum_holds_of_cancelling_pair {buf : Vector Byte 5} (hsum : buf[4].toNat = dataSum buf % 256)
    (h0 : buf[0].toNat < 255) (h1 : 0 < buf[1].toNat) :
    ((buf.set 0 (buf[0] + 1)).set 1 (buf[1] - 1))[4].toNat =
      dataSum ((buf.set 0 (buf[0] + 1)).set 1 (buf[1] - 1)) % 256 := by
  have hfst := dataSum_set buf (buf[0] + 1) (k := 0) (by decide)
  have hsnd := dataSum_set (buf.set 0 (buf[0] + 1)) (buf[1] - 1) (k := 1) (by decide)
  rw [Vector.getElem_set_ne _ _ (by decide)] at hsnd
  have hinc : (buf[0] + 1).toNat = buf[0].toNat + 1 := by bv_omega
  have hdec : (buf[1] - 1).toNat + 1 = buf[1].toNat := by bv_omega
  rw [Vector.getElem_set_ne _ _ (by decide), Vector.getElem_set_ne _ _ (by decide), hsum]
  omega

/-- A byte with one bit flipped is another byte. -/
theorem xor_bit_ne_self (x : Byte) {j : Nat} (hj : j < 8) : x ^^^ (1#8 <<< j) ≠ x := by
  have hmask : ∀ i < 8, 1#8 <<< i ≠ 0#8 := by decide
  exact fun h => hmask j hj ((BitVec.xor_right_inj x).1 (h.trans BitVec.xor_zero.symm))

/-- Settles O35: a flipped bit changes one data byte, the cancelling pair keeps the sum, and 0 is the sum of zeros. -/
theorem checksumDetectsWhatItCan : Obligations.ChecksumDetectsWhatItCan := by
  unfold Obligations.ChecksumDetectsWhatItCan
  intro s b hsum
  refine ⟨fun k j hk hj => ?_, fun h0 h1 => ?_, ?_⟩
  · exact ⟨_, execValidate_bad (checksum_fails_of_byte_changed hk hsum (xor_bit_ne_self _ hj)), rfl, rfl⟩
  · exact ⟨_, execValidate_ok (checksum_holds_of_cancelling_pair hsum h0 h1), rfl, rfl⟩
  · exact ⟨_, execValidate_ok rfl, rfl, rfl⟩

end Sys2Proof.Machine

/-! The host's side (45_host.md): its move in each of its phases, the elapsed time of its timebase, and what its calls do
and return. -/

namespace Sys2Proof.Machine

/-! ### The host's move, phase by phase -/

@[simp] theorem hostClock_lastTime (s : State) : (hostClock s).lastTime = s.host.lastTime := rfl
@[simp] theorem hostClock_phase (s : State) : (hostClock s).phase = s.host.phase := rfl
@[simp] theorem hostClock_result (s : State) : (hostClock s).result = s.host.result := rfl

theorem busyO_eq_true {s : State} (h : s.st ≠ St.IDLE) : busyO s = true := decide_eq_true h

theorem busyO_eq_false {s : State} (h : s.st = St.IDLE) : busyO s = false := decide_eq_false (not_not_intro h)

/-- A call is rate limited exactly if it is without force and comes too early (45_host.md R202, R208). -/
theorem rateLimited_iff {s : State} {c : HostCall} : rateLimited s c = true ↔
    c ≠ .read true ∧ elapsed s.cfg s.host.now s.host.lastTime < s.cfg.minInterval := by
  have hforce : isForced c = false ↔ c ≠ .read true := by
    cases c with
    | read force => cases force <;> simp [isForced]
    | value => simp [isForced]
  simp only [rateLimited, Bool.and_eq_true, Bool.not_eq_true', decide_eq_true_eq, hforce]

theorem hostMove_of_rateLimited {s : State} {c : HostCall} (hp : s.host.phase = .ready) (hc : s.inp.call = some c)
    (h : rateLimited s c = true) : hostMove s = { hostClock s with result := some (hostReturn s c) } := by
  simp [hostMove, hp, hc, h]

theorem hostMove_of_acquiring {s : State} {c : HostCall} (hp : s.host.phase = .ready) (hc : s.inp.call = some c)
    (h : rateLimited s c = false) : hostMove s = { hostClock s with lastTime := s.host.now, phase := .waitIdle c } := by
  simp [hostMove, hp, hc, h]

theorem hostMove_waitIdle_busy {s : State} {c : HostCall} (hp : s.host.phase = .waitIdle c) (h : s.st ≠ St.IDLE) :
    hostMove s = hostClock s := by
  simp [hostMove, hp, busyO_eq_true h]

theorem hostMove_waitIdle_idle {s : State} {c : HostCall} (hp : s.host.phase = .waitIdle c) (h : s.st = St.IDLE) :
    hostMove s = { hostClock s with phase := .drive c } := by
  simp [hostMove, hp, busyO_eq_false h]

theorem hostMove_drive {s : State} {c : HostCall} (hp : s.host.phase = .drive c) :
    hostMove s = { hostClock s with phase := .waitDone c false } := by
  simp [hostMove, hp]

/-- The host returns where it sees `done_o = 1`, or `busy_o = 0` after having seen `busy_o = 1` (45_host.md R202). -/
theorem hostMove_waitDone_ended {s : State} {c : HostCall} {seen : Bool} (hp : s.host.phase = .waitDone c seen)
    (h : s.done = true ∨ (seen = true ∧ s.st = St.IDLE)) :
    hostMove s = { hostClock s with phase := .ready, result := some (hostReturn s c) } := by
  have hend : (doneO s || (seen && !busyO s)) = true := by simpa [doneO, busyO] using h
  simp [hostMove, hp, hend]

/-- Beside a block in an attempt without an outcome the host waits on, and remembers that it has seen `busy_o = 1`. -/
theorem hostMove_waitDone_busy {s : State} {c : HostCall} {seen : Bool} (hp : s.host.phase = .waitDone c seen)
    (hd : s.done = false) (h : s.st ≠ St.IDLE) : hostMove s = { hostClock s with phase := .waitDone c true } := by
  simp [hostMove, hp, doneO, hd, busyO_eq_true h]

/-- A host whose START was lost waits on beside the block in IDLE (assumption log 14). -/
theorem hostMove_waitDone_lost {s : State} {c : HostCall} (hp : s.host.phase = .waitDone c false)
    (hd : s.done = false) (h : s.st = St.IDLE) : hostMove s = { hostClock s with phase := .waitDone c false } := by
  simp [hostMove, hp, doneO, hd, busyO_eq_false h]

/-! ### The host's side of a step -/

theorem step_host {s t : State} (h : step s = .next t) : t.host = hostMove s := by
  obtain ⟨-, u, -, rfl⟩ := step_eq_next.1 h
  rfl

/-- START stands on the pin where the outside world gives it or the host drives it (45_host.md R202). -/
theorem step_startI {s t : State} (h : step s = .next t) :
    t.inp.startI = ((inputAt s 1).startI || hostDrives t.host) := by
  obtain ⟨-, u, -, rfl⟩ := step_eq_next.1 h
  rw [inputAt_one]
  rfl

/-- A host that is not in its drive phase leaves the pin to the outside world. -/
theorem step_startI_of_not_drives {s t : State} (h : step s = .next t) (hdrive : hostDrives t.host = false) :
    t.inp.startI = (inputAt s 1).startI := by
  rw [step_startI h, hdrive, Bool.or_false]

/-! ### The wait for the end of the attempt -/

/-- A host that waits on an attempt in progress still waits, and has seen `busy_o = 1`, when the block is in IDLE. -/
theorem run_waitDone_reaches_idle {c : HostCall} (n : Nat) : ∀ (s : State) (seen : Bool), RegInv s → s.st ≠ St.IDLE →
    s.host.phase = .waitDone c seen → cyclesLeft s ≤ n →
    ∃ k u, k ≤ n ∧ Sys2Proof.core.run k s = .next u ∧ RegInv u ∧ u.st = St.IDLE ∧
      u.host.phase = .waitDone c true ∧ u.host.lastTime = s.host.lastTime := by
  induction n with
  | zero =>
    intro s seen hI hbusy hp hn
    exact absurd (cyclesLeft_pos hI.bitIndex hbusy) (by omega)
  | succ n ih =>
    intro s seen hI hbusy hp hn
    obtain ⟨t, ht⟩ := exists_step_of_regInv hI
    have hIt := step_regInv hI ht
    have hhost := (step_host ht).trans (hostMove_waitDone_busy hp (hI.inAttempt hbusy).2 hbusy)
    have hpt : t.host.phase = .waitDone c true := by rw [hhost]
    have hlast : t.host.lastTime = s.host.lastTime := by rw [hhost, hostClock_lastTime]
    by_cases hidle : t.st = St.IDLE
    · exact ⟨1, t, by omega, run_one ht, hIt, hidle, hpt, hlast⟩
    · have hlt := step_cyclesLeft_lt hI hbusy ht
      obtain ⟨k, u, hk, hrun, hIu, hu, hpu, hlastu⟩ := ih t true hIt hidle hpt (by omega)
      exact ⟨k + 1, u, by omega, (run_succ k ht).trans hrun, hIu, hu, hpu, hlastu.trans hlast⟩

/-- The step in which a waiting host sees the end of the attempt returns its call (45_host.md R202, R206). -/
theorem step_waitDone_ended {s t : State} {c : HostCall} {seen : Bool} (h : step s = .next t)
    (hp : s.host.phase = .waitDone c seen) (hend : s.done = true ∨ (seen = true ∧ s.st = St.IDLE)) :
    t.host.phase = .ready ∧ t.host.result = some (hostReturn s c) ∧ t.host.lastTime = s.host.lastTime := by
  rw [step_host h, hostMove_waitDone_ended hp hend]
  exact ⟨rfl, rfl, rfl⟩

/-- Settles O55: the host waits through the attempt, which R35 bounds, and returns in the step from the IDLE cycle. -/
theorem hostWaitEndsWithTheAttempt : Obligations.HostWaitEndsWithTheAttempt := by
  unfold Obligations.HostWaitEndsWithTheAttempt
  refine ⟨fun s c seen hI hbusy hp => ?_, fun s t c seen h hidle hp => ⟨fun hend => ?_, fun hd hseen => ?_⟩⟩
  · obtain ⟨k, u, hk, hrun, hIu, hu, hpu, hlast⟩ := run_waitDone_reaches_idle _ s seen hI hbusy hp (cyclesLeft_le s)
    obtain ⟨t, ht⟩ := exists_step_of_regInv hIu
    obtain ⟨hready, hresult, hkept⟩ := step_waitDone_ended ht hpu (.inr ⟨rfl, hu⟩)
    exact ⟨k, u, t, hk, hrun, ht, hu, hready, hresult, hkept.trans hlast⟩
  · exact step_waitDone_ended h hp (hend.imp_right fun hseen => ⟨hseen, hidle⟩)
  · subst hseen
    rw [step_host h, hostMove_waitDone_lost hp hd hidle]
    exact ⟨rfl, rfl, rfl⟩

/-! ### The elapsed time -/

/-- Settles O51: `last + d` wraps at most once, and the subtraction wraps back exactly then. -/
theorem elapsedSurvivesTheWrap : Obligations.ElapsedSurvivesTheWrap := by
  unfold Obligations.ElapsedSurvivesTheWrap
  intro b last d hlast hd
  rw [elapsed, subMod_eq _ _ _ (Nat.mod_lt _ (Nat.two_pow_pos _)) hlast]
  by_cases hwrap : last + d < 2 ^ b.wTime
  · rw [Nat.mod_eq_of_lt hwrap, if_pos (Nat.le_add_right _ _), Nat.add_sub_cancel_left]
  · rw [Nat.mod_eq_sub_mod (by omega), Nat.mod_eq_of_lt (by omega), if_neg (by omega)]
    omega

/-- What is subtracted at `w` bits comes back by adding it at `w` bits. -/
theorem subMod_add_mod {w a b : Nat} (ha : a < 2 ^ w) (hb : b < 2 ^ w) : (subMod w a b + b) % 2 ^ w = a := by
  rw [subMod_eq w a b ha hb]
  split
  · next h => rw [Nat.sub_add_cancel h, Nat.mod_eq_of_lt ha]
  · rw [Nat.sub_add_cancel (by omega), Nat.add_mod_right, Nat.mod_eq_of_lt ha]

/-- At initialisation MIN_INTERVAL counts as already elapsed (45_host.md R201). -/
theorem elapsed_since_init {b : Build} {t0 : Nat} (d : Nat) (ht : t0 < 2 ^ b.wTime)
    (hm : b.minInterval < 2 ^ b.wTime) :
    elapsed b ((t0 + d) % 2 ^ b.wTime) (initialLastTime b t0) = (d + b.minInterval) % 2 ^ b.wTime := by
  have hnow : (t0 + d) % 2 ^ b.wTime =
      (initialLastTime b t0 + (d + b.minInterval) % 2 ^ b.wTime) % 2 ^ b.wTime := by
    conv_lhs => rw [← subMod_add_mod ht hm, Nat.mod_add_mod, Nat.add_assoc, Nat.add_comm b.minInterval]
    rw [Nat.add_mod_mod, initialLastTime]
  rw [hnow]
  exact elapsedSurvivesTheWrap b _ _ (subMod_lt _ _ _) (Nat.mod_lt _ (Nat.two_pow_pos _))

/-- Settles O52: the elapsed time is `d + MIN_INTERVAL` until that wraps, and from there on it is below MIN_INTERVAL. -/
theorem firstReadAcquires : Obligations.FirstReadAcquires := by
  unfold Obligations.FirstReadAcquires
  intro s c t0 d ht hd hm hlast hnow
  have helapsed : elapsed s.cfg s.host.now s.host.lastTime = (d + s.cfg.minInterval) % 2 ^ s.cfg.wTime := by
    rw [hlast, hnow]
    exact elapsed_since_init d ht hm
  refine ⟨fun hearly => ?_, fun hwrap hc => rateLimited_iff.2 ⟨hc, ?_⟩⟩
  · rw [Nat.mod_eq_of_lt hearly] at helapsed
    exact Bool.eq_false_iff.2 fun h => absurd (rateLimited_iff.1 h).2 (by omega)
  · rw [helapsed, Nat.mod_eq_sub_mod hwrap, Nat.mod_eq_of_lt (by omega)]
    omega

/-! ### Calls -/

/-- A rate-limited call returns at once and leaves the rest of the host's side alone (45_host.md R202, R204). -/
theorem step_rateLimited {s t : State} {c : HostCall} (h : step s = .next t) (hp : s.host.phase = .ready)
    (hc : s.inp.call = some c) (hforce : c ≠ .read true)
    (he : elapsed s.cfg s.host.now s.host.lastTime < s.cfg.minInterval) :
    t.host.phase = .ready ∧ t.host.result = some (hostReturn s c) ∧ t.host.lastTime = s.host.lastTime := by
  rw [step_host h, hostMove_of_rateLimited hp hc (rateLimited_iff.2 ⟨hforce, he⟩)]
  exact ⟨hp, rfl, rfl⟩

/-- Settles O53: the host stays ready, so it drives nothing, and a block in IDLE without START holds its results. -/
theorem rateLimitedReadDoesNothing : Obligations.RateLimitedReadDoesNothing := by
  unfold Obligations.RateLimitedReadDoesNothing
  intro s t c h hp hc hcall he
  have hforce : c ≠ .read true := by rcases hcall with rfl | rfl <;> simp
  obtain ⟨hready, hresult, hlast⟩ := step_rateLimited h hp hc hforce he
  refine ⟨hready, hlast, fun hread => ?_, fun hvalue => ?_, ?_, fun hst hr hs => ?_⟩
  · rw [hresult, hread]
    rfl
  · exact ⟨observedRaw16 s, by rw [hresult, hvalue]; rfl⟩
  · exact step_startI_of_not_drives h (by simp only [hostDrives, hready])
  · obtain ⟨hidle, hvalid, hstatus, hbuf, -, -, -⟩ := resultsHoldWhileIdle s t hst hr hs h
    exact ⟨hidle, hvalid, hstatus, hbuf, by simp [dqDriveLowO, hidle]⟩

/-- An idle block accepts START (40_control.md R101). -/
theorem step_start_st {s t : State} (h : step s = .next t) (hst : s.st = St.IDLE) (hr : s.inp.rst = false)
    (hs : s.inp.startI = true) : t.st = St.RST_HIGH := by
  obtain ⟨-, u, hu, rfl⟩ := step_eq_next.1 h
  rw [exec_of_st hr hst, hs] at hu
  cases (execStart_eq s).symm.trans hu
  rfl

/-- Settles O54: the host's moves of an acquiring call, one by one, and the START that an idle block accepts. -/
theorem acquiringReadStartsAnAttempt : Obligations.AcquiringReadStartsAnAttempt := by
  unfold Obligations.AcquiringReadStartsAnAttempt
  refine ⟨fun s t c h hp hc hacq => ?_, fun s t c h hp => ⟨fun hbusy => ?_, fun hidle => ?_⟩, fun s t c h hp => ?_⟩
  · have hnot : rateLimited s c = false := Bool.eq_false_iff.2 fun hlim =>
      hacq.elim (rateLimited_iff.1 hlim).1 (rateLimited_iff.1 hlim).2.not_ge
    rw [step_host h, hostMove_of_acquiring hp hc hnot]
    exact ⟨rfl, rfl, rfl⟩
  · rw [step_host h, hostMove_waitIdle_busy hp hbusy]
    exact hp
  · have hdrive : t.host.phase = .drive c := by rw [step_host h, hostMove_waitIdle_idle hp hidle]
    exact ⟨hdrive, by rw [step_startI h]; simp only [hostDrives, hdrive, Bool.or_true]⟩
  · have hwait : t.host.phase = .waitDone c false := by rw [step_host h, hostMove_drive hp]
    exact ⟨hwait, step_startI_of_not_drives h (by simp only [hostDrives, hwait]), step_start_st h⟩

/-! ### The value -/

/-- Beside `valid_o = 1` the host reads bytes 0 and 1, big-endian (45_host.md R208). -/
theorem observedRaw16_toNat {s : State} (hv : s.valid = true) :
    (observedRaw16 s).toNat = 256 * s.buf[0].toNat + s.buf[1].toNat := by
  have hdata : observedData s = dataO s := if_pos hv
  rw [observedRaw16, hdata, BitVec.extractLsb'_toNat, dataO_toNat, Nat.shiftRight_eq_div_pow]
  omega

/-- Settles O56: each of the three returns is `hostReturn` of the cycle, which reads bytes 0 and 1 of a valid payload. -/
theorem hostValueIsTheScaledPayload : Obligations.HostValueIsTheScaledPayload := by
  unfold Obligations.HostValueIsTheScaledPayload
  intro s t h hcase
  obtain ⟨hready, hresult, -⟩ : t.host.phase = .ready ∧ t.host.result = some (hostReturn s .value) ∧
      t.host.lastTime = s.host.lastTime := by
    rcases hcase with ⟨hp, hc, he⟩ | ⟨seen, hp, hend⟩
    · exact step_rateLimited h hp hc (by simp) he
    · exact step_waitDone_ended h hp hend
  exact ⟨hready, observedRaw16 s, hresult, fun hv => by rw [extractedValue, observedRaw16_toNat hv]⟩

end Sys2Proof.Machine

/-! Failures and reset (60_exceptions.md): no input stops the block, reset wins over every operation, and what a failing
attempt records and leaves. -/

namespace Sys2Proof.Machine

/-! ### Progress and reset -/

/-- Settles O38: in a state that meets the invariant the cycle's operation, RESET or another, answers a next state. -/
theorem stepNeverStops : Obligations.StepNeverStops := by
  unfold Obligations.StepNeverStops
  exact fun s hI => exists_step_of_regInv hI

/-- Settles O8: with `rst = 1` the selector picks RESET, whatever the other registers hold. -/
theorem resetWinsFromEveryState : Obligations.ResetWinsFromEveryState := by
  unfold Obligations.ResetWinsFromEveryState
  intro s hok hr
  exact ⟨_, step_reset hok hr, ⟨rfl, rfl, rfl, rfl, rfl, rfl, rfl, rfl⟩, rfl, rfl⟩

/-! ### The failure of an attempt -/

/-- What state `s` must show for the attempt to fail with `code` (60_exceptions.md R231): a handshake level held for the
whole budget, or the sentinel in the pair that DECODE reads. -/
def FailureCause (s : State) (code : StatusCode) : Prop :=
  (code = Status.TIMEOUT_ACK ∧ (s.st = St.ACK_LOW ∨ s.st = St.ACK_HIGH) ∧ s.inp.dqI = expected s ∧
    s.pcnt = s.cfg.budget) ∨
  (code = Status.TIMEOUT_BIT ∧ s.st = St.DECODE ∧ PairTimedOut s s.idx.toNat)

/-- A move of an attempt that reports a timeout is AttemptFail with that code, on a cleared pulse counter, and has its
cause (60_exceptions.md R231, R233). -/
theorem moves_timeout {s u : State} (hI : RegInv s) (hbusy : s.st ≠ St.IDLE) (h : Moves s u)
    (hu : u.status = Status.TIMEOUT_ACK ∨ u.status = Status.TIMEOUT_BIT) :
    u = attemptFail u.status { s with pcnt := 0 } ∧ FailureCause s u.status := by
  obtain ⟨hnone, -⟩ := hI.inAttempt hbusy
  cases h with
  | ackTimeout hst hd hp => exact ⟨rfl, .inl ⟨rfl, hst, hd, hp⟩⟩
  | decodeTimeout hst ht =>
    have hp : s.pcnt = 0 := hI.pulseIdle (by simp [Measuring, hst])
    exact ⟨by rw [← hp]; rfl, .inr ⟨rfl, hst, ht⟩⟩
  | start | validateOk | validateBad => simp at hu
  | idleWait | waitEarly | rstHighLast | startLowLast | releaseLast | pollContinues | ackLowEnds | ackHighEnds
  | bitLowEnds | bitHighEnds | lastBitHighEnds | decodeBit | decodeLast => simp [hnone] at hu

/-- A step of an attempt that reports a timeout has no reset in its cycle and is AttemptFail, followed by the edge. -/
theorem step_timeout {s t : State} (hI : RegInv s) (hbusy : s.st ≠ St.IDLE) (h : step s = .next t)
    (ht : t.status = Status.TIMEOUT_ACK ∨ t.status = Status.TIMEOUT_BIT) :
    t = edge s (attemptFail t.status { s with pcnt := 0 }) ∧ FailureCause s t.status := by
  cases hr : s.inp.rst with
  | true =>
    rw [step_reset hI.build hr] at h
    cases h
    simp at ht
  | false =>
    obtain ⟨u, hu, rfl⟩ := step_moves hI hr h
    obtain ⟨hfail, hcause⟩ := moves_timeout hI hbusy hu ht
    exact ⟨congrArg (edge s) hfail, hcause⟩

/-- Settles O32: the step is AttemptFail on a cleared `pcnt`, and each of its codes has one cause. -/
theorem failureRecordsOnlyItsCode : Obligations.FailureRecordsOnlyItsCode := by
  unfold Obligations.FailureRecordsOnlyItsCode
  intro s t hI hbusy h ht
  obtain ⟨hfail, hcause⟩ := step_timeout hI hbusy h ht
  generalize t.status = code at hfail hcause ⊢
  subst hfail
  refine ⟨rfl, rfl, rfl, rfl, rfl, rfl, rfl, rfl, ?_⟩
  rcases hcause with ⟨rfl, hack⟩ | ⟨rfl, hbit⟩
  · exact ⟨fun _ => hack, nofun⟩
  · exact ⟨nofun, fun _ => hbit⟩

end Sys2Proof.Machine

/-! A whole attempt (70_reset_and_hazards.md R260, R273): RESET as a single operation, and from an accepted START through
the 82 measurements of a line and the DECODE phase to the verdict. -/

namespace Sys2Proof.Machine

/-! ### The operation RESET -/

/-- Settles O7: the next state of RESET, field by field. -/
theorem resetOperation : Obligations.ResetOperation := by
  unfold Obligations.ResetOperation
  intro s b c
  exact ⟨decodeSel_selectorOf true b c, _, execReset_eq s, ⟨rfl, rfl, rfl, rfl, rfl, rfl, rfl, rfl⟩, rfl,
    ⟨rfl, rfl, rfl, rfl, rfl⟩⟩

/-! ### What every run keeps -/

/-- What every step keeps, every run keeps. -/
theorem run_keeps {P : State → Prop} (hP : ∀ s t, step s = .next t → P s → P t) {n : Nat} :
    ∀ {s t : State}, Sys2Proof.core.run n s = .next t → P s → P t := by
  induction n with
  | zero =>
    intro s t h hs
    cases h
    exact hs
  | succ n ih =>
    intro s t h hs
    obtain ⟨u, hu, hr⟩ := run_first_step (M := Sys2Proof.core) h
    exact ih hr (hP s u hu hs)

theorem run_cfg {s t : State} {n : Nat} (h : Sys2Proof.core.run n s = .next t) : t.cfg = s.cfg :=
  run_keeps (P := fun u => u.cfg = s.cfg) (fun u v hv hu => (memoriesHaveTheirWriters u v hv).2.2.trans hu) h rfl

theorem run_regInv {s t : State} {n : Nat} (hI : RegInv s) (h : Sys2Proof.core.run n s = .next t) : RegInv t :=
  run_keeps (fun _ _ hv hI => step_regInv hI hv) h hI

theorem run_payloadInv {s t : State} {n : Nat} (hI : RegInv s) (hP : PayloadInv s)
    (h : Sys2Proof.core.run n s = .next t) : PayloadInv t :=
  (run_keeps (P := fun u => RegInv u ∧ PayloadInv u)
    (fun _ _ hv ⟨hI, hP⟩ => ⟨step_regInv hI hv, step_payloadInv hI hP hv⟩) h ⟨hI, hP⟩).2

/-! ### The line of an attempt -/

theorem pulsesBefore_succ (k : Nat → Nat) (m : Nat) : pulsesBefore k (m + 1) = pulsesBefore k m + (k m + 1) :=
  Finset.sum_range_succ _ m

/-- The measurements before another one are over by then. -/
theorem pulsesBefore_mono (k : Nat → Nat) {m n : Nat} (h : m ≤ n) : pulsesBefore k m ≤ pulsesBefore k n :=
  Finset.sum_le_sum_of_subset (Finset.range_mono h)

theorem LineFollows.run {s t : State} {p : Nat} {k : Nat → Nat} (hl : LineFollows s p k)
    (h : Sys2Proof.core.run p s = .next t) : LineFollows t 0 k := fun m hm j hj => by
  rw [(run_inputs h _).2, Nat.zero_add, ← Nat.add_assoc]
  exact hl m hm j hj

/-- The `m`-th measurement of a line that gives it the count `k m`, seen from its first cycle. -/
theorem LineFollows.measurement {t u : State} {k : Nat → Nat} {m : Nat} (hl : LineFollows t 0 k) (hm : m < 82)
    (h : Sys2Proof.core.run (pulsesBefore k m) t = .next u) :
    LineHolds u (levelOf m) (k m) ∧ (inputAt u (k m)).dqI ≠ levelOf m := by
  have hline : ∀ j ≤ k m, (inputAt u j).dqI = if j < k m then levelOf m else !levelOf m := fun j hj => by
    rw [(run_inputs h j).2, ← Nat.zero_add (pulsesBefore k m)]
    exact hl m hm j hj
  refine ⟨fun j hj => (hline j hj.le).trans (if_pos hj), ?_⟩
  rw [hline _ le_rfl, if_neg (lt_irrefl _)]
  exact Bool.not_ne_self _

/-! ### The measurements of an attempt, one after the other -/

/-- The sequencer state of measurement `m` of an attempt; after the last of the 82 it is DECODE (42_frame_sync.md R140,
43_bit_pair.md R160). -/
def measurementState (m : Nat) : StCode :=
  if m = 0 then St.ACK_LOW
  else if m = 1 then St.ACK_HIGH
  else if m = 82 then St.DECODE
  else if m % 2 = 0 then St.BIT_LOW
  else St.BIT_HIGH

theorem measurementState_bitLow {i : Nat} (h : i < 40) : measurementState (2 * i + 2) = St.BIT_LOW := by
  rw [measurementState, if_neg (by omega), if_neg (by omega), if_neg (by omega), if_pos (by omega)]

theorem measurementState_bitHigh {i : Nat} (h : i < 40) : measurementState (2 * i + 3) = St.BIT_HIGH := by
  rw [measurementState, if_neg (by omega), if_neg (by omega), if_neg (by omega), if_neg (by omega)]

/-- The 82 measurements: the two of the handshake, and the low and the high phase of each of the 40 bits. -/
theorem measurement_cases {m : Nat} (h : m < 82) :
    m = 0 ∨ m = 1 ∨ ∃ i < 40, m = 2 * i + 2 ∨ m = 2 * i + 3 := by
  by_cases h2 : m < 2
  · omega
  · exact .inr (.inr ⟨(m - 2) / 2, by omega, by omega⟩)

/-- `t` is the first cycle of measurement `m`, or of DECODE for `m = 82`, in an attempt whose measurements so far have
given the counts `k`. -/
structure AtMeasurement (k : Nat → Nat) (m : Nat) (t : State) : Prop where
  st : t.st = measurementState m
  pcnt : t.pcnt = 0
  idx : 2 ≤ m → t.idx.toNat = (m - 2) / 2 % 40
  table : ∀ j, j + 2 < m → t.raw.get j = some (k (j + 2))

section
variable {k : Nat → Nat} {m : Nat} {t u : State}

/-- Each measurement state expects the level of its measurement. -/
theorem AtMeasurement.measures (h : AtMeasurement k m t) (hm : m < 82) : Measuring t ∧ expected t = levelOf m := by
  have hst := h.st
  rcases measurement_cases hm with rfl | rfl | ⟨i, hi, rfl | rfl⟩
  · exact ⟨.inl hst, if_pos (.inl hst)⟩
  · have hst : t.st = St.ACK_HIGH := hst
    exact ⟨.inr (.inl hst), by simp [expected, levelOf, hst]⟩
  · rw [measurementState_bitLow hi] at hst
    exact ⟨.inr (.inr (.inl hst)), by simp [expected, levelOf, hst]⟩
  · rw [measurementState_bitHigh hi] at hst
    exact ⟨.inr (.inr (.inr hst)), by simp [expected, levelOf, hst]⟩

/-- A recorded count is the next entry of the table (43_bit_pair.md R161). -/
theorem AtMeasurement.table_set {j : Nat} (h : AtMeasurement k (j + 2) t) (hraw : u.raw = t.raw.set j (k (j + 2))) :
    ∀ i, i + 2 < j + 2 + 1 → u.raw.get i = some (k (i + 2)) := by
  intro i hi
  rw [hraw, Memory.get_set]
  by_cases e : i = j
  · rw [if_pos e, e]
  · rw [if_neg e]
    exact h.table i (by omega)

/-- The count of a measurement leads to the first cycle of the next one (42_frame_sync.md R144, R145, 43_bit_pair.md R163,
R164). -/
theorem AtMeasurement.next (h : AtMeasurement k m t) (hm : m < 82) (hp : u.pcnt = 0) (hc : Counts t (k m) u) :
    AtMeasurement k (m + 1) u := by
  obtain ⟨hAckLow, hAckHigh, hBitLow, hBitHigh⟩ := hc
  have hst := h.st
  have hidx := h.idx
  rcases measurement_cases hm with rfl | rfl | ⟨i, hi, rfl | rfl⟩
  · obtain ⟨hstu, -⟩ := hAckLow hst
    exact ⟨hstu, hp, by omega, by omega⟩
  · obtain ⟨hstu, hidxu, -⟩ := hAckHigh hst
    exact ⟨hstu, hp, fun _ => by rw [hidxu]; rfl, by omega⟩
  · have hidx : t.idx.toNat = i := by have := hidx (by omega); omega
    rw [hidx] at hBitLow
    obtain ⟨hstu, hidxu, hraw⟩ := hBitLow (hst.trans (measurementState_bitLow hi))
    exact ⟨hstu.trans (measurementState_bitHigh hi).symm, hp, fun _ => by rw [hidxu, hidx]; omega, h.table_set hraw⟩
  · have hidx : t.idx.toNat = i := by have := hidx (by omega); omega
    rw [hidx] at hBitHigh
    obtain ⟨hraw, hlast, hmore⟩ := hBitHigh (hst.trans (measurementState_bitHigh hi))
    have htable := h.table_set (j := 2 * i + 1) hraw
    rcases Nat.lt_or_eq_of_le (Nat.le_of_lt_succ hi) with hi | rfl
    · obtain ⟨hstu, hidxu⟩ := hmore hi
      exact ⟨hstu.trans (measurementState_bitLow (i := i + 1) (by omega)).symm, hp, fun _ => by omega, htable⟩
    · obtain ⟨hstu, hidxu⟩ := hlast rfl
      exact ⟨hstu, hp, fun _ => by rw [hidxu]; rfl, htable⟩

/-- From the first measurement on, each begins in the cycle after the end of the one before (70_reset_and_hazards.md
R273). -/
theorem run_measurements (hI : RegInv t) (h0 : AtMeasurement k 0 t) (hk : ∀ m < 82, k m ≤ t.cfg.budget)
    (hl : LineFollows t 0 k) (hr : NoReset t (pulsesBefore k 82)) (m : Nat) (hm : m ≤ 82) :
    ∃ u, Sys2Proof.core.run (pulsesBefore k m) t = .next u ∧ AtMeasurement k m u := by
  induction m with
  | zero => exact ⟨t, rfl, h0⟩
  | succ m ih =>
    obtain ⟨u, hu, hat⟩ := ih (by omega)
    obtain ⟨hmeasuring, hexpected⟩ := hat.measures hm
    obtain ⟨hholds, hends⟩ := hl.measurement hm hu
    have hrm : NoReset t (pulsesBefore k m + (k m + 1)) := hr.mono (pulsesBefore_succ k m ▸ pulsesBefore_mono k hm)
    obtain ⟨-, v, hv, hp, hc⟩ := measurementCountsItsPolls u (k m) (run_regInv hI hu) hmeasuring hat.pcnt
      (run_cfg hu ▸ hk m hm) (hrm.run hu) (hexpected ▸ hholds) (hexpected ▸ hends)
    exact ⟨v, by rw [pulsesBefore_succ, run_add _ _ hu, hv], hat.next hm hp hc⟩

/-! ### The frame of the counts -/

/-- No pair of counts up to BUDGET holds the sentinel (41_pulse_timer.md R123). -/
theorem AtMeasurement.not_pairTimedOut (h : AtMeasurement k 82 t) (hok : t.cfg.ok = true)
    (hk : ∀ m < 82, k m ≤ t.cfg.budget) : ∀ i < 40, ¬ PairTimedOut t i := by
  intro i hi
  have hbt := budget_lt_timeout hok
  have hlo := hk (2 * i + 2) (by omega)
  have hhi := hk (2 * i + 1 + 2) (by omega)
  rw [PairTimedOut, h.table (2 * i) (by omega), h.table (2 * i + 1) (by omega), Option.some_inj, Option.some_inj]
  omega

/-- The bits of the complete table are the ratios of the counts (43_bit_pair.md R171). -/
theorem AtMeasurement.ratioBit_eq (h : AtMeasurement k 82 t) {i : Nat} (hi : i < 40) :
    ratioBit t.raw i = decide (k (2 * i + 2) < k (2 * i + 3)) :=
  ratioBit_of_get (h.table (2 * i) (by omega)) (h.table (2 * i + 1) (by omega))

theorem AtMeasurement.byte_eq (h : AtMeasurement k 82 t) {i : Nat} (hi : i < 5) :
    ∑ j ∈ Finset.range 8, (ratioBit t.raw (8 * i + j)).toNat * 2 ^ (7 - j) =
      ∑ j ∈ Finset.range 8, (decide (k (16 * i + 2 * j + 2) < k (16 * i + 2 * j + 3))).toNat * 2 ^ (7 - j) := by
  refine Finset.sum_congr rfl fun j hj => ?_
  have hj := Finset.mem_range.1 hj
  rw [h.ratioBit_eq (by omega), Nat.mul_add, ← Nat.mul_assoc]

end

/-- VALIDATE reports its verdict on the buffer and keeps both memories (44_checksum.md R190, R191). -/
theorem step_verdict {s : State} (hI : RegInv s) (hr : s.inp.rst = false) (hst : s.st = St.VALIDATE) :
    ∃ t, step s = .next t ∧ t.st = St.IDLE ∧ t.done = true ∧ t.raw = s.raw ∧ t.buf = s.buf ∧
      (t.buf[4].toNat = (t.buf[0].toNat + t.buf[1].toNat + t.buf[2].toNat + t.buf[3].toNat) % 256 →
        t.valid = true ∧ t.status = Status.OK) ∧
      (t.buf[4].toNat ≠ (t.buf[0].toNat + t.buf[1].toNat + t.buf[2].toNat + t.buf[3].toNat) % 256 →
        t.valid = false ∧ t.status = Status.CHECKSUM) := by
  by_cases hsum : s.buf[4].toNat = (s.buf[0].toNat + s.buf[1].toNat + s.buf[2].toNat + s.buf[3].toNat) % 256
  · exact ⟨_, step_of_moves hI hr (.validateOk hst hsum), rfl, rfl, rfl, rfl, fun _ => ⟨rfl, rfl⟩, absurd hsum⟩
  · exact ⟨_, step_of_moves hI hr (.validateBad hst hsum), rfl, rfl, rfl, rfl, (absurd · hsum),
      fun _ => ⟨rfl, rfl⟩⟩

/-- The cycle of the first ACK_LOW poll is that of measurement 0, with nothing decoded. -/
theorem Synchronising.atMeasurement {s t : State} (k : Nat → Nat)
    (h : Synchronising s (1 + s.cfg.tIdle + s.cfg.tStart + s.cfg.tPull) t) : AtMeasurement k 0 t ∧ PayloadInv t := by
  have hst := h.st_eq_ackLow
  have hbusy : t.st ≠ St.IDLE := by simp [hst]
  exact ⟨⟨hst, h.pcnt, by omega, by omega⟩,
    .of_cleared (decodedCount_beforeDecode hbusy (by simp [hst])) h.buf fun hidle => absurd hidle hbusy⟩

/-- Settles O49: the waits of frame synchronisation, 82 measurements one after the other, 40 DECODE cycles and
VALIDATE. -/
theorem attemptYieldsTheFrameInTime : Obligations.AttemptYieldsTheFrameInTime := by
  unfold Obligations.AttemptYieldsTheFrameInTime
  intro s k hI hst hs hk p hl hr
  obtain ⟨a, ha, hsync⟩ := run_synchronising hI hst hs (hr.mono (by omega)) p (by omega) le_rfl
  obtain ⟨hat0, hpay⟩ := hsync.atMeasurement k
  rw [Nat.add_assoc] at hr ⊢
  have hra := hr.run ha
  obtain ⟨b, hb, hat⟩ :=
    run_measurements hsync.inv hat0 (hsync.cfg ▸ hk) (hl.run ha) (hra.mono (by omega)) 82 le_rfl
  have hrb := hra.run hb
  have hIb := run_regInv hsync.inv hb
  have hcfg : b.cfg = s.cfg := (run_cfg hb).trans hsync.cfg
  have hdecoding : Decoding b 0 b := ⟨hIb, run_payloadInv hsync.inv hpay hb, rfl, rfl, hat.st, hat.idx (by omega)⟩
  obtain ⟨c, hc, hIc, hstc, hrawc, hbytes⟩ :=
    run_to_validate hdecoding (hat.not_pairTimedOut hIb.build (hcfg ▸ hk)) (hrb.mono (by omega))
  obtain ⟨d, hd, hstd, hdone, hrawd, hbufd, hverdict⟩ := step_verdict hIc (hrb.run (m := 1) hc).now hstc
  have hrun : Sys2Proof.core.run (p + (pulsesBefore k 82 + 41)) s = .next d := by
    rw [run_add _ _ ha, run_add _ _ hb, run_snoc hc hd]
  refine ⟨d, hrun, hstd, hdone, fun j hj => ?_, fun i hi => ?_, hverdict⟩
  · rw [hrawd, hrawc]
    exact hat.table j (by omega)
  · simp only [hbufd]
    exact (hbytes i hi).trans (hat.byte_eq hi)

end Sys2Proof.Machine
